-- ==== Sys2Proof/Word.lean ====
section
/-! DEFINITION. The word types of KEC (00_scope.md R9): window and store elements are 8 bits, the control
registers 32 bits, ARG0, ARG1 and RES 64 bits. -/

namespace Sys2Proof

/-- One element of IN, OUT or STORE (R9), and one character of a text (R14). -/
abbrev Byte := BitVec 8

/-- CMD, STATUS, IN_LEN, OUT_LEN, OUT_SPLIT, BB_CAP, BB_POS, BB_BITPOS, BB_MODE and the CFG registers (R9). -/
abbrev Word := BitVec 32

/-- ARG0, ARG1 and RES (R9), and the widest value a host access carries (R256). -/
abbrev DWord := BitVec 64

end Sys2Proof
end

