-- ==== Sys2Proof/Syntax.lean ====
section
/-! DEFINITION. The commands of KEC: one constructor per row of the opcode map (30_encoding.md R75), and the three
fields of a command word (R70) before they are checked. -/

namespace Sys2Proof

/-- The byte order chosen by field E of I2B, L2B, B2I and B2L (30_encoding.md R72). -/
inductive ByteOrder where
  /-- `E = 0` -/
  | little
  /-- `E = 1` -/
  | big
deriving DecidableEq, Repr

/-- The 38 commands of R75, in the table's order. A command word carries no operand (R74) but field E. -/
inductive Instr where
  -- Integer / Hex / Padding unit (41_hex_int_pad.md)
  | hexenc
  | hexdec
  | i2b (order : ByteOrder)
  | l2b (order : ByteOrder)
  | b2i (order : ByteOrder)
  | b2l (order : ByteOrder)
  | padp
  | unpadp
  | ascii
  -- Base58 unit (42_base58.md)
  | b58enc
  | b58dec
  -- Base64 unit (43_base64.md)
  | b64enc
  | b64uenc
  | b64dec
  -- Bech32 unit (44_bech32.md)
  | b32enc
  | b32dec
  | to5
  | from5
  -- Byte Buffer unit (45_byte_buffer.md)
  | bbnew
  | bbcopy
  | bbreset
  | bbgetpos
  | bbsetpos
  | bbtoout
  | bbrd8
  | bbrd16
  | bbrdu16
  | bbrd32
  | bbrd64
  | bbrdstr
  | bbrdbytes
  | bbwr8
  | bbwr16
  | bbwr32
  | bbwr64
  | bbwrstr
  | bbwrbytes
  | bbwrbits
deriving DecidableEq, Repr

/-- A command word cut into the fields of format C (R70), not yet checked. -/
structure CommandFields where
  /-- bits 7:0, the opcode -/
  op : Byte
  /-- bit 8, the byte-order flag -/
  e : BitVec 1
  /-- bits 31:9, reserved -/
  rsv : BitVec 23
deriving DecidableEq, Repr

end Sys2Proof
end

