-- ==== Sys2Proof/Decode.lean ====
section
/-! DEFINITION. Decoding and encoding of command words (30_encoding.md R70-R76). The decoder reads the opcode map as a
list of rows; the encoder is written per constructor from the same map. -/

namespace Sys2Proof

/-- Why a word is no command; the prologue of 60_exceptions.md R222 turns it into an ILLEGAL error. -/
inductive DecodeError where
  /-- OP is not in the opcode map (R71) -/
  | illegalOpcode
  /-- RSV is not 0, or E = 1 on a command without a byte-order flag (R72, R73) -/
  | reservedField
deriving DecidableEq, Repr

/-- `OP = w[7:0]` (R70). -/
def wordOp (w : Word) : Byte := w.extractLsb' 0 8

/-- `E = w[8]` (R70). -/
def wordE (w : Word) : BitVec 1 := w.extractLsb' 8 1

/-- `RSV = w[31:9]` (R70). -/
def wordRsv (w : Word) : BitVec 23 := w.extractLsb' 9 23

/-- The fields of a word (R70). -/
def wordFields (w : Word) : CommandFields := ⟨wordOp w, wordE w, wordRsv w⟩

/-- `E = 1` selects big-endian, `E = 0` little-endian (R72). -/
def orderOfE (e : BitVec 1) : ByteOrder := if e = 1 then .big else .little

/-- The flag bit of a byte order (R72). -/
def eOfOrder : ByteOrder → BitVec 1
  | .little => 0
  | .big => 1

/-- One row of the opcode map (R75): the opcode, and the command it selects, with or without the flag E. -/
inductive OpcodeRow where
  /-- `E` must be 0 -/
  | plain (op : Byte) (i : Instr)
  /-- `E` is 0 or 1 -/
  | flagged (op : Byte) (little big : Instr)
deriving DecidableEq, Repr

def OpcodeRow.op : OpcodeRow → Byte
  | .plain op _ => op
  | .flagged op _ _ => op

def hexIntPadRows : List OpcodeRow :=
  [ .plain 0x01 .hexenc,
    .plain 0x02 .hexdec,
    .flagged 0x03 (.i2b .little) (.i2b .big),
    .flagged 0x04 (.l2b .little) (.l2b .big),
    .flagged 0x05 (.b2i .little) (.b2i .big),
    .flagged 0x06 (.b2l .little) (.b2l .big),
    .plain 0x07 .padp,
    .plain 0x08 .unpadp,
    .plain 0x09 .ascii ]

def codecRows : List OpcodeRow :=
  [ .plain 0x10 .b58enc,
    .plain 0x11 .b58dec,
    .plain 0x20 .b64enc,
    .plain 0x21 .b64uenc,
    .plain 0x22 .b64dec,
    .plain 0x30 .b32enc,
    .plain 0x31 .b32dec,
    .plain 0x32 .to5,
    .plain 0x33 .from5 ]

def bufferRows : List OpcodeRow :=
  [ .plain 0x40 .bbnew,
    .plain 0x41 .bbcopy,
    .plain 0x42 .bbreset,
    .plain 0x43 .bbgetpos,
    .plain 0x44 .bbsetpos,
    .plain 0x45 .bbtoout,
    .plain 0x48 .bbrd8,
    .plain 0x49 .bbrd16,
    .plain 0x4A .bbrdu16,
    .plain 0x4B .bbrd32,
    .plain 0x4C .bbrd64,
    .plain 0x4D .bbrdstr,
    .plain 0x4E .bbrdbytes,
    .plain 0x50 .bbwr8,
    .plain 0x51 .bbwr16,
    .plain 0x52 .bbwr32,
    .plain 0x53 .bbwr64,
    .plain 0x54 .bbwrstr,
    .plain 0x55 .bbwrbytes,
    .plain 0x56 .bbwrbits ]

/-- The opcode map of R75. -/
def opcodeMap : List OpcodeRow := hexIntPadRows ++ codecRows ++ bufferRows

/-- The command a row selects for given E and RSV, after the checks of R72 and R73. -/
def decodeRow (e : BitVec 1) (rsv : BitVec 23) : OpcodeRow → Except DecodeError Instr
  | .plain _ i => if rsv ≠ 0 ∨ e = 1 then .error .reservedField else .ok i
  | .flagged _ little big =>
    if rsv ≠ 0 then .error .reservedField else .ok (match orderOfE e with | .little => little | .big => big)

/-- The decoder: opcode first, then the reserved fields (60_exceptions.md R222, steps 2 and 3). -/
def decode (w : Word) : Except DecodeError Instr :=
  match opcodeMap.find? (fun r => r.op == wordOp w) with
  | none => .error .illegalOpcode
  | some r => decodeRow (wordE w) (wordRsv w) r

/-- The opcode of each command (R75). -/
def Instr.opcode : Instr → Byte
  | .hexenc => 0x01
  | .hexdec => 0x02
  | .i2b _ => 0x03
  | .l2b _ => 0x04
  | .b2i _ => 0x05
  | .b2l _ => 0x06
  | .padp => 0x07
  | .unpadp => 0x08
  | .ascii => 0x09
  | .b58enc => 0x10
  | .b58dec => 0x11
  | .b64enc => 0x20
  | .b64uenc => 0x21
  | .b64dec => 0x22
  | .b32enc => 0x30
  | .b32dec => 0x31
  | .to5 => 0x32
  | .from5 => 0x33
  | .bbnew => 0x40
  | .bbcopy => 0x41
  | .bbreset => 0x42
  | .bbgetpos => 0x43
  | .bbsetpos => 0x44
  | .bbtoout => 0x45
  | .bbrd8 => 0x48
  | .bbrd16 => 0x49
  | .bbrdu16 => 0x4A
  | .bbrd32 => 0x4B
  | .bbrd64 => 0x4C
  | .bbrdstr => 0x4D
  | .bbrdbytes => 0x4E
  | .bbwr8 => 0x50
  | .bbwr16 => 0x51
  | .bbwr32 => 0x52
  | .bbwr64 => 0x53
  | .bbwrstr => 0x54
  | .bbwrbytes => 0x55
  | .bbwrbits => 0x56

/-- Field E of each command's word: the byte-order flag where there is one, else 0 (R72). -/
def Instr.flag : Instr → BitVec 1
  | .i2b o | .l2b o | .b2i o | .b2l o => eOfOrder o
  | .hexenc | .hexdec | .padp | .unpadp | .ascii | .b58enc | .b58dec | .b64enc | .b64uenc | .b64dec
  | .b32enc | .b32dec | .to5 | .from5 | .bbnew | .bbcopy | .bbreset | .bbgetpos | .bbsetpos | .bbtoout
  | .bbrd8 | .bbrd16 | .bbrdu16 | .bbrd32 | .bbrd64 | .bbrdstr | .bbrdbytes
  | .bbwr8 | .bbwr16 | .bbwr32 | .bbwr64 | .bbwrstr | .bbwrbytes | .bbwrbits => 0

/-- The word of a command: `RSV = 0`, then E, then OP (R70, R77). -/
def encode (i : Instr) : Word := (0 : BitVec 23) ++ i.flag ++ i.opcode

/-- The host's view of the decoder: the command whose table word is `w`. Every row of the table has 32 bits and a
command has no further word (R70), so the word is taken as it is; KEC stores no command in memory. -/
def decodeTableWord (nbits w : Nat) : Option Instr :=
  if nbits ≤ 32 ∧ w < 2 ^ nbits then
    match decode (BitVec.ofNat 32 w) with
    | .ok i => some i
    | .error _ => none
  else none

end Sys2Proof
end

