-- ==== Sys2Proof/Config.lean ====
section
/-! DEFINITION. The build-time parameters P1-P13 of KEC (00_scope.md R6-R8) and the free values of the model.
A `Config` is plain data and a field of State (10_state.md R20 counts the parameters with the state tuple), so every
rule is stated for every legal value; no command and no host access changes it. -/

namespace Sys2Proof

/-- P7 `B64_TAIL1` (R8): Base64 decode of a final group of one character. -/
inductive Tail1 where
  | oneByte
  | reject
deriving DecidableEq, Repr

/-- P8 `BB_MIX_POLICY` (R8): byte writes and bit writes mixed on one buffer. -/
inductive MixPolicy where
  | refuse
  | independent
deriving DecidableEq, Repr

/-- P9 `BB_BIT_MERGE` (R8): what BBWRBITS does to target bits already set. -/
inductive BitMerge where
  | replace
  | or
deriving DecidableEq, Repr

/-- P10 `BECH32_DATA_CASE` (R8): whether B32DEC accepts upper-case data characters. -/
inductive DataCase where
  | exact
  | fold
deriving DecidableEq, Repr

/-- P11 `HEX_0X_UPPER` (R8): whether HEXDEC strips an upper-case `0X`. -/
inductive HexUpper where
  | reject
  | accept
deriving DecidableEq, Repr

/-- P12 `INT_PAD_LE` (R8): where B2I and B2L pad a short little-endian input. -/
inductive PadLE where
  | left
  | msb
deriving DecidableEq, Repr

/-- The parameters of one build of KEC (R6, R7, R8). -/
structure Config where
  /-- P1 `IN_CAP` -/
  inCap : Nat
  /-- P2 `OUT_CAP` -/
  outCap : Nat
  /-- P3 `BB_MAX_CAP` -/
  bbMaxCap : Nat
  /-- P4 `B58_ALPHABET` -/
  b58Alphabet : List Byte
  /-- P5 `BECH32_GEN[0..4]`, each below 2^30 -/
  bech32Gen : List (BitVec 30)
  /-- P6 `BECH32_INIT`, below 2^30 -/
  bech32Init : BitVec 30
  /-- P7 -/
  b64Tail1 : Tail1
  /-- P8 -/
  bbMixPolicy : MixPolicy
  /-- P9 -/
  bbBitMerge : BitMerge
  /-- P10 -/
  bech32DataCase : DataCase
  /-- P11 -/
  hex0xUpper : HexUpper
  /-- P12 -/
  intPadLE : PadLE
  /-- P13 `KEC_BASE`: the platform address of offset 0 -/
  kecBase : Nat
deriving DecidableEq, Repr

/-- The bytes of a text constant, one ASCII code a character (R14). -/
def asciiBytes (t : String) : List Byte := t.toList.map fun c => BitVec.ofNat 8 c.toNat

/-- The parameter values State.reset is built with: the defaults of R7 and R8, the sizes the vectors of
95_test_vectors.md section 1 use (P1-P3 are OPEN), and KEC_BASE 0 (P13 is OPEN).
DESIGN CHOICE (log entry 2). -/
def Config.standard : Config where
  inCap := 4096
  outCap := 4096
  bbMaxCap := 65536
  b58Alphabet := asciiBytes "123456789ABCDEFGHJKLMNPQRSTUVWXYZabcdefghijkmnopqrstuvwxyz"
  bech32Gen := [0x3B6A57B2, 0x26508E6D, 0x1EA119FA, 0x3D4233DD, 0x2A1462B3]
  bech32Init := 1
  b64Tail1 := .oneByte
  bbMixPolicy := .refuse
  bbBitMerge := .replace
  bech32DataCase := .exact
  hex0xUpper := .reject
  intPadLE := .left
  kecBase := 0

/-- A free value: the byte the n-th draw yields, where a host reads OUT at or beyond OUT_LEN (93_implementation_defined.md U2). It
has no body: no proof can see a value. DESIGN CHOICE (log entry 5). -/
opaque Config.freeByte : Nat → Byte

/-- A free value: what `IN[k]` holds after the n-th reset until the host writes it (70_reset_and_hazards.md R250: unspecified). It
depends on nothing else, so reads of it agree (20_memory.md R58). DESIGN CHOICE (log entry 16). -/
opaque Config.inAfterReset (n k : Nat) : Byte

/-- A free value: what `OUT[k]` holds after the n-th reset until a command writes it (R250), as `Config.inAfterReset`. DESIGN CHOICE
(log entry 16). -/
opaque Config.outAfterReset (n k : Nat) : Byte

end Sys2Proof
end

