-- ==== Sys2Proof/Machine/State.lean ====
section
/-! DEFINITION. The state of KEC as plain data: the tuple of 10_state.md R20 with the build parameters, and the model's own
record of what the host has yet to do on the bus and of what it last read. -/

namespace Sys2Proof.Machine

/-- Sparse bytes by index, indices strictly rising. In a window (IN, OUT) an unlisted index holds no byte that was written
since reset (R21, R23); in STORE an unlisted index below BB_CAP holds 0, and 0 is never listed (R32). -/
abbrev Memory := List Host.Cell

/-- `BB_MODE` (10_state.md R36): which kind of write the buffer has taken. -/
inductive WriteMode where
  /-- register value 0 -/
  | none
  /-- register value 1 -/
  | byte
  /-- register value 2 -/
  | bit
deriving DecidableEq, Repr

/-- The Byte Buffer (10_state.md R32-R36). -/
structure Buffer where
  /-- `STORE`, of length `cap` (R32) -/
  store : Memory
  /-- `BB_CAP` (R33) -/
  cap : Word
  /-- `BB_POS` (R34) -/
  pos : Word
  /-- `BB_BITPOS` (R35) -/
  bitpos : Word
  /-- `BB_MODE` (R36) -/
  mode : WriteMode
deriving DecidableEq, Repr

/-- What the outside world does to KEC, one whole access at a time (00_scope.md R5, R13; 70_reset_and_hazards.md R250).
Addresses are platform addresses: offset plus KEC_BASE (20_memory.md R50). -/
inductive Access where
  /-- `MemRead(addr, n)` -/
  | read (addr n : Nat)
  /-- `MemWrite(addr, n, v)`: the low `8·n` bits of `v` are written -/
  | write (addr n : Nat) (v : DWord)
  /-- the platform asserts the reset input -/
  | reset
deriving DecidableEq, Repr

/-- The error causes of 60_exceptions.md R220, by the names of its table. -/
inductive Cause where
  | badChar
  | oddLength
  | notAscii
  | badPadding
  | emptyInput
  | hrpLength
  | hrpChar
  | dataValue
  | noSeparator
  | dataTooShort
  | bad5bitPadding
  | b64Tail
  | checksum
  | widthOverflow
  | badBlockSize
  | readPastEnd
  | positionRange
  | destTooSmall
  | sourceRange
  | noTerminator
  | bitWidth
  | bitOverrun
  | capacityExhausted
  | outOverflow
  | inLength
  | illegalOpcode
  | reservedField
  | modeConflict
deriving DecidableEq, Repr

/-- The error classes of R220 other than NONE. -/
inductive ErrClass where
  | malformed
  | range
  | checksum
  | illegal
deriving DecidableEq, Repr

/-- Why the machine stops. -/
inductive Fault where
  /-- A command read a byte of IN that the host has not written since reset: 93_implementation_defined.md U1 asks for a
  fault naming the command. Raised by the commands that read INSEQ. Safe: the hardware would go on with an unspecified
  byte. -/
  | unwrittenInput (i : Instr)
  /-- A host access at a platform address outside KEC's 256 KiB block (20_memory.md R50): no such offset exists. Raised by
  `step`. Safe: no KEC behaviour is claimed there. -/
  | outsideAddressSpace (addr : Nat)
deriving DecidableEq, Repr

/-- Why the machine has no meaning for what it is asked. -/
inductive Refusal where
  /-- an instruction without a meaning; raised by the dispatcher alone (no arm uses it). Safe. -/
  | notModelled (mnemonic : String)
  /-- a host access of a shape that 70_reset_and_hazards.md R256 does not admit: 93_implementation_defined.md U3 asks for a
  refusal. Raised by `step`. Safe. -/
  | outsideContract (addr n : Nat)
deriving DecidableEq, Repr

/-- The state of KEC (R20). -/
structure State where
  /-- the build parameters P1-P13 (R20); the CFG registers are views of it (R30, R31) -/
  cfg : Config
  /-- `IN` (R21), by index -/
  inWin : Memory
  /-- `IN_LEN` (R22) -/
  inLen : Word
  /-- `OUT` (R23), by index -/
  outWin : Memory
  /-- `OUT_LEN` (R24) -/
  outLen : Word
  /-- `ARG0` (R25) -/
  arg0 : DWord
  /-- `ARG1` (R25) -/
  arg1 : DWord
  /-- `RES` (R26) -/
  res : DWord
  /-- `OUT_SPLIT` (R27) -/
  outSplit : Word
  /-- `CMD` (R28) -/
  cmd : Word
  /-- `STATUS` (R29) -/
  status : Word
  /-- the Byte Buffer (R32-R36) -/
  buf : Buffer
  /-- MODEL'S OWN (log entry 1): the host accesses still to be performed, oldest first -/
  bus : List Access
  /-- MODEL'S OWN (log entry 1): the value the last host read returned -/
  readData : DWord
  /-- MODEL'S OWN (log entry 5): how many free bytes have been drawn -/
  draws : Nat
  /-- MODEL'S OWN (log entry 16): how many resets the platform has asserted since power-on -/
  epoch : Nat
deriving DecidableEq, Repr

/-- The empty buffer that reset and BBRESET leave (R250, 45_byte_buffer.md R175). -/
def Buffer.empty : Buffer := { store := [], cap := 0, pos := 0, bitpos := 0, mode := .none }

/-- The state after reset of the build `c` (70_reset_and_hazards.md R250): every register 0, the windows unwritten, the
buffer empty; no host access is pending. -/
def State.resetOf (c : Config) : State where
  cfg := c
  inWin := []
  inLen := 0
  outWin := []
  outLen := 0
  arg0 := 0
  arg1 := 0
  res := 0
  outSplit := 0
  cmd := 0
  status := 0
  buf := Buffer.empty
  bus := []
  readData := 0
  draws := 0
  epoch := 0

/-- The machine right after reset, built with `Config.standard` (log entries 2 and 3). -/
def State.reset : State := State.resetOf Config.standard

end Sys2Proof.Machine
end

