-- ==== Sys2Proof/Machine/Flags.lean ====
section
/-! DEFINITION. STATUS: the class and cause codes (60_exceptions.md R220), the word a command leaves (R221, R223), and the
fields of the register (10_state.md R29). -/

namespace Sys2Proof.Machine

/-- Each cause belongs to one class (R220). -/
def Cause.errClass : Cause → ErrClass
  | .badChar | .oddLength | .notAscii | .badPadding | .emptyInput | .hrpLength | .hrpChar | .dataValue
  | .noSeparator | .dataTooShort | .bad5bitPadding | .b64Tail => .malformed
  | .checksum => .checksum
  | .widthOverflow | .badBlockSize | .readPastEnd | .positionRange | .destTooSmall | .sourceRange | .noTerminator
  | .bitWidth | .bitOverrun | .capacityExhausted | .outOverflow | .inLength => .range
  | .illegalOpcode | .reservedField | .modeConflict => .illegal

/-- `CLASS` values (R29, R220); 0 is NONE. -/
def ErrClass.code : ErrClass → BitVec 3
  | .malformed => 1
  | .range => 2
  | .checksum => 3
  | .illegal => 4

/-- `CAUSE` values (R220); 0 is NONE. -/
def Cause.code : Cause → Byte
  | .badChar => 0x01
  | .oddLength => 0x02
  | .notAscii => 0x03
  | .badPadding => 0x04
  | .emptyInput => 0x05
  | .hrpLength => 0x06
  | .hrpChar => 0x07
  | .dataValue => 0x08
  | .noSeparator => 0x09
  | .dataTooShort => 0x0A
  | .bad5bitPadding => 0x0B
  | .b64Tail => 0x0C
  | .checksum => 0x10
  | .widthOverflow => 0x20
  | .badBlockSize => 0x21
  | .readPastEnd => 0x22
  | .positionRange => 0x23
  | .destTooSmall => 0x24
  | .sourceRange => 0x25
  | .noTerminator => 0x26
  | .bitWidth => 0x27
  | .bitOverrun => 0x28
  | .capacityExhausted => 0x29
  | .outOverflow => 0x2A
  | .inLength => 0x2B
  | .illegalOpcode => 0x30
  | .reservedField => 0x31
  | .modeConflict => 0x32

/-- STATUS from its fields (R29): reserved 31:24, LAST_OP 23:16, CAUSE 15:8, reserved 7:5, CLASS 4:2, ERR 1, BUSY 0. -/
def statusOf (lastOp cause : Byte) (cls : BitVec 3) (err busy : BitVec 1) : Word :=
  (0 : BitVec 8) ++ lastOp ++ cause ++ (0 : BitVec 3) ++ cls ++ err ++ busy

/-- STATUS after a command that failed with cause `c` (R221). -/
def failStatus (op : Byte) (c : Cause) : Word := statusOf op c.code c.errClass.code 1 0

/-- STATUS after a command that succeeded (R223). -/
def okStatus (op : Byte) : Word := statusOf op 0 0 0 0

/-- `STATUS.BUSY` -/
def statusBusy (w : Word) : BitVec 1 := w.extractLsb' 0 1

/-- `STATUS.ERR` -/
def statusErr (w : Word) : BitVec 1 := w.extractLsb' 1 1

/-- `STATUS.CLASS` -/
def statusClass (w : Word) : BitVec 3 := w.extractLsb' 2 3

/-- `STATUS.CAUSE` -/
def statusCause (w : Word) : Byte := w.extractLsb' 8 8

/-- `STATUS.LAST_OP` -/
def statusLastOp (w : Word) : Byte := w.extractLsb' 16 8

/-- The error a rejected command word raises (R222 steps 2 and 3). -/
def causeOfDecodeError : DecodeError → Cause
  | .illegalOpcode => .illegalOpcode
  | .reservedField => .reservedField

end Sys2Proof.Machine
end

