-- ==== Sys2Proof/Machine/Memory.lean ====
section
/-! DEFINITION. Sparse bytes (log entry 4): reading and writing one byte, runs of bytes, and the canonical forms. The
windows IN and OUT read "nothing written" where nothing is listed; STORE reads 0 there. -/

namespace Sys2Proof.Machine

/-- The byte listed at index `a`, if any. -/
def Memory.lookup : Memory → Nat → Option Byte
  | [], _ => none
  | (k, v) :: rest, a => if k = a then some v else Memory.lookup rest a

/-- List `v` at index `a`, in its place, over what was listed there. -/
def Memory.insert : Memory → Nat → Byte → Memory
  | [], a, v => [(a, v)]
  | (k, w) :: rest, a, v =>
    if a < k then (a, v) :: (k, w) :: rest
    else if a = k then (a, v) :: rest
    else (k, w) :: Memory.insert rest a v

/-- Unlist index `a`. -/
def Memory.erase : Memory → Nat → Memory
  | [], _ => []
  | (k, w) :: rest, a => if k = a then rest else (k, w) :: Memory.erase rest a

/-- Write the bytes `bs` from index `a` upward into a window. -/
def Memory.insertRun : Memory → Nat → List Byte → Memory
  | m, _, [] => m
  | m, a, b :: bs => Memory.insertRun (Memory.insert m a b) (a + 1) bs

/-- What an unlisted index of STORE reads as: growth and construction by size give 0 (45_byte_buffer.md R171, R173). -/
def storeFill : Byte := 0

/-- `STORE[a]` (10_state.md R32). -/
def Memory.storeGet (m : Memory) (a : Nat) : Byte := (m.lookup a).getD storeFill

/-- `STORE[a] <- v`. -/
def Memory.storePut (m : Memory) (a : Nat) (v : Byte) : Memory :=
  if v = storeFill then m.erase a else m.insert a v

/-- Write the bytes `bs` from index `a` upward into STORE (45_byte_buffer.md R187). -/
def Memory.storePutRun : Memory → Nat → List Byte → Memory
  | m, _, [] => m
  | m, a, b :: bs => Memory.storePutRun (Memory.storePut m a b) (a + 1) bs

/-- `STORE[lo .. lo + n)`. -/
def Memory.storeSlice (m : Memory) (lo n : Nat) : List Byte :=
  (List.range n).map fun k => m.storeGet (lo + k)

/-- Indices strictly rising. -/
def Memory.sorted : Memory → Bool
  | [] => true
  | (k, _) :: rest => rest.all (fun c => k < c.1) && Memory.sorted rest

/-- The canonical form of `cap` bytes in which an unlisted index reads as `fill`: indices strictly rising and below `cap`, and
no listed byte equal to what an unlisted index reads as. -/
def Memory.wf (fill : Option Byte) (cap : Nat) (m : Memory) : Bool :=
  m.sorted && m.all (fun c => c.1 < cap && some c.2 != fill)

/-- The canonical form of a window of `cap` bytes: an unlisted index holds no byte. -/
def Memory.windowWf (m : Memory) (cap : Nat) : Bool := m.wf none cap

/-- The canonical form of STORE with `cap` bytes: an unlisted index holds the fill byte. -/
def Memory.storeWf (m : Memory) (cap : Nat) : Bool := m.wf (some storeFill) cap

end Sys2Proof.Machine
end

