-- ==== Sys2Proof/Machine/Ops.lean ====
section
/-! DEFINITION. The shared operations of the commands: named updates of the state, raising an error and committing a
command (60_exceptions.md R221, R223), `Emit` (00_scope.md R15), and the Byte Buffer's growth, mode check, reads and writes
(45_byte_buffer.md R171, R172, R179, R187). -/

namespace Sys2Proof.Machine

/-! ### Named updates of the state -/

def State.setCmd (s : State) (w : Word) : State := { s with cmd := w }
def State.setStatus (s : State) (w : Word) : State := { s with status := w }
def State.setInWin (s : State) (m : Memory) : State := { s with inWin := m }
def State.setInLen (s : State) (w : Word) : State := { s with inLen := w }
def State.setArg0 (s : State) (v : DWord) : State := { s with arg0 := v }
def State.setArg1 (s : State) (v : DWord) : State := { s with arg1 := v }
def State.setOut (s : State) (m : Memory) (n : Word) : State := { s with outWin := m, outLen := n }
def State.setRes (s : State) (v : DWord) : State := { s with res := v }
def State.setOutSplit (s : State) (w : Word) : State := { s with outSplit := w }
def State.setBuf (s : State) (b : Buffer) : State := { s with buf := b }
def State.setBus (s : State) (q : List Access) : State := { s with bus := q }

/-- A host read returns `v`. -/
def State.returnRead (s : State) (v : DWord) : State := { s with readData := v }

/-- A host read returns an unspecified byte: a fresh draw (93_implementation_defined.md U2). -/
def State.returnDraw (s : State) : State :=
  { s with readData := (Config.freeByte s.draws).setWidth 64, draws := s.draws + 1 }

/-! ### Errors, and the end of a command -/

/-- Why a command's pseudocode ends before its commit: a `raise` (R15), or a read of an unwritten IN byte (U1). -/
inductive Stop where
  | cause (c : Cause)
  | unwritten
deriving DecidableEq, Repr

/-- `if bad: raise Error(class of c, c)` (R15). -/
def raiseIf (bad : Prop) [Decidable bad] (c : Cause) : Except Stop Unit :=
  if bad then .error (.cause c) else .ok ()

/-- The value, or the error `c` where there is none. -/
def orRaise {α : Type} (o : Option α) (c : Cause) : Except Stop α :=
  match o with
  | some x => .ok x
  | none => .error (.cause c)

/-- TAKING AN ERROR, the one exception mechanism of KEC: STATUS reports the failure and no other state changes (R221). KEC
has no trap entry and no return (R224). -/
def failCommand (op : Byte) (c : Cause) (s : State) : State := s.setStatus (failStatus op c)

/-- The success epilogue: the writes stand, and STATUS reports success (R223). -/
def commitCommand (op : Byte) (t : State) : State := t.setStatus (okStatus op)

/-- Ends command `i`, whose pseudocode run from `s` gave `r`: commits all of its writes or discards them all
(00_scope.md R15, 60_exceptions.md R221, R223). -/
def runCommand (i : Instr) (s : State) (r : Except Stop State) : Host.Outcome State Fault Refusal :=
  match r with
  | .ok t => .next (commitCommand i.opcode t)
  | .error (.cause c) => .next (failCommand i.opcode c s)
  | .error .unwritten => .fault (.unwrittenInput i)

/-- `Emit(b)` (00_scope.md R15). -/
def emit (b : List Byte) (s : State) : Except Stop State := do
  raiseIf (b.length > s.cfg.outCap) .outOverflow
  pure (s.setOut (s.outWin.insertRun 0 b) (BitVec.ofNat 32 b.length))

/-! ### Byte Buffer -/

/-- `ensureCapacity(need)` (45_byte_buffer.md R171). Growth lists nothing: the new bytes are the fill byte 0. -/
def ensureCapacity (need : Nat) (s : State) : Except Stop State :=
  let pos := s.buf.pos.toNat
  let cap := s.buf.cap.toNat
  if pos + need > cap then do
    raiseIf (pos + need > s.cfg.bbMaxCap) .capacityExhausted
    let newCap := min (max (pos + need) (2 * cap)) s.cfg.bbMaxCap
    pure (s.setBuf { s.buf with cap := BitVec.ofNat 32 newCap })
  else pure s

/-- `CheckMode(kind)` (R172). -/
def checkMode (kind : WriteMode) (s : State) : Except Stop Unit :=
  raiseIf (s.cfg.bbMixPolicy = .refuse ∧ s.buf.mode ≠ .none ∧ s.buf.mode ≠ kind) .modeConflict

/-- `SetMode(kind)` (R172). -/
def setMode (kind : WriteMode) (s : State) : State :=
  if s.buf.mode = .none then s.setBuf { s.buf with mode := kind } else s

/-- `ReadN(n)` (R179): the bytes, and the state with the cursor advanced. -/
def readN (n : Nat) (s : State) : Except Stop (List Byte × State) := do
  raiseIf (s.buf.pos.toNat + n > s.buf.cap.toNat) .readPastEnd
  pure (s.buf.store.storeSlice s.buf.pos.toNat n, s.setBuf { s.buf with pos := BitVec.ofNat 32 (s.buf.pos.toNat + n) })

/-- The second and third line of `WriteN` (R187): the bytes over STORE at the cursor, and the cursor past them. -/
def putAtCursor (b : List Byte) (s : State) : State :=
  s.setBuf { s.buf with
    store := s.buf.store.storePutRun s.buf.pos.toNat b
    pos := BitVec.ofNat 32 (s.buf.pos.toNat + b.length) }

/-- `WriteN(b)` (R187). -/
def writeN (b : List Byte) (s : State) : Except Stop State := do
  let t ← ensureCapacity b.length s
  pure (putAtCursor b t)

/-- A byte write of given bytes (R172, R188-R191): mode check, write, mode update. -/
def byteWrite (b : List Byte) (s : State) : Except Stop State := do
  checkMode .byte s
  let t ← writeN b s
  pure (setMode .byte t)

/-- A fixed-width read (R180-R184): `n` bytes, and RES from them. -/
def readToRes (n : Nat) (widen : List Byte → DWord) (s : State) : Except Stop State := do
  let (b, t) ← readN n s
  pure (t.setRes (widen b))

end Sys2Proof.Machine
end

