-- ==== Sys2Proof/Machine/Operands.lean ====
section
/-! DEFINITION. The operands of the commands (30_encoding.md R74): INSEQ and its slices, the slices of ARG0 and ARG1, and the
readings of a byte sequence as a number (00_scope.md R12). -/

namespace Sys2Proof.Machine

/-! ### Numbers and bytes -/

/-- `LE(b)` (R12). -/
def leNat : List Byte → Nat
  | [] => 0
  | x :: rest => x.toNat + 256 * leNat rest

/-- `BE(b)` (R12). -/
def beNat (b : List Byte) : Nat := leNat b.reverse

/-- The bytes of a 16-bit value, most significant first. -/
def be16 (v : BitVec 16) : List Byte := [v.extractLsb' 8 8, v.extractLsb' 0 8]

/-- The bytes of a 32-bit value, most significant first. -/
def be32 (v : Word) : List Byte := [v.extractLsb' 24 8, v.extractLsb' 16 8, v.extractLsb' 8 8, v.extractLsb' 0 8]

/-- The bytes of a 64-bit value, most significant first. -/
def be64 (v : DWord) : List Byte :=
  [v.extractLsb' 56 8, v.extractLsb' 48 8, v.extractLsb' 40 8, v.extractLsb' 32 8,
    v.extractLsb' 24 8, v.extractLsb' 16 8, v.extractLsb' 8 8, v.extractLsb' 0 8]

/-- Big-endian bytes in the order field E asks for (R72). -/
def inOrder (o : ByteOrder) (be : List Byte) : List Byte :=
  match o with
  | .big => be
  | .little => be.reverse

/-- `lower(c)` (00_scope.md R15). -/
def lowerByte (c : Byte) : Byte := if 0x41 ≤ c ∧ c ≤ 0x5A then c + 32 else c

/-- `lower(b)` (R15). -/
def lower (b : List Byte) : List Byte := b.map lowerByte

/-! ### ARG0 and ARG1 -/

/-- `ARG0[7:0]` -/
def State.arg0b8 (s : State) : Byte := s.arg0.extractLsb' 0 8

/-- `ARG0[15:0]` -/
def State.arg0b16 (s : State) : BitVec 16 := s.arg0.extractLsb' 0 16

/-- `ARG0[31:0]` -/
def State.arg0b32 (s : State) : Word := s.arg0.extractLsb' 0 32

/-- `ARG1[31:0]` -/
def State.arg1b32 (s : State) : Word := s.arg1.extractLsb' 0 32

/-! ### INSEQ

Log entry 6 says when a byte of IN counts as read: a step of the pseudocode that names a whole sequence reads all of it, a loop
reads byte by byte and stops at its first error. -/

/-- `NeedIn()` (R15). -/
def needIn (s : State) : Except Stop Unit := raiseIf (s.inLen.toNat > s.cfg.inCap) .inLength

/-- The cells of `IN[lo .. lo + n)`: none where the host has written nothing since reset (10_state.md R21). -/
def inCells (s : State) (lo n : Nat) : List (Option Byte) :=
  (List.range n).map fun k => s.inWin.lookup (lo + k)

/-- Read cells in order, each checked as soon as it is read: the first unwritten cell stops the command (U1), the first byte
that fails the check raises its cause. -/
def scanCells (check : Byte → Option Cause) : List (Option Byte) → Except Stop (List Byte)
  | [] => .ok []
  | none :: _ => .error .unwritten
  | some b :: rest =>
    match check b with
    | some c => .error (.cause c)
    | none =>
      match scanCells check rest with
      | .ok bs => .ok (b :: bs)
      | .error e => .error e

/-- The check that raises `c` on a bad byte. -/
def refuse (bad : Byte → Bool) (c : Cause) : Byte → Option Cause := fun b => if bad b then some c else none

/-- `IN[lo .. lo + n)`, read whole. -/
def readIn (s : State) (lo n : Nat) : Except Stop (List Byte) := scanCells (fun _ => none) (inCells s lo n)

/-- `IN[lo .. lo + n)`, checked byte by byte. -/
def scanIn (s : State) (lo n : Nat) (bad : Byte → Bool) (c : Cause) : Except Stop (List Byte) :=
  scanCells (refuse bad c) (inCells s lo n)

/-- `IN[k]`. -/
def readInByte (s : State) (k : Nat) : Except Stop Byte :=
  match s.inWin.lookup k with
  | some b => .ok b
  | none => .error .unwritten

/-- `NeedIn()` and then `INSEQ`, read whole. -/
def readInseq (s : State) : Except Stop (List Byte) := do
  needIn s
  readIn s 0 s.inLen.toNat

/-! ### Alphabets -/

/-- The index of each character of a text under `idx`; none when some character has none. -/
def indicesOf (idx : Byte → Option Nat) : List Byte → Option (List Nat)
  | [] => some []
  | c :: rest =>
    match idx c, indicesOf idx rest with
    | some k, some ks => some (k :: ks)
    | _, _ => none

end Sys2Proof.Machine
end

