-- ==== Sys2Proof/Machine/Bus.lean ====
section
/-! DEFINITION. The host bus: the register map (20_memory.md R51), the windows (R52, R53), reserved offsets (R54), the access
shapes of the host contract (R56, 70_reset_and_hazards.md R256), and what a read returns and a write changes. Performing the
command that a write of CMD carries is Machine/Step.lean's. -/

namespace Sys2Proof.Machine

/-- The registers of R51. -/
inductive Reg where
  | cmd
  | status
  | inLen
  | outLen
  | arg0
  | arg1
  | res
  | outSplit
  | bbCap
  | bbPos
  | bbBitpos
  | bbMode
  | cfgInCap
  | cfgOutCap
  | cfgBbMaxCap
  | cfgPolicy
deriving DecidableEq, Repr

/-- One row of the register block: offset, register, width in bytes (R51). -/
structure RegRow where
  off : Nat
  reg : Reg
  bytes : Nat
deriving DecidableEq, Repr

/-- The register block (R51). -/
def regMap : List RegRow :=
  [ ⟨0x000, .cmd, 4⟩, ⟨0x004, .status, 4⟩, ⟨0x008, .inLen, 4⟩, ⟨0x00C, .outLen, 4⟩,
    ⟨0x010, .arg0, 8⟩, ⟨0x018, .arg1, 8⟩, ⟨0x020, .res, 8⟩,
    ⟨0x028, .outSplit, 4⟩, ⟨0x02C, .bbCap, 4⟩, ⟨0x030, .bbPos, 4⟩, ⟨0x034, .bbBitpos, 4⟩, ⟨0x038, .bbMode, 4⟩,
    ⟨0x040, .cfgInCap, 4⟩, ⟨0x044, .cfgOutCap, 4⟩, ⟨0x048, .cfgBbMaxCap, 4⟩, ⟨0x04C, .cfgPolicy, 4⟩ ]

/-- What an access within the contract reaches. -/
inductive Target where
  | reg (r : Reg)
  | inByte (k : Nat)
  | outByte (k : Nat)
  | reserved
deriving DecidableEq, Repr

/-- Offset of the IN window (R52). -/
def inBase : Nat := 0x10000

/-- Offset of the OUT window (R53). -/
def outBase : Nat := 0x20000

/-- Size of the host address space (R50). -/
def spaceSize : Nat := 0x40000

/-- Offset of CMD (R51). -/
def cmdOffset : Nat := 0x000

/-- The offset a platform address names (R50, P13); none outside KEC's block. -/
def offsetOf (c : Config) (addr : Nat) : Option Nat :=
  if c.kecBase ≤ addr ∧ addr < c.kecBase + spaceSize then some (addr - c.kecBase) else none

/-- What an access of `n` bytes at offset `off` reaches; none where its shape is outside the contract (R256): a register only
whole and at its own offset, a window byte only by 1 byte, a reserved offset by 1 byte or by 4 aligned bytes. -/
def target (c : Config) (off n : Nat) : Option Target :=
  match regMap.find? (fun r => decide (r.off ≤ off ∧ off < r.off + r.bytes)) with
  | some r => if off = r.off ∧ n = r.bytes then some (.reg r.reg) else none
  | none =>
    if inBase ≤ off ∧ off < inBase + c.inCap then
      if n = 1 then some (.inByte (off - inBase)) else none
    else if outBase ≤ off ∧ off < outBase + c.outCap then
      if n = 1 then some (.outByte (off - outBase)) else none
    else if n = 1 ∨ (n = 4 ∧ off % 4 = 0) then some .reserved
    else none

/-- The value of BB_MODE (10_state.md R36). -/
def WriteMode.code : WriteMode → Word
  | .none => 0
  | .byte => 1
  | .bit => 2

/-- CFG_POLICY (10_state.md R31): bit 0 is P7, bit 5 is P12. -/
def policyWord (c : Config) : Word :=
  let bit0 : BitVec 1 := match c.b64Tail1 with | .oneByte => 0 | .reject => 1
  let bit1 : BitVec 1 := match c.bbMixPolicy with | .refuse => 0 | .independent => 1
  let bit2 : BitVec 1 := match c.bbBitMerge with | .replace => 0 | .or => 1
  let bit3 : BitVec 1 := match c.bech32DataCase with | .exact => 0 | .fold => 1
  let bit4 : BitVec 1 := match c.hex0xUpper with | .reject => 0 | .accept => 1
  let bit5 : BitVec 1 := match c.intPadLE with | .left => 0 | .msb => 1
  (0 : BitVec 26) ++ bit5 ++ bit4 ++ bit3 ++ bit2 ++ bit1 ++ bit0

/-- The value of a register, in the low bits of 64. -/
def regValue (s : State) : Reg → DWord
  | .cmd => s.cmd.setWidth 64
  | .status => s.status.setWidth 64
  | .inLen => s.inLen.setWidth 64
  | .outLen => s.outLen.setWidth 64
  | .arg0 => s.arg0
  | .arg1 => s.arg1
  | .res => s.res
  | .outSplit => s.outSplit.setWidth 64
  | .bbCap => s.buf.cap.setWidth 64
  | .bbPos => s.buf.pos.setWidth 64
  | .bbBitpos => s.buf.bitpos.setWidth 64
  | .bbMode => s.buf.mode.code.setWidth 64
  | .cfgInCap => BitVec.ofNat 64 s.cfg.inCap
  | .cfgOutCap => BitVec.ofNat 64 s.cfg.outCap
  | .cfgBbMaxCap => BitVec.ofNat 64 s.cfg.bbMaxCap
  | .cfgPolicy => (policyWord s.cfg).setWidth 64

/-- `IN[k]` as the host reads it (R52): what it wrote there, or the unspecified byte that the last reset left (log entry 16). -/
def State.inAt (s : State) (k : Nat) : Byte := (s.inWin.lookup k).getD (Config.inAfterReset s.epoch k)

/-- `OUT[k]` below OUT_LEN (R53): what a command wrote there, or, in a gap that BBRDBYTES left, the previous value, the
unspecified byte that the last reset left (93_implementation_defined.md U2, log entry 16). -/
def State.outAt (s : State) (k : Nat) : Byte := (s.outWin.lookup k).getD (Config.outAfterReset s.epoch k)

/-- A host read. It changes no register and no window and repeats to the same value (R58), but for `OUT[k]` with `k ≥ OUT_LEN`, a
draw on every read (93_implementation_defined.md U2, log entry 5). -/
def readTarget (t : Target) (s : State) : State :=
  match t with
  | .reg r => s.returnRead (regValue s r)
  | .inByte k => s.returnRead ((s.inAt k).setWidth 64)
  | .outByte k => if k < s.outLen.toNat then s.returnRead ((s.outAt k).setWidth 64) else s.returnDraw
  | .reserved => s.returnRead 0

/-- A host write, short of performing a command: CMD holds the word (10_state.md R28); IN_LEN, ARG0, ARG1 and a byte of IN
take the value; every other register, OUT and reserved offsets ignore it (R51, R53, R54). -/
def writeTarget (t : Target) (v : DWord) (s : State) : State :=
  match t with
  | .reg .cmd => s.setCmd (v.setWidth 32)
  | .reg .inLen => s.setInLen (v.setWidth 32)
  | .reg .arg0 => s.setArg0 v
  | .reg .arg1 => s.setArg1 v
  | .reg .status | .reg .outLen | .reg .res | .reg .outSplit | .reg .bbCap | .reg .bbPos | .reg .bbBitpos
  | .reg .bbMode | .reg .cfgInCap | .reg .cfgOutCap | .reg .cfgBbMaxCap | .reg .cfgPolicy => s
  | .inByte k => s.setInWin (s.inWin.insert k (v.setWidth 8))
  | .outByte _ => s
  | .reserved => s

/-- The platform's reset (70_reset_and_hazards.md R250): the state after reset of the same build. What the host has yet to do
and has already read is outside KEC and stays; what the windows hold is unspecified anew. -/
def platformReset (s : State) : State :=
  { State.resetOf s.cfg with bus := s.bus, readData := s.readData, draws := s.draws, epoch := s.epoch + 1 }

end Sys2Proof.Machine
end

