-- ==== Sys2Proof/Machine/Base58.lean ====
section
/-! DEFINITION. The Base58 unit (42_base58.md R130-R132). The arithmetic is exact on naturals. -/

namespace Sys2Proof.Machine

/-- `B58_ALPHABET[k]` (R130). -/
def b58Symbol (c : Config) (k : Nat) : Byte := c.b58Alphabet.getD k 0

/-- `b58idx(c)` (R130). -/
def b58idx (c : Config) (x : Byte) : Option Nat := c.b58Alphabet.idxOf? x

/-- How many leading elements equal `x`. -/
def leadingCount {α : Type} [DecidableEq α] (x : α) : List α → Nat
  | [] => 0
  | y :: rest => if y = x then leadingCount x rest + 1 else 0

/-- The text of R131: a `'1'` for each leading zero byte, then the base-58 digits of the rest. -/
def b58Text (c : Config) (b : List Byte) : List Byte :=
  let z := leadingCount 0 b
  List.replicate z 0x31 ++ ((Nat.digits 58 (beNat (b.drop z))).reverse.map (b58Symbol c))

/-- `N` of R132 from the digits after the `'1'` run. -/
def b58Value (digits : List Nat) : Nat := digits.foldl (fun n d => 58 * n + d) 0

/-- `r` of R132: the minimal big-endian bytes of a number, none for 0. -/
def minimalBytes (n : Nat) : List Byte := (Nat.digits 256 n).reverse.map (BitVec.ofNat 8)

def b58encBody (s : State) : Except Stop State := do
  let b ← readInseq s
  emit (b58Text s.cfg b) s

def b58decBody (s : State) : Except Stop State := do
  needIn s
  let cells := inCells s 0 s.inLen.toNat
  let z := leadingCount (some 0x31) cells
  let t ← scanCells (refuse (fun x => (b58idx s.cfg x).isNone) .badChar) (cells.drop z)
  let v ← orRaise (indicesOf (b58idx s.cfg) t) .badChar
  emit (List.replicate z 0 ++ minimalBytes (b58Value v)) s

/-- B58ENC (R131). -/
def execB58enc (s : State) : Host.Outcome State Fault Refusal := runCommand .b58enc s (b58encBody s)

/-- B58DEC (R132). -/
def execB58dec (s : State) : Host.Outcome State Fault Refusal := runCommand .b58dec s (b58decBody s)

end Sys2Proof.Machine
end

