-- ==== Sys2Proof/Machine/Base64.lean ====
section
/-! DEFINITION. The Base64 unit (43_base64.md R140-R143). -/

namespace Sys2Proof.Machine

/-- `STD64` (R140). -/
def std64 : List Byte := asciiBytes "ABCDEFGHIJKLMNOPQRSTUVWXYZabcdefghijklmnopqrstuvwxyz0123456789+/"

/-- `STD64[v]`. -/
def b64Symbol (v : BitVec 6) : Byte := std64.getD v.toNat 0

/-- `b64idx(c)` (R140). -/
def b64idx (c : Byte) : Option Nat := std64.idxOf? c

/-- The four characters of one group of three bytes (R141). -/
def b64Group (x0 x1 x2 : Byte) : List Byte :=
  let w : BitVec 24 := x0 ++ x1 ++ x2
  [b64Symbol (w.extractLsb' 18 6), b64Symbol (w.extractLsb' 12 6), b64Symbol (w.extractLsb' 6 6),
    b64Symbol (w.extractLsb' 0 6)]

/-- The text of R141: missing bytes of the last group are 0, and it has one character more than real bytes. -/
def b64Text : List Byte → List Byte
  | [] => []
  | [x0] => (b64Group x0 0 0).take 2
  | [x0, x1] => (b64Group x0 x1 0).take 3
  | x0 :: x1 :: x2 :: rest => b64Group x0 x1 x2 ++ b64Text rest

/-- `+` to `-` and `/` to `_` (R142). -/
def toUrlSafe (c : Byte) : Byte := if c = 0x2B then 0x2D else if c = 0x2F then 0x5F else c

/-- `-` to `+` and `_` to `/` (R143). -/
def fromUrlSafe (c : Byte) : Byte := if c = 0x2D then 0x2B else if c = 0x5F then 0x2F else c

/-- Every trailing `=` removed (R142). -/
def dropTrailingPad (t : List Byte) : List Byte := (t.reverse.dropWhile (fun c => c == 0x3D)).reverse

/-- The three bytes of a group of four values (R143). -/
def b64Bytes3 (v0 v1 v2 v3 : Nat) : List Byte :=
  let a := BitVec.ofNat 8 v0
  let b := BitVec.ofNat 8 v1
  let c := BitVec.ofNat 8 v2
  let d := BitVec.ofNat 8 v3
  [(a <<< 2) ||| (b >>> 4), ((b &&& 0xF) <<< 4) ||| (c >>> 2), ((c &&& 0x3) <<< 6) ||| d]

/-- The bytes of R143: absent values are 0; a final group of k values gives 1, 1 or 2 bytes for k = 1, 2 or 3. -/
def b64Bytes : List Nat → List Byte
  | [] => []
  | [v0] => (b64Bytes3 v0 0 0 0).take 1
  | [v0, v1] => (b64Bytes3 v0 v1 0 0).take 1
  | [v0, v1, v2] => (b64Bytes3 v0 v1 v2 0).take 2
  | v0 :: v1 :: v2 :: v3 :: rest => b64Bytes3 v0 v1 v2 v3 ++ b64Bytes rest

def b64encBody (s : State) : Except Stop State := do
  let b ← readInseq s
  emit (b64Text b) s

def b64uencBody (s : State) : Except Stop State := do
  let b ← readInseq s
  emit (dropTrailingPad ((b64Text b).map toUrlSafe)) s

def b64decBody (s : State) : Except Stop State := do
  let t0 ← readInseq s
  let t := (t0.filter (fun c => c != 0x3D)).map fromUrlSafe
  let v ← orRaise (indicesOf b64idx t) .badChar
  raiseIf (v.length % 4 = 1 ∧ s.cfg.b64Tail1 = .reject) .b64Tail
  emit (b64Bytes v) s

/-- B64ENC (R141). -/
def execB64enc (s : State) : Host.Outcome State Fault Refusal := runCommand .b64enc s (b64encBody s)

/-- B64UENC (R142). -/
def execB64uenc (s : State) : Host.Outcome State Fault Refusal := runCommand .b64uenc s (b64uencBody s)

/-- B64DEC (R143). -/
def execB64dec (s : State) : Host.Outcome State Fault Refusal := runCommand .b64dec s (b64decBody s)

end Sys2Proof.Machine
end

