-- ==== Sys2Proof/Machine/Bech32.lean ====
section
/-! DEFINITION. The Bech32 unit: the checksum calculator, encode and decode, and the 5-bit regrouper (44_bech32.md
R150-R156). -/

namespace Sys2Proof.Machine

/-! ### Checksum -/

/-- The conditional XOR of the generators: bit `i` of the pre-shift accumulator's top five with `BECH32_GEN[i]` (R150). -/
def xorGenerators (gen : List (BitVec 30)) (top : BitVec 30) (c : BitVec 30) : BitVec 30 :=
  (List.range 5).foldl (fun a i => if top.getLsbD i then a ^^^ gen.getD i 0 else a) c

/-- One value into the accumulator (R150). -/
def polymodStep (gen : List (BitVec 30)) (c : BitVec 30) (v : Byte) : BitVec 30 :=
  xorGenerators gen (c >>> 25) (((c &&& 0x1FFFFFF) <<< 5) ^^^ v.setWidth 30)

/-- `polymod(vals)` (R150). -/
def polymod (c : Config) (vals : List Byte) : BitVec 30 := vals.foldl (polymodStep c.bech32Gen) c.bech32Init

/-- `hrpExpand(h)` (R151). -/
def hrpExpand (h : List Byte) : List Byte := (h.map fun x : Byte => x >>> (5 : Nat)) ++ [(0 : Byte)] ++ (h.map fun x : Byte => x &&& 31)

/-- `createChecksum(h, d)` (R152). -/
def createChecksum (c : Config) (h d : List Byte) : List Byte :=
  let m := polymod c (hrpExpand (lower h) ++ d ++ List.replicate 6 0) ^^^ 1
  [25, 20, 15, 10, 5, 0].map fun k => (m.extractLsb' k 5).setWidth 8

/-- `verify(h, v)` (R152). -/
def verifyChecksum (c : Config) (h v : List Byte) : Bool := polymod c (hrpExpand (lower h) ++ v) == 1

/-! ### Alphabet and prefix -/

/-- `CHARSET` (R152). -/
def charset : List Byte := asciiBytes "qpzry9x8gf2tvdw0s3jn54khce6mua7l"

/-- `CHARSET[v]` -/
def b32Symbol (v : Byte) : Byte := charset.getD v.toNat 0

/-- `b32idx(c)` (R152). -/
def b32idx (c : Byte) : Option Nat := charset.idxOf? c

/-- A byte no prefix may hold: outside 33..126, or `'1'` (R152). -/
def hrpCharBad (x : Byte) : Bool := x < 33 || x > 126 || x == 0x31

/-- The largest index at which `x` stands (R154). -/
def lastIndexOf (x : Byte) : List Byte → Option Nat
  | [] => none
  | y :: rest =>
    match lastIndexOf x rest with
    | some k => some (k + 1)
    | none => if y = x then some 0 else none

def b32encBody (s : State) : Except Stop State := do
  needIn s
  let hp := s.arg0.toNat
  let len := s.inLen.toNat
  raiseIf (hp > len) .inLength
  raiseIf (¬ (1 ≤ hp ∧ hp ≤ 83)) .hrpLength
  let h ← scanIn s 0 hp hrpCharBad .hrpChar
  let d ← scanIn s hp (len - hp) (fun x => x > 31) .dataValue
  emit (lower h ++ [0x31] ++ d.map b32Symbol ++ (createChecksum s.cfg h d).map b32Symbol) s

def b32decBody (s : State) : Except Stop State := do
  let t ← readInseq s
  let p ← orRaise (lastIndexOf 0x31 t) .noSeparator
  let h := t.take p
  let dp0 := t.drop (p + 1)
  raiseIf (¬ (1 ≤ h.length ∧ h.length ≤ 83)) .hrpLength
  raiseIf (h.any hrpCharBad = true) .hrpChar
  raiseIf (dp0.length < 6) .dataTooShort
  let dp := if s.cfg.bech32DataCase = .fold then lower dp0 else dp0
  let idx ← orRaise (indicesOf b32idx dp) .badChar
  let v := idx.map (BitVec.ofNat 8)
  raiseIf (verifyChecksum s.cfg h v = false) .checksum
  let t' ← emit (lower h ++ v.take (v.length - 6)) s
  pure (t'.setOutSplit (BitVec.ofNat 32 h.length))

/-! ### Regrouping -/

/-- The inner `while` of R155 and R156: groups of `w` bits off the top of the `bits` low bits of `acc`, and the bits left.
The fuel `bits` is enough, since every turn takes `w ≥ 1` bits. -/
def drainGroups (w acc : Nat) : Nat → Nat → List Byte × Nat
  | 0, bits => ([], bits)
  | fuel + 1, bits =>
    if bits ≥ w then
      let rest := drainGroups w acc fuel (bits - w)
      (BitVec.ofNat 8 ((acc >>> (bits - w)) % 2 ^ w) :: rest.1, rest.2)
    else ([], bits)

/-- The outer loop of R155 (`v = 8`, `w = 5`) and R156 (`v = 5`, `w = 8`): the groups, the accumulator and the bits left. -/
def regroup (v w : Nat) : Nat → Nat → List Byte → List Byte × Nat × Nat
  | acc, bits, [] => ([], acc, bits)
  | acc, bits, x :: rest =>
    let acc' := (acc <<< v) ||| x.toNat
    let d := drainGroups w acc' (bits + v) (bits + v)
    let r := regroup v w acc' d.2 rest
    (d.1 ++ r.1, r.2)

def to5Body (s : State) : Except Stop State := do
  let b ← readInseq s
  let (out, acc, bits) := regroup 8 5 0 0 b
  let tail : List Byte := if bits > 0 then [BitVec.ofNat 8 ((acc <<< (5 - bits)) % 32)] else []
  emit (out ++ tail) s

def from5Body (s : State) : Except Stop State := do
  needIn s
  let v ← scanIn s 0 s.inLen.toNat (fun x => x > 31) .dataValue
  let (out, _, bits) := regroup 5 8 0 0 v
  raiseIf (bits ≥ 5) .bad5bitPadding
  emit out s

/-- B32ENC (R153). -/
def execB32enc (s : State) : Host.Outcome State Fault Refusal := runCommand .b32enc s (b32encBody s)

/-- B32DEC (R154). -/
def execB32dec (s : State) : Host.Outcome State Fault Refusal := runCommand .b32dec s (b32decBody s)

/-- TO5 (R155). -/
def execTo5 (s : State) : Host.Outcome State Fault Refusal := runCommand .to5 s (to5Body s)

/-- FROM5 (R156). -/
def execFrom5 (s : State) : Host.Outcome State Fault Refusal := runCommand .from5 s (from5Body s)

end Sys2Proof.Machine
end

