-- ==== Sys2Proof/Machine/ByteBuffer.lean ====
section
/-! DEFINITION. The Byte Buffer unit (45_byte_buffer.md R170-R194). The shared steps (growth, mode check, ReadN, WriteN) are in
Ops. -/

namespace Sys2Proof.Machine

/-! ### Life cycle and cursor -/

def bbnewBody (s : State) : Except Stop State := do
  let n := s.arg0.toNat
  raiseIf (n > s.cfg.bbMaxCap) .capacityExhausted
  pure (s.setBuf { Buffer.empty with cap := BitVec.ofNat 32 n })

def bbcopyBody (s : State) : Except Stop State := do
  needIn s
  raiseIf (s.inLen.toNat > s.cfg.bbMaxCap) .capacityExhausted
  let b ← readIn s 0 s.inLen.toNat
  pure (s.setBuf { Buffer.empty with store := Memory.storePutRun [] 0 b, cap := s.inLen })

def bbsetposBody (s : State) : Except Stop State := do
  let np := s.arg0.toNat
  raiseIf (np > s.buf.cap.toNat) .positionRange
  pure (s.setBuf { s.buf with pos := BitVec.ofNat 32 np })

/-! ### Reads -/

/-- The first index at or after the cursor, counted from it, that holds byte 10 (R185). -/
def findTerminator (b : Buffer) : Option Nat :=
  (List.range (b.cap.toNat - b.pos.toNat)).find? fun j => b.store.storeGet (b.pos.toNat + j) == 10

def bbrdstrBody (s : State) : Except Stop State := do
  let n ← orRaise (findTerminator s.buf) .noTerminator
  let t ← emit (s.buf.store.storeSlice s.buf.pos.toNat n) s
  pure (t.setBuf { t.buf with pos := BitVec.ofNat 32 (s.buf.pos.toNat + n + 1) })

def bbrdbytesBody (s : State) : Except Stop State := do
  let off := s.arg0.toNat
  let n := s.arg1.toNat
  raiseIf (off + n > s.cfg.outCap) .destTooSmall
  let (r, t) ← readN n s
  let newLen := if n > 0 then BitVec.ofNat 32 (max s.outLen.toNat (off + n)) else s.outLen
  pure (t.setOut (s.outWin.insertRun off r) newLen)

/-! ### Writes -/

def bbwrstrBody (s : State) : Except Stop State := do
  checkMode .byte s
  needIn s
  let t1 ← ensureCapacity s.inLen.toNat s
  let b ← readIn s 0 s.inLen.toNat
  let t2 ← writeN [10] (putAtCursor b t1)
  pure (setMode .byte t2)

def bbwrbytesBody (s : State) : Except Stop State := do
  checkMode .byte s
  needIn s
  let off := s.arg0.toNat
  let n := s.arg1.toNat
  raiseIf (off + n > s.inLen.toNat) .sourceRange
  let t ← ensureCapacity n s
  let b ← readIn s off n
  pure (setMode .byte (putAtCursor b t))

/-- Bit `sh` of a byte written with `bit` under the merge policy (R194). -/
def mergeBit (m : BitMerge) (old : Byte) (sh : Nat) (bit : Bool) : Byte :=
  match m, bit with
  | _, true => old ||| ((1 : Byte) <<< sh)
  | .replace, false => old &&& ~~~((1 : Byte) <<< sh)
  | .or, false => old

/-- The loop of R194 from field bit `j` on: bit index `q` is bit `7 - q % 8` of `STORE[q / 8]` (10_state.md R35). -/
def putBits (m : BitMerge) (store : Memory) (q : Nat) : List Bool → Memory
  | [] => store
  | bit :: rest =>
    putBits m (store.storePut (q / 8) (mergeBit m (store.storeGet (q / 8)) (7 - q % 8) bit)) (q + 1) rest

/-- The low `nb` bits of a value, most significant first (R194). -/
def fieldBits (nb : Nat) (v : Nat) : List Bool := (List.range nb).map fun j => v.testBit (nb - 1 - j)

def bbwrbitsBody (s : State) : Except Stop State := do
  checkMode .bit s
  let nb := s.arg0.toNat
  raiseIf (nb < 1 ∨ nb > 32) .bitWidth
  let t ← ensureCapacity ((nb + 7) / 8) s
  let q0 := t.buf.bitpos.toNat
  raiseIf ((q0 + nb + 7) / 8 > t.buf.cap.toNat) .bitOverrun
  pure (setMode .bit (t.setBuf { t.buf with
    store := putBits s.cfg.bbBitMerge t.buf.store q0 (fieldBits nb s.arg1b32.toNat)
    bitpos := BitVec.ofNat 32 (q0 + nb) }))

/-! ### The commands -/

/-- BBNEW (R173). -/
def execBbnew (s : State) : Host.Outcome State Fault Refusal := runCommand .bbnew s (bbnewBody s)

/-- BBCOPY (R174). -/
def execBbcopy (s : State) : Host.Outcome State Fault Refusal := runCommand .bbcopy s (bbcopyBody s)

/-- BBRESET (R175). -/
def execBbreset (s : State) : Host.Outcome State Fault Refusal := runCommand .bbreset s (pure (s.setBuf Buffer.empty))

/-- BBGETPOS (R176). -/
def execBbgetpos (s : State) : Host.Outcome State Fault Refusal :=
  runCommand .bbgetpos s (pure (s.setRes (s.buf.pos.zeroExtend 64)))

/-- BBSETPOS (R177). -/
def execBbsetpos (s : State) : Host.Outcome State Fault Refusal := runCommand .bbsetpos s (bbsetposBody s)

/-- BBTOOUT (R178). -/
def execBbtoout (s : State) : Host.Outcome State Fault Refusal :=
  runCommand .bbtoout s (emit (s.buf.store.storeSlice 0 s.buf.pos.toNat) s)

/-- BBRD8 (R180). -/
def execBbrd8 (s : State) : Host.Outcome State Fault Refusal :=
  runCommand .bbrd8 s (readToRes 1 (fun r => (BitVec.ofNat 8 (beNat r)).signExtend 64) s)

/-- BBRD16 (R181). -/
def execBbrd16 (s : State) : Host.Outcome State Fault Refusal :=
  runCommand .bbrd16 s (readToRes 2 (fun r => (BitVec.ofNat 16 (beNat r)).signExtend 64) s)

/-- BBRDU16 (R182). -/
def execBbrdu16 (s : State) : Host.Outcome State Fault Refusal :=
  runCommand .bbrdu16 s (readToRes 2 (fun r => (BitVec.ofNat 16 (beNat r)).zeroExtend 64) s)

/-- BBRD32 (R183). -/
def execBbrd32 (s : State) : Host.Outcome State Fault Refusal :=
  runCommand .bbrd32 s (readToRes 4 (fun r => (BitVec.ofNat 32 (beNat r)).signExtend 64) s)

/-- BBRD64 (R184). -/
def execBbrd64 (s : State) : Host.Outcome State Fault Refusal :=
  runCommand .bbrd64 s (readToRes 8 (fun r => BitVec.ofNat 64 (beNat r)) s)

/-- BBRDSTR (R185). -/
def execBbrdstr (s : State) : Host.Outcome State Fault Refusal := runCommand .bbrdstr s (bbrdstrBody s)

/-- BBRDBYTES (R186). -/
def execBbrdbytes (s : State) : Host.Outcome State Fault Refusal := runCommand .bbrdbytes s (bbrdbytesBody s)

/-- BBWR8 (R188). -/
def execBbwr8 (s : State) : Host.Outcome State Fault Refusal := runCommand .bbwr8 s (byteWrite [s.arg0b8] s)

/-- BBWR16 (R189). -/
def execBbwr16 (s : State) : Host.Outcome State Fault Refusal := runCommand .bbwr16 s (byteWrite (be16 s.arg0b16) s)

/-- BBWR32 (R190). -/
def execBbwr32 (s : State) : Host.Outcome State Fault Refusal := runCommand .bbwr32 s (byteWrite (be32 s.arg0b32) s)

/-- BBWR64 (R191). -/
def execBbwr64 (s : State) : Host.Outcome State Fault Refusal := runCommand .bbwr64 s (byteWrite (be64 s.arg0) s)

/-- BBWRSTR (R192). -/
def execBbwrstr (s : State) : Host.Outcome State Fault Refusal := runCommand .bbwrstr s (bbwrstrBody s)

/-- BBWRBYTES (R193). -/
def execBbwrbytes (s : State) : Host.Outcome State Fault Refusal := runCommand .bbwrbytes s (bbwrbytesBody s)

/-- BBWRBITS (R194). -/
def execBbwrbits (s : State) : Host.Outcome State Fault Refusal := runCommand .bbwrbits s (bbwrbitsBody s)

end Sys2Proof.Machine
end

