-- ==== Sys2Proof/Machine/HexIntPad.lean ====
section
/-! DEFINITION. The Integer / Hex / Padding unit (41_hex_int_pad.md R100-R108). -/

namespace Sys2Proof.Machine

/-- `HEXDIG` (41_hex_int_pad.md, preamble). -/
def hexDigits : List Byte := asciiBytes "0123456789abcdef"

/-- `hexval(c)`: the index of `c` in `HEXDIG`, if it is there. -/
def hexval (c : Byte) : Option Nat := hexDigits.idxOf? c

/-- The two digits of one byte (R100). -/
def hexPair (x : Byte) : List Byte := [hexDigits.getD (x.toNat / 16) 0, hexDigits.getD (x.toNat % 16) 0]

/-- The text of R100. -/
def hexText (b : List Byte) : List Byte := b.flatMap hexPair

/-- The one optional prefix removed (R101). -/
def stripHexPrefix (u : HexUpper) (t : List Byte) : List Byte :=
  match t with
  | c0 :: c1 :: rest => if c0 = 0x30 ∧ (c1 = 0x78 ∨ (u = .accept ∧ c1 = 0x58)) then rest else t
  | _ => t

/-- `16·hexval(s[2j]) + hexval(s[2j+1])` for each j (R101), from the digit values. -/
def hexBytes : List Nat → List Byte
  | hi :: lo :: rest => BitVec.ofNat 8 (16 * hi + lo) :: hexBytes rest
  | _ => []

def hexencBody (s : State) : Except Stop State := do
  let b ← readInseq s
  emit (hexText b) s

def hexdecBody (s : State) : Except Stop State := do
  let t0 ← readInseq s
  let t := lower (stripHexPrefix s.cfg.hex0xUpper t0)
  raiseIf (t.length % 2 ≠ 0) .oddLength
  let v ← orRaise (indicesOf hexval t) .badChar
  emit (hexBytes v) s

/-- `p` of R104 and R105: the input padded to `width` bytes, read in the order E asks for. -/
def paddedValue (o : ByteOrder) (p : PadLE) (width : Nat) (b : List Byte) : Nat :=
  let pad := List.replicate (width - b.length) (0 : Byte)
  match o, p with
  | .big, _ => beNat (pad ++ b)
  | .little, .left => leNat (pad ++ b)
  | .little, .msb => leNat (b ++ pad)

def b2iBody (o : ByteOrder) (s : State) : Except Stop State := do
  needIn s
  raiseIf (s.inLen.toNat > 4) .widthOverflow
  let b ← readIn s 0 s.inLen.toNat
  pure (s.setRes ((BitVec.ofNat 32 (paddedValue o s.cfg.intPadLE 4 b)).signExtend 64))

def b2lBody (o : ByteOrder) (s : State) : Except Stop State := do
  needIn s
  raiseIf (s.inLen.toNat > 8) .widthOverflow
  let b ← readIn s 0 s.inLen.toNat
  pure (s.setRes (BitVec.ofNat 64 (paddedValue o s.cfg.intPadLE 8 b)))

def padpBody (s : State) : Except Stop State := do
  needIn s
  let bs := s.arg0.toNat
  raiseIf (bs < 1 ∨ bs > 255) .badBlockSize
  let b ← readIn s 0 s.inLen.toNat
  let p := bs - b.length % bs
  emit (b ++ List.replicate p (BitVec.ofNat 8 p)) s

def unpadpBody (s : State) : Except Stop State := do
  needIn s
  let len := s.inLen.toNat
  raiseIf (len = 0) .emptyInput
  let last ← readInByte s (len - 1)
  let n := last.toNat
  raiseIf (n = 0 ∨ n > len) .badPadding
  let _ ← scanIn s (len - n) n (fun x => x != last) .badPadding
  let b ← readIn s 0 (len - n)
  emit b s

def asciiBody (s : State) : Except Stop State := do
  needIn s
  let b ← scanIn s 0 s.inLen.toNat (fun x => x > 127) .notAscii
  emit b s

/-- HEXENC (R100). -/
def execHexenc (s : State) : Host.Outcome State Fault Refusal := runCommand .hexenc s (hexencBody s)

/-- HEXDEC (R101). -/
def execHexdec (s : State) : Host.Outcome State Fault Refusal := runCommand .hexdec s (hexdecBody s)

/-- I2B (R102). -/
def execI2b (o : ByteOrder) (s : State) : Host.Outcome State Fault Refusal :=
  runCommand (.i2b o) s (emit (inOrder o (be32 s.arg0b32)) s)

/-- L2B (R103). -/
def execL2b (o : ByteOrder) (s : State) : Host.Outcome State Fault Refusal :=
  runCommand (.l2b o) s (emit (inOrder o (be64 s.arg0)) s)

/-- B2I (R104). -/
def execB2i (o : ByteOrder) (s : State) : Host.Outcome State Fault Refusal := runCommand (.b2i o) s (b2iBody o s)

/-- B2L (R105). -/
def execB2l (o : ByteOrder) (s : State) : Host.Outcome State Fault Refusal := runCommand (.b2l o) s (b2lBody o s)

/-- PADP (R106). -/
def execPadp (s : State) : Host.Outcome State Fault Refusal := runCommand .padp s (padpBody s)

/-- UNPADP (R107). -/
def execUnpadp (s : State) : Host.Outcome State Fault Refusal := runCommand .unpadp s (unpadpBody s)

/-- ASCII (R108). -/
def execAscii (s : State) : Host.Outcome State Fault Refusal := runCommand .ascii s (asciiBody s)

end Sys2Proof.Machine
end

