-- ==== Sys2Proof/Machine/Dispatch.lean ====
section
/-! DEFINITION. One arm per command of 30_encoding.md R75. -/

namespace Sys2Proof.Machine

/-- Performs command `i` in state `s` (00_scope.md R5): one atomic transition. -/
def exec (i : Instr) (s : State) : Host.Outcome State Fault Refusal :=
  match i with
  | .hexenc => Sys2Proof.Machine.execHexenc s
  | .hexdec => Sys2Proof.Machine.execHexdec s
  | .i2b o => Sys2Proof.Machine.execI2b o s
  | .l2b o => Sys2Proof.Machine.execL2b o s
  | .b2i o => Sys2Proof.Machine.execB2i o s
  | .b2l o => Sys2Proof.Machine.execB2l o s
  | .padp => Sys2Proof.Machine.execPadp s
  | .unpadp => Sys2Proof.Machine.execUnpadp s
  | .ascii => Sys2Proof.Machine.execAscii s
  | .b58enc => Sys2Proof.Machine.execB58enc s
  | .b58dec => Sys2Proof.Machine.execB58dec s
  | .b64enc => Sys2Proof.Machine.execB64enc s
  | .b64uenc => Sys2Proof.Machine.execB64uenc s
  | .b64dec => Sys2Proof.Machine.execB64dec s
  | .b32enc => Sys2Proof.Machine.execB32enc s
  | .b32dec => Sys2Proof.Machine.execB32dec s
  | .to5 => Sys2Proof.Machine.execTo5 s
  | .from5 => Sys2Proof.Machine.execFrom5 s
  | .bbnew => Sys2Proof.Machine.execBbnew s
  | .bbcopy => Sys2Proof.Machine.execBbcopy s
  | .bbreset => Sys2Proof.Machine.execBbreset s
  | .bbgetpos => Sys2Proof.Machine.execBbgetpos s
  | .bbsetpos => Sys2Proof.Machine.execBbsetpos s
  | .bbtoout => Sys2Proof.Machine.execBbtoout s
  | .bbrd8 => Sys2Proof.Machine.execBbrd8 s
  | .bbrd16 => Sys2Proof.Machine.execBbrd16 s
  | .bbrdu16 => Sys2Proof.Machine.execBbrdu16 s
  | .bbrd32 => Sys2Proof.Machine.execBbrd32 s
  | .bbrd64 => Sys2Proof.Machine.execBbrd64 s
  | .bbrdstr => Sys2Proof.Machine.execBbrdstr s
  | .bbrdbytes => Sys2Proof.Machine.execBbrdbytes s
  | .bbwr8 => Sys2Proof.Machine.execBbwr8 s
  | .bbwr16 => Sys2Proof.Machine.execBbwr16 s
  | .bbwr32 => Sys2Proof.Machine.execBbwr32 s
  | .bbwr64 => Sys2Proof.Machine.execBbwr64 s
  | .bbwrstr => Sys2Proof.Machine.execBbwrstr s
  | .bbwrbytes => Sys2Proof.Machine.execBbwrbytes s
  | .bbwrbits => Sys2Proof.Machine.execBbwrbits s

end Sys2Proof.Machine
end

