-- ==== Sys2Proof/Machine/Step.lean ====
section
/-! DEFINITION. One step: the next host access is performed (00_scope.md R5, 20_memory.md R62). -/

namespace Sys2Proof.Machine

/-- Performs the command whose word CMD holds: the prologue of 60_exceptions.md R222, then the command. -/
def performCommand (s : State) : Host.Outcome State Fault Refusal :=
  match decode s.cmd with
  | .ok i => exec i s
  | .error e => .next (failCommand (wordOp s.cmd) (causeOfDecodeError e) s)

/-- Performs one host read of `n` bytes. -/
def performRead (addr n : Nat) (s : State) : Host.Outcome State Fault Refusal :=
  match offsetOf s.cfg addr with
  | none => .fault (.outsideAddressSpace addr)
  | some off =>
    match target s.cfg off n with
    | none => .refused (.outsideContract addr n)
    | some t => .next (readTarget t s)

/-- Performs one host write of `n` bytes; a write of CMD performs a command (10_state.md R28). -/
def performWrite (addr n : Nat) (v : DWord) (s : State) : Host.Outcome State Fault Refusal :=
  match offsetOf s.cfg addr with
  | none => .fault (.outsideAddressSpace addr)
  | some off =>
    match target s.cfg off n with
    | none => .refused (.outsideContract addr n)
    | some t => if t = .reg .cmd then performCommand (writeTarget t v s) else .next (writeTarget t v s)

/-- Performs one access. -/
def performAccess (a : Access) (s : State) : Host.Outcome State Fault Refusal :=
  match a with
  | .read addr n => performRead addr n s
  | .write addr n v => performWrite addr n v s
  | .reset => .next (platformReset s)

/-- One step: the oldest pending host access; with none pending KEC holds its state (60_exceptions.md R232). -/
def step (s : State) : Host.Outcome State Fault Refusal :=
  match s.bus with
  | [] => .next s
  | a :: rest => performAccess a (s.setBus rest)

/-- `s` where the next host access is the write of the command word `w` to CMD. KEC fetches nothing (20_memory.md R65): a
command word comes with the bus write that carries it (log entry 1). -/
def State.withFetchWord (s : State) (_nbits w : Nat) : State :=
  s.setBus (.write (s.cfg.kecBase + cmdOffset) 4 (BitVec.ofNat 64 w) :: s.bus)

end Sys2Proof.Machine
end

