-- ==== Sys2Proof/Machine/HostOps.lean ====
section
/-! DEFINITION. The host actions of the assembler (30_encoding.md R77, R78) as lists of bus accesses. The control flow of a
host program (BERR, BOK and their labels) is the host's (R79); its condition is here. -/

namespace Sys2Proof.Machine

/-- `MemWrite(off, n, v)` of the build `c`. -/
def memWrite (c : Config) (off n : Nat) (v : DWord) : Access := .write (c.kecBase + off) n v

/-- `MemRead(off, n)` of the build `c`. -/
def memRead (c : Config) (off n : Nat) : Access := .read (c.kecBase + off) n

/-- A command line: `MemWrite(0x000, 4, OP | E<<8)` (R77). -/
def asmCommand (c : Config) (i : Instr) : List Access := [memWrite c 0x000 4 ((encode i).setWidth 64)]

/-- The byte writes of LDIN from index `k` on. -/
def asmBytes (c : Config) : Nat → List Byte → List Access
  | _, [] => []
  | k, b :: bs => memWrite c (0x10000 + k) 1 (b.setWidth 64) :: asmBytes c (k + 1) bs

/-- `LDIN [b0, ..., bn-1]` (R78). -/
def asmLdin (c : Config) (b : List Byte) : List Access :=
  asmBytes c 0 b ++ [memWrite c 0x008 4 (BitVec.ofNat 64 b.length)]

/-- `LDIN "text"` (R78). -/
def asmLdinText (c : Config) (t : String) : List Access := asmLdin c (asciiBytes t)

/-- `ARG0 v` (R78). -/
def asmArg0 (c : Config) (v : DWord) : List Access := [memWrite c 0x010 8 v]

/-- `ARG1 v` (R78). -/
def asmArg1 (c : Config) (v : DWord) : List Access := [memWrite c 0x018 8 v]

/-- `MNEMONIC a` (R78). -/
def asmCommand1 (c : Config) (i : Instr) (a : DWord) : List Access := asmArg0 c a ++ asmCommand c i

/-- `MNEMONIC a, b` (R78). -/
def asmCommand2 (c : Config) (i : Instr) (a b : DWord) : List Access := asmArg0 c a ++ asmArg1 c b ++ asmCommand c i

/-- `RDOUT`, where the first read gave `n` (R78). -/
def asmRdout (c : Config) (n : Nat) : List Access :=
  memRead c 0x00C 4 :: (List.range n).map fun k => memRead c (0x20000 + k) 1

/-- `RDRES` (R78). -/
def asmRdres (c : Config) : List Access := [memRead c 0x020 8]

/-- `RDSTATUS` (R78). -/
def asmRdstatus (c : Config) : List Access := [memRead c 0x004 4]

/-- `WAIT` (R78): BUSY reads 0 whenever the host can look (70_reset_and_hazards.md R255), so one read ends it. -/
def asmWait (c : Config) : List Access := asmRdstatus c

/-- `COPYOUT`, where the reads gave `b` (R78). -/
def asmCopyout (c : Config) (b : List Byte) : List Access := asmRdout c b.length ++ asmLdin c b

/-- Whether `BERR` jumps, from the STATUS word it read (R78); `BOK` jumps where it does not. -/
def berrTaken (status : Word) : Bool := statusErr status == 1

end Sys2Proof.Machine
end

