-- ==== Sys2Proof/WellFormed.lean ====
section
/-! DEFINITION. The checks on what may be handed to the machine: the fields of a command word (30_encoding.md R71-R73,
written from R75's list of the UNDEFINED opcodes, not from the decoder's map) and the legal values of the build parameters
(00_scope.md R6, R7). Every term of `Instr` is well formed: E exists only on the four constructors that take it. -/

namespace Sys2Proof

/-- R75: the opcodes that are not defined are 0x00, 0x0A-0x0F, 0x12-0x1F, 0x23-0x2F, 0x34-0x3F, 0x46-0x47, 0x4F and
0x57-0xFF. -/
def opcodeDefined (op : Byte) : Bool :=
  !(op == 0x00 || (0x0A ≤ op && op ≤ 0x0F) || (0x12 ≤ op && op ≤ 0x1F) || (0x23 ≤ op && op ≤ 0x2F)
    || (0x34 ≤ op && op ≤ 0x3F) || (0x46 ≤ op && op ≤ 0x47) || op == 0x4F || 0x57 ≤ op)

/-- R72: only I2B, L2B, B2I and B2L take `E = 1`. -/
def flagAllowed (op : Byte) : Bool := 0x03 ≤ op && op ≤ 0x06

/-- A command word is well formed: R71, R72 and R73. -/
def CommandFields.wf (f : CommandFields) : Bool :=
  opcodeDefined f.op && (f.e == 0 || flagAllowed f.op) && f.rsv == 0

/-- The word of an instruction is well formed. -/
def Instr.wf (i : Instr) : Bool := (wordFields (encode i)).wf

/-- R7, P4: a Base58 symbol is an ASCII digit or letter other than `0`, `O`, `I` and `l`. -/
def isBase58Symbol (c : Byte) : Bool :=
  ((0x30 ≤ c && c ≤ 0x39) || (0x41 ≤ c && c ≤ 0x5A) || (0x61 ≤ c && c ≤ 0x7A))
    && !(c == 0x30 || c == 0x4F || c == 0x49 || c == 0x6C)

/-- P4 is 58 distinct symbols (hence exactly the set R7 names), index 0 being `'1'`. -/
abbrev Config.AlphabetLegal (c : Config) : Prop :=
  c.b58Alphabet.length = 58 ∧ c.b58Alphabet.Nodup ∧ (∀ x ∈ c.b58Alphabet, isBase58Symbol x = true)
    ∧ c.b58Alphabet.head? = some 0x31

/-- The legal parameter values (R6, R7; R8's policies and P6 are legal by their types). -/
abbrev Config.Legal (c : Config) : Prop :=
  (1 ≤ c.inCap ∧ c.inCap ≤ 65536) ∧ (8 ≤ c.outCap ∧ c.outCap ≤ 65536) ∧ (8 ≤ c.bbMaxCap ∧ c.bbMaxCap ≤ 2 ^ 28)
    ∧ c.AlphabetLegal ∧ c.bech32Gen.length = 5 ∧ c.kecBase % 0x40000 = 0

end Sys2Proof
end

