-- ==== Sys2Proof/Safety.lean ====
section
/-! DEFINITION. What a safe state and a safe run are: the invariants the spec states for the state (10_state.md R29, R33, R36,
R37), legal parameters, canonical memories, and runs that neither fault nor are refused. -/

namespace Sys2Proof.Machine

/-- The (CLASS, CAUSE) pairs of 60_exceptions.md R220, NONE included. -/
def statusPairs : List (BitVec 3 × Byte) :=
  [(0, 0x00)]
    ++ [(1, 0x01), (1, 0x02), (1, 0x03), (1, 0x04), (1, 0x05), (1, 0x06), (1, 0x07), (1, 0x08), (1, 0x09), (1, 0x0A),
      (1, 0x0B), (1, 0x0C)]
    ++ [(3, 0x10)]
    ++ [(2, 0x20), (2, 0x21), (2, 0x22), (2, 0x23), (2, 0x24), (2, 0x25), (2, 0x26), (2, 0x27), (2, 0x28), (2, 0x29),
      (2, 0x2A), (2, 0x2B)]
    ++ [(4, 0x30), (4, 0x31), (4, 0x32)]

/-- STATUS is legal (R29, R220): BUSY and the reserved bits are 0, CLASS and CAUSE are a pair of R220's table, and ERR is 0
exactly when they are NONE. -/
abbrev StatusLegal (w : Word) : Prop :=
  statusBusy w = 0 ∧ w.extractLsb' 5 3 = 0 ∧ w.extractLsb' 24 8 = 0
    ∧ (statusClass w, statusCause w) ∈ statusPairs
    ∧ (statusErr w = 0 ↔ statusClass w = 0) ∧ (statusClass w = 0 ↔ statusCause w = 0)

/-- The Byte Buffer's invariants (R37), and STORE's canonical form. -/
abbrev Buffer.Inv (b : Buffer) (maxCap : Nat) : Prop :=
  b.pos.toNat ≤ b.cap.toNat ∧ b.cap.toNat ≤ maxCap ∧ b.bitpos.toNat ≤ 8 * b.cap.toNat
    ∧ b.store.storeWf b.cap.toNat = true

/-- The invariant of the machine. -/
abbrev State.Inv (s : State) : Prop :=
  s.cfg.Legal ∧ s.inWin.windowWf s.cfg.inCap = true ∧ s.outWin.windowWf s.cfg.outCap = true
    ∧ s.outLen.toNat ≤ s.cfg.outCap ∧ s.buf.Inv s.cfg.bbMaxCap ∧ StatusLegal s.status

/-- The host has written every byte of INSEQ (70_reset_and_hazards.md R251), or IN_LEN is one NeedIn refuses. -/
abbrev State.InputReady (s : State) : Prop :=
  s.inLen.toNat > s.cfg.inCap ∨ ∀ k < s.inLen.toNat, (s.inWin.lookup k).isSome = true

/-- A run of `k` steps is safe: it neither faults nor is refused. -/
def SafeRun (k : Nat) (s : State) : Prop := ∃ t, Sys2Proof.core.run k s = .next t

/-! ### The terms the claims use -/

/-- INSEQ is `b`: IN_LEN is its length, within IN_CAP, and the host has written its bytes (10_state.md R21, R22). -/
abbrev InseqIs (s : State) (b : List Byte) : Prop :=
  s.inLen.toNat = b.length ∧ b.length ≤ s.cfg.inCap ∧ ∀ k < b.length, s.inWin.lookup k = b[k]?

/-- The result in OUT is `b`: OUT_LEN is its length, and OUT holds its bytes (10_state.md R23, R24). -/
abbrev OutIs (t : State) (b : List Byte) : Prop :=
  t.outLen.toNat = b.length ∧ ∀ k < b.length, t.outWin.lookup k = b[k]?

/-- The host has copied the result of `t` into the input of `u`, a state of the same build (COPYOUT, 30_encoding.md R78). -/
abbrev CopiedOut (t u : State) : Prop :=
  u.cfg = t.cfg ∧ u.inLen = t.outLen ∧ t.outLen.toNat ≤ t.cfg.inCap
    ∧ ∀ k < t.outLen.toNat, u.inWin.lookup k = t.outWin.lookup k

/-- STATUS after success: `OP << 16` (60_exceptions.md R223, 95_test_vectors.md section 1). -/
def okWord (op : Nat) : Word := BitVec.ofNat 32 (op * 2 ^ 16)

/-- STATUS after failure: `OP << 16 | CAUSE << 8 | CLASS << 2 | 2` (60_exceptions.md R221, 95_test_vectors.md section 1). -/
def failWord (op cls cause : Nat) : Word := BitVec.ofNat 32 (op * 2 ^ 16 + cause * 2 ^ 8 + cls * 2 ^ 2 + 2)

/-- What no command changes: the build, the input, the operands, CMD, and what belongs to the bus. -/
def SameOperands (s t : State) : Prop :=
  t.cfg = s.cfg ∧ t.inWin = s.inWin ∧ t.inLen = s.inLen ∧ t.arg0 = s.arg0 ∧ t.arg1 = s.arg1 ∧ t.cmd = s.cmd
    ∧ t.bus = s.bus ∧ t.readData = s.readData ∧ t.draws = s.draws ∧ t.epoch = s.epoch

/-- Command `i` of opcode `op` fails in `s` with this class and cause, and changes STATUS only (R221). -/
def Fails (i : Instr) (s : State) (op cls cause : Nat) : Prop :=
  exec i s = .next (s.setStatus (failWord op cls cause))

/-- Command `i` of opcode `op` succeeds in `s`, changes no operand, and leaves a state with `P` (R223). -/
def Completes (i : Instr) (s : State) (op : Nat) (P : State → Prop) : Prop :=
  ∃ t, exec i s = .next t ∧ t.status = okWord op ∧ SameOperands s t ∧ P t

/-- From `s` to `t`, OUT receives `b` from index 0 (00_scope.md R15), OUT_SPLIT becomes `split` and the buffer `buf`; OUT from
index `len(b)` on, and RES, keep their values. -/
def EmitsWith (b : List Byte) (split : Word) (buf : Buffer) (s t : State) : Prop :=
  OutIs t b ∧ (∀ k, b.length ≤ k → t.outWin.lookup k = s.outWin.lookup k)
    ∧ t.outSplit = split ∧ t.buf = buf ∧ t.res = s.res

/-- From `s` to `t`, OUT receives `b` and nothing else changes. -/
def Emits (b : List Byte) (s t : State) : Prop := EmitsWith b s.outSplit s.buf s t

/-- Command `i` fails with OUT_OVERFLOW when `b` is longer than OUT_CAP, and emits `b` otherwise (00_scope.md R15). -/
def Yields (i : Instr) (s : State) (op : Nat) (b : List Byte) : Prop :=
  (s.cfg.outCap < b.length → Fails i s op 2 0x2A) ∧ (b.length ≤ s.cfg.outCap → Completes i s op (Emits b s))

/-- From `s` to `t`, RES becomes `v` and the buffer `buf`; OUT, OUT_LEN and OUT_SPLIT keep their values. -/
def SetsRes (v : DWord) (buf : Buffer) (s t : State) : Prop :=
  t.res = v ∧ t.buf = buf ∧ t.outWin = s.outWin ∧ t.outLen = s.outLen ∧ t.outSplit = s.outSplit

/-- From `s` to `t`, only the Byte Buffer changes. -/
def OnlyBuffer (s t : State) : Prop :=
  t.res = s.res ∧ t.outWin = s.outWin ∧ t.outLen = s.outLen ∧ t.outSplit = s.outSplit

/-- STORE is the bytes `l` (10_state.md R32, R33). -/
def StoreIs (b : Buffer) (l : List Byte) : Prop :=
  b.cap.toNat = l.length ∧ ∀ k < l.length, some (b.store.storeGet k) = l[k]?

/-- Bit `q` of STORE: bit `7 - q % 8` of `STORE[q / 8]` (10_state.md R35). -/
def storeBit (m : Memory) (q : Nat) : Bool := (m.storeGet (q / 8)).getLsbD (7 - q % 8)

/-- The number `BE(b)` (00_scope.md R12). -/
def numberBE (b : List Byte) : Nat := Nat.ofDigits 256 (b.reverse.map BitVec.toNat)

/-- The number `LE(b)` (00_scope.md R12). -/
def numberLE (b : List Byte) : Nat := Nat.ofDigits 256 (b.map BitVec.toNat)

/-- The `w`-bit value `v` read as two's complement and extended to 64 bits (00_scope.md R11). -/
def signed64 (w v : Nat) : DWord := BitVec.ofInt 64 (if v < 2 ^ (w - 1) then (v : Int) else (v : Int) - (2 : Int) ^ w)

/-- The capacity after `ensureCapacity` for bytes that end at `stop` (45_byte_buffer.md R171). -/
def grownCap (maxCap cap stop : Nat) : Nat := if cap < stop then min (max stop (2 * cap)) maxCap else cap

/-- From buffer `b` to `c`: the bytes `l` stand over STORE at the byte cursor, the capacity is `cap`, new bytes are 0, every other
byte is kept, the cursor is past the bytes, and the mode is BYTE if it was NONE (45_byte_buffer.md R171, R172, R187). -/
def BytesWritten (l : List Byte) (cap : Nat) (b c : Buffer) : Prop :=
  c.cap.toNat = cap ∧ c.pos.toNat = b.pos.toNat + l.length ∧ c.bitpos = b.bitpos
    ∧ c.mode = (if b.mode = .none then .byte else b.mode)
    ∧ ∀ k < cap, c.store.storeGet k
        = if b.pos.toNat ≤ k ∧ k < b.pos.toNat + l.length then l.getD (k - b.pos.toNat) 0
          else if k < b.cap.toNat then b.store.storeGet k else 0

/-- `CheckMode(kind)` fails (45_byte_buffer.md R172). -/
abbrev ModeConflict (kind : WriteMode) (s : State) : Prop :=
  s.cfg.bbMixPolicy = .refuse ∧ s.buf.mode ≠ .none ∧ s.buf.mode ≠ kind

end Sys2Proof.Machine
end

