-- ==== Sys2Proof/Certificates/Slice0/Obligations.lean ====
section
/-! DEFINITION. The statements for the provers. Terms of the statements (InseqIs, Fails, Completes, Yields and so on) are in
Sys2Proof/Safety.lean; the reference formulas below are written from the spec's rules, not from the machine's definitions.
A statement about `step` speaks of the host's accesses through `State.bus`, which is the model's way to hold them (log entry 1). -/

namespace Sys2Proof.Claims

open Sys2Proof.Machine

/-- The lower-case hex digit of a value below 16. -/
def hexDigit (d : Nat) : Byte := BitVec.ofNat 8 (if d < 10 then 48 + d else 87 + d)

/-- `c` is a hex digit of either case with value `d`. -/
def IsHexDigit (c : Byte) (d : Nat) : Prop :=
  (d < 10 ∧ c.toNat = 48 + d) ∨ (10 ≤ d ∧ d < 16 ∧ (c.toNat = 87 + d ∨ c.toNat = 55 + d))

/-- The text begins with a prefix that HEXDEC strips (R101). -/
def HasHexPrefix (u : HexUpper) (t : List Byte) : Prop :=
  t[0]? = some 0x30 ∧ (t[1]? = some 0x78 ∨ (u = .accept ∧ t[1]? = some 0x58))

/-- The value of B2I and B2L on a `width`-byte register (R104, R105): a short little-endian input is padded where P12 says. -/
def intValue (o : ByteOrder) (p : PadLE) (width : Nat) (b : List Byte) : Nat :=
  match o, p with
  | .big, _ => numberBE b
  | .little, .left => numberLE b * 256 ^ (width - b.length)
  | .little, .msb => numberLE b

/-- PKCS#7 padding of `b` by its last byte `x` is valid (R107). -/
def ValidPadding (b : List Byte) (x : Byte) : Prop :=
  1 ≤ x.toNat ∧ x.toNat ≤ b.length ∧ ∀ y ∈ b.drop (b.length - x.toNat), y = x

/-- The character of Base64 index `v`, with `c62` and `c63` for the last two (R140). -/
def b64Char (c62 c63 : Byte) (v : Nat) : Byte :=
  if v < 26 then BitVec.ofNat 8 (65 + v) else if v < 52 then BitVec.ofNat 8 (71 + v)
  else if v < 62 then BitVec.ofNat 8 (v - 4) else if v = 62 then c62 else c63

/-- The length of the Base64 text of `n` bytes (R141). -/
def b64TextLength (n : Nat) : Nat := 4 * (n / 3) + (if n % 3 = 0 then 0 else n % 3 + 1)

/-- `t` is the Base64 text of `b` with the last two characters given (R141): character `i` of group `g` spells bits
`23 - 6i` down to `18 - 6i` of the group's 24 bits, a missing byte being 0. -/
def IsB64Text (c62 c63 : Byte) (b t : List Byte) : Prop :=
  t.length = b64TextLength b.length ∧
    ∀ g i, 4 * g + i < t.length → i < 4 →
      t[4 * g + i]? = some (b64Char c62 c63
        (((b.getD (3 * g) 0).toNat * 65536 + (b.getD (3 * g + 1) 0).toNat * 256 + (b.getD (3 * g + 2) 0).toNat)
          / 64 ^ (3 - i) % 64))

/-- `c` is a character of index `v` of either Base64 alphabet (R140, R143). -/
def IsB64Char (c : Byte) (v : Nat) : Prop := v < 64 ∧ (c = b64Char 0x2B 0x2F v ∨ c = b64Char 0x2D 0x5F v)

/-- The number of bytes decoded from `n` Base64 characters (R143). -/
def b64ByteLength (n : Nat) : Nat :=
  3 * (n / 4) + (if n % 4 = 0 then 0 else if n % 4 = 3 then 2 else 1)

/-- `out` is what R143 decodes from the indices `v`: byte `i` of group `g`, an absent index being 0. -/
def IsB64Bytes (v : List Nat) (out : List Byte) : Prop :=
  out.length = b64ByteLength v.length ∧
    ∀ g i, 3 * g + i < out.length → i < 3 →
      out[3 * g + i]? = some (BitVec.ofNat 8
        ((v.getD (4 * g) 0 * 2 ^ 18 + v.getD (4 * g + 1) 0 * 2 ^ 12 + v.getD (4 * g + 2) 0 * 2 ^ 6 + v.getD (4 * g + 3) 0)
          / 256 ^ (2 - i)))

/-- One value into the residue, on naturals (R150). -/
def residueStep (gen : List Nat) (c v : Nat) : Nat :=
  (List.range 5).foldl (fun a i => if (c >>> 25).testBit i then a ^^^ gen.getD i 0 else a)
    (((c &&& 0x1FFFFFF) <<< 5) ^^^ v)

/-- The residue of R150 on naturals. -/
def residue (c : Config) (vals : List Nat) : Nat :=
  vals.foldl (residueStep (c.bech32Gen.map BitVec.toNat)) c.bech32Init.toNat

/-- `hrpExpand(lower(h))` as naturals (R151). -/
def expandedPrefix (h : List Byte) : List Nat :=
  (lower h).map (fun x => x.toNat / 32) ++ [0] ++ (lower h).map (fun x => x.toNat % 32)

/-- The six checksum values of R152, most significant first. -/
def checksumValues (c : Config) (h : List Byte) (d : List Nat) : List Nat :=
  let m := residue c (expandedPrefix h ++ d ++ List.replicate 6 0) ^^^ 1
  [m / 2 ^ 25 % 32, m / 2 ^ 20 % 32, m / 2 ^ 15 % 32, m / 2 ^ 10 % 32, m / 2 ^ 5 % 32, m % 32]

/-- The Bech32 symbol of a 5-bit value (R152). -/
def b32Char (v : Nat) : Byte := (asciiBytes "qpzry9x8gf2tvdw0s3jn54khce6mua7l").getD v 0

/-- A byte that a prefix may hold (R152). -/
def PrefixByte (x : Byte) : Prop := 33 ≤ x.toNat ∧ x.toNat ≤ 126 ∧ x ≠ 0x31

/-- The Bech32 text of a prefix and data (R153). -/
def b32TextOf (c : Config) (h : List Byte) (d : List Nat) : List Byte :=
  lower h ++ [0x31] ++ d.map b32Char ++ (checksumValues c h d).map b32Char

/-- The shape of a fixed-width read (R179, R180-R184): it fails past the capacity, and otherwise RES is a function of the
number the `n` bytes at the cursor spell, big-endian, and the cursor advances. -/
def ReadsFixed (i : Instr) (op n : Nat) (res : Nat → DWord) : Prop :=
  encode i = BitVec.ofNat 32 op ∧ ∀ s : State, s.Inv →
    (s.buf.cap.toNat < s.buf.pos.toNat + n → Fails i s op 2 0x22) ∧
    (s.buf.pos.toNat + n ≤ s.buf.cap.toNat → ∃ p : Word, p.toNat = s.buf.pos.toNat + n ∧
      Completes i s op
        (SetsRes (res (numberBE (s.buf.store.storeSlice s.buf.pos.toNat n))) { s.buf with pos := p } s))

/-- The shape of a fixed-width write (R172, R187, R188-R191): the low `n` bytes of ARG0, most significant first. -/
def WritesFixed (i : Instr) (op n : Nat) : Prop :=
  encode i = BitVec.ofNat 32 op ∧ ∀ s : State, s.Inv → ∀ l : List Byte, l.length = n →
    (∀ j < n, l[j]? = some (BitVec.ofNat 8 (s.arg0.toNat / 256 ^ (n - 1 - j)))) →
    (ModeConflict .byte s → Fails i s op 4 0x32) ∧
    (¬ ModeConflict .byte s →
      (s.cfg.bbMaxCap < s.buf.pos.toNat + n → Fails i s op 2 0x29) ∧
      (s.buf.pos.toNat + n ≤ s.cfg.bbMaxCap → Completes i s op fun t => OnlyBuffer s t ∧
        BytesWritten l (grownCap s.cfg.bbMaxCap s.buf.cap.toNat (s.buf.pos.toNat + n)) s.buf t.buf))

/-- The register block of R51: offset, width in bytes, the value a read returns, whether a write is stored. -/
def registerBlock (s : State) : List (Nat × Nat × DWord) :=
  [ (0x000, 4, s.cmd.setWidth 64), (0x004, 4, s.status.setWidth 64), (0x008, 4, s.inLen.setWidth 64),
    (0x00C, 4, s.outLen.setWidth 64), (0x010, 8, s.arg0), (0x018, 8, s.arg1), (0x020, 8, s.res),
    (0x028, 4, s.outSplit.setWidth 64), (0x02C, 4, s.buf.cap.setWidth 64), (0x030, 4, s.buf.pos.setWidth 64),
    (0x034, 4, s.buf.bitpos.setWidth 64),
    (0x038, 4, match s.buf.mode with | .none => 0 | .byte => 1 | .bit => 2), (0x03C, 4, 0),
    (0x040, 4, BitVec.ofNat 64 s.cfg.inCap), (0x044, 4, BitVec.ofNat 64 s.cfg.outCap),
    (0x048, 4, BitVec.ofNat 64 s.cfg.bbMaxCap),
    (0x04C, 4, BitVec.ofNat 64
      ((if s.cfg.b64Tail1 = .reject then 1 else 0) + (if s.cfg.bbMixPolicy = .independent then 2 else 0)
        + (if s.cfg.bbBitMerge = .or then 4 else 0) + (if s.cfg.bech32DataCase = .fold then 8 else 0)
        + (if s.cfg.hex0xUpper = .accept then 16 else 0) + (if s.cfg.intPadLE = .msb then 32 else 0))) ]

/-- The registers marked "writes ignored", by offset and width (R51). -/
def ignoredRegisters : List (Nat × Nat) :=
  [(0x004, 4), (0x00C, 4), (0x020, 8), (0x028, 4), (0x02C, 4), (0x030, 4), (0x034, 4), (0x038, 4), (0x040, 4), (0x044, 4),
    (0x048, 4), (0x04C, 4)]

/-- Offsets of the register block that hold a register (R51): 0x000-0x03B and 0x040-0x04F. -/
abbrev RegisterOffset (off : Nat) : Prop := off < 0x03C ∨ (0x040 ≤ off ∧ off < 0x050)

/-- A reserved offset (R51-R53). -/
abbrev ReservedOffset (c : Config) (off : Nat) : Prop :=
  off < 0x40000 ∧ ¬ RegisterOffset off ∧ ¬ (0x10000 ≤ off ∧ off < 0x10000 + c.inCap)
    ∧ ¬ (0x20000 ≤ off ∧ off < 0x20000 + c.outCap)

/-- A platform address of an OUT byte at or beyond OUT_LEN (93_implementation_defined.md U2). -/
abbrev ReadsBeyondResult (s : State) (addr : Nat) : Prop :=
  s.cfg.kecBase + 0x20000 + s.outLen.toNat ≤ addr ∧ addr < s.cfg.kecBase + 0x20000 + s.cfg.outCap

/-- The accesses of the host contract (R256), by offset and width. -/
abbrev InContract (c : Config) (off n : Nat) : Prop :=
  (off, n) ∈ [(0x000, 4), (0x004, 4), (0x008, 4), (0x00C, 4), (0x010, 8), (0x018, 8), (0x020, 8), (0x028, 4), (0x02C, 4),
    (0x030, 4), (0x034, 4), (0x038, 4), (0x040, 4), (0x044, 4), (0x048, 4), (0x04C, 4)]
  ∨ (n = 1 ∧ 0x10000 ≤ off ∧ off < 0x10000 + c.inCap)
  ∨ (n = 1 ∧ 0x20000 ≤ off ∧ off < 0x20000 + c.outCap)
  ∨ (ReservedOffset c off ∧ (n = 1 ∨ (n = 4 ∧ off % 4 = 0)))

/-- The commands that emit through OUT (R23, R24). -/
def WritesOut : Instr → Bool
  | .hexenc | .hexdec | .i2b _ | .l2b _ | .padp | .unpadp | .ascii | .b58enc | .b58dec | .b64enc | .b64uenc | .b64dec
  | .b32enc | .b32dec | .to5 | .from5 | .bbtoout | .bbrdstr | .bbrdbytes => true
  | .b2i _ | .b2l _ | .bbnew | .bbcopy | .bbreset | .bbgetpos | .bbsetpos | .bbrd8 | .bbrd16 | .bbrdu16 | .bbrd32 | .bbrd64
  | .bbwr8 | .bbwr16 | .bbwr32 | .bbwr64 | .bbwrstr | .bbwrbytes | .bbwrbits => false

/-- The commands that write RES (R26). -/
def WritesRes : Instr → Bool
  | .b2i _ | .b2l _ | .bbgetpos | .bbrd8 | .bbrd16 | .bbrdu16 | .bbrd32 | .bbrd64 => true
  | .hexenc | .hexdec | .i2b _ | .l2b _ | .padp | .unpadp | .ascii | .b58enc | .b58dec | .b64enc | .b64uenc | .b64dec
  | .b32enc | .b32dec | .to5 | .from5 | .bbtoout | .bbrdstr | .bbrdbytes | .bbnew | .bbcopy | .bbreset | .bbsetpos
  | .bbwr8 | .bbwr16 | .bbwr32 | .bbwr64 | .bbwrstr | .bbwrbytes | .bbwrbits => false

/-- The life-cycle commands that make a new buffer (R170). -/
def MakesBuffer : Instr → Bool
  | .bbnew | .bbcopy | .bbreset => true
  | _ => false

/-- The byte writes (R170). -/
def IsByteWrite : Instr → Bool
  | .bbwr8 | .bbwr16 | .bbwr32 | .bbwr64 | .bbwrstr | .bbwrbytes => true
  | _ => false

/-- The commands that move the byte cursor without writing: the reads and BBSETPOS (R170). -/
def MovesCursor : Instr → Bool
  | .bbrd8 | .bbrd16 | .bbrdu16 | .bbrd32 | .bbrd64 | .bbrdstr | .bbrdbytes | .bbsetpos => true
  | _ => false

end Sys2Proof.Claims

open Sys2Proof Sys2Proof.Machine Sys2Proof.Claims

/-! ### Encoding -/

/-- Every command's word is well formed and decodes to it, E included (30_encoding.md R70-R75). -/
def Obligations.DecodeOfEncode : Prop := ∀ i : Instr, i.wf = true ∧ decode (encode i) = .ok i

/-- A word that decodes is the word of its command, so each command has one word (30_encoding.md R70). -/
def Obligations.EncodeOfDecode : Prop := ∀ (w : Word) (i : Instr), decode w = .ok i → encode i = w

/-- Words written out from the opcode map of 30_encoding.md R75. -/
def Obligations.TableWordsDecode : Prop :=
  decode 0x00000001 = .ok .hexenc ∧ decode 0x00000103 = .ok (.i2b .big) ∧ decode 0x00000006 = .ok (.b2l .little)
    ∧ decode 0x00000011 = .ok .b58dec ∧ decode 0x00000022 = .ok .b64dec ∧ decode 0x00000030 = .ok .b32enc
    ∧ decode 0x0000004E = .ok .bbrdbytes ∧ decode 0x00000056 = .ok .bbwrbits

/-- R71, R73, R76: a written word that is no command fails with class ILLEGAL; ILLEGAL_OPCODE comes before RESERVED_FIELD
(60_exceptions.md R222); only STATUS and CMD change. -/
def Obligations.IllegalWordsFail : Prop :=
  ∀ (s : State) (v : DWord) (rest : List Access), s.bus = .write s.cfg.kecBase 4 v :: rest →
    let w : Word := v.setWidth 32
    let op := w.toNat % 256
    (opcodeDefined (wordOp w) = false →
      step s = .next (((s.setBus rest).setCmd w).setStatus (failWord op 4 0x30))) ∧
    (opcodeDefined (wordOp w) = true → (512 ≤ w.toNat ∨ (256 ≤ w.toNat ∧ flagAllowed (wordOp w) = false)) →
      step s = .next (((s.setBus rest).setCmd w).setStatus (failWord op 4 0x31))) ∧
    (opcodeDefined (wordOp w) = true → w.toNat < 512 → (w.toNat < 256 ∨ flagAllowed (wordOp w) = true) →
      ∃ i, decode w = .ok i)

/-! ### The step and the host bus -/

/-- A write of a command word to CMD performs that command, on the state with the word in CMD and the access done. -/
def Obligations.StepRunsDecodedCommand : Prop :=
  ∀ (s : State) (v : DWord) (rest : List Access) (i : Instr), s.bus = .write s.cfg.kecBase 4 v :: rest →
    decode (v.setWidth 32) = .ok i → step s = exec i ((s.setBus rest).setCmd (v.setWidth 32))

/-- R28: a write leaves CMD holding the word whatever it is, a read returns it, no command writes CMD, and reset clears it. -/
def Obligations.CmdHoldsLastWord : Prop :=
  (∀ (s t : State) (v : DWord) (rest : List Access), s.bus = .write s.cfg.kecBase 4 v :: rest → step s = .next t →
    t.cmd = v.setWidth 32) ∧
  (∀ (s : State) (v : DWord) (rest : List Access) (i : Instr), s.bus = .write s.cfg.kecBase 4 v :: rest →
    decode (v.setWidth 32) = .ok i → step s = exec i ((s.setBus rest).setCmd (v.setWidth 32))) ∧
  (∀ (s : State) (rest : List Access), s.bus = .read s.cfg.kecBase 4 :: rest →
    step s = .next ((s.setBus rest).returnRead (s.cmd.setWidth 64))) ∧
  (∀ (i : Instr) (s t : State), exec i s = .next t → t.cmd = s.cmd) ∧
  State.reset.cmd = 0

/-- R62 and R232: a step performs the oldest access, the rest of the queue waits, and with none pending KEC holds its state. That the pending accesses stand in a field of the state is the model's choice (log entry 1). -/
def Obligations.AccessesRunInOrder : Prop :=
  (∀ s : State, s.bus = [] → step s = .next s) ∧
  (∀ (s : State) (a : Access) (rest : List Access), s.bus = a :: rest →
    step s = performAccess a (s.setBus rest) ∧ ∀ t, step s = .next t → t.bus = rest)

/-- R58: a host read changes no register and no window, and the same read again returns the same value, but for a read of OUT
from OUT_LEN on, which is a draw each time (93_implementation_defined.md U2; log entry 5); a host write other than CMD's only
stores a value in IN, IN_LEN, ARG0 or ARG1. -/
def Obligations.HostReadsHaveNoSideEffects : Prop :=
  (∀ (s t : State) (addr n : Nat) (rest : List Access), s.bus = .read addr n :: rest → step s = .next t →
    t = { s with bus := rest, readData := t.readData, draws := t.draws }) ∧
  (∀ (s t : State) (addr n : Nat) (rest : List Access), s.bus = .read addr n :: .read addr n :: rest → step s = .next t →
    ¬ ReadsBeyondResult s addr → step t = .next (t.setBus rest)) ∧
  (∀ (s t : State) (addr n : Nat) (v : DWord) (rest : List Access), s.bus = .write addr n v :: rest → addr ≠ s.cfg.kecBase →
    step s = .next t →
    t = { s with bus := rest, inWin := t.inWin, inLen := t.inLen, arg0 := t.arg0, arg1 := t.arg1 })

/-- R51, the reads: every register is read whole at its own offset, and nothing but the returned value changes (R58). -/
def Obligations.RegisterReadsReturnState : Prop :=
  ∀ (s : State) (off n : Nat) (v : DWord) (rest : List Access), (off, n, v) ∈ registerBlock s →
    s.bus = .read (s.cfg.kecBase + off) n :: rest → step s = .next ((s.setBus rest).returnRead v)

/-- R51, the writes other than CMD's: IN_LEN, ARG0 and ARG1 take the value, and nothing else changes. -/
def Obligations.RegisterWritesStore : Prop :=
  ∀ (s : State) (v : DWord) (rest : List Access),
    (s.bus = .write (s.cfg.kecBase + 0x008) 4 v :: rest → step s = .next ((s.setBus rest).setInLen (v.setWidth 32))) ∧
    (s.bus = .write (s.cfg.kecBase + 0x010) 8 v :: rest → step s = .next ((s.setBus rest).setArg0 v)) ∧
    (s.bus = .write (s.cfg.kecBase + 0x018) 8 v :: rest → step s = .next ((s.setBus rest).setArg1 v))

/-- R54: a reserved offset reads 0; a write to it, or to a register marked "writes ignored" (R51), changes no state; none of them
writes STATUS. -/
def Obligations.ReservedOffsetsReadZero : Prop :=
  (∀ (s : State) (off n : Nat) (v : DWord) (rest : List Access), ReservedOffset s.cfg off →
    (n = 1 ∨ (n = 4 ∧ off % 4 = 0)) →
    (s.bus = .read (s.cfg.kecBase + off) n :: rest → step s = .next ((s.setBus rest).returnRead 0)) ∧
    (s.bus = .write (s.cfg.kecBase + off) n v :: rest → step s = .next (s.setBus rest))) ∧
  (∀ (s : State) (v : DWord) (rest : List Access), ∀ p ∈ ignoredRegisters,
    s.bus = .write (s.cfg.kecBase + p.1) p.2 v :: rest → step s = .next (s.setBus rest))

/-- R52: a host write of a byte to the IN window sets that byte of IN and nothing else, and a host read returns the byte that
stands there. (A byte not written since reset reads as a free value of its own, the model's choice: log entry 16.) -/
def Obligations.InWindowReadAfterWrite : Prop :=
  ∀ (s : State) (k : Nat) (v : DWord) (rest : List Access), s.cfg.Legal → k < s.cfg.inCap →
    (s.bus = .write (s.cfg.kecBase + (0x10000 + k)) 1 v :: rest →
      ∃ m : Memory, step s = .next ((s.setBus rest).setInWin m) ∧ m.lookup k = some (v.setWidth 8)
        ∧ ∀ j, j ≠ k → m.lookup j = s.inWin.lookup j) ∧
    (s.bus = .read (s.cfg.kecBase + (0x10000 + k)) 1 :: rest →
      ∃ b : Byte, step s = .next ((s.setBus rest).returnRead (b.setWidth 64)) ∧ ∀ c, s.inWin.lookup k = some c → b = c)

/-- R53: a host read of a byte of the OUT window below OUT_LEN returns what a command wrote there (in a gap never written, a free
value of its own: log entry 16), and beyond OUT_LEN completes with some byte, a draw (log entry 5); host writes are ignored. -/
def Obligations.OutWindowReads : Prop :=
  ∀ (s : State) (k : Nat) (v : DWord) (rest : List Access), s.cfg.Legal → k < s.cfg.outCap →
    (s.bus = .write (s.cfg.kecBase + (0x20000 + k)) 1 v :: rest → step s = .next (s.setBus rest)) ∧
    (s.bus = .read (s.cfg.kecBase + (0x20000 + k)) 1 :: rest →
      (k < s.outLen.toNat → ∃ b : Byte, step s = .next ((s.setBus rest).returnRead (b.setWidth 64)) ∧
        ∀ c, s.outWin.lookup k = some c → b = c) ∧
      (s.outLen.toNat ≤ k →
        ∃ b : Byte, step s = .next { (s.setBus rest).returnRead (b.setWidth 64) with draws := s.draws + 1 }))

/-- R256: the accesses of the contract are performed and never refused; an access of any other shape within KEC's block is
refused. -/
def Obligations.AccessContract : Prop :=
  ∀ (s : State) (off n : Nat) (v : DWord) (rest : List Access), s.cfg.Legal → off < 0x40000 →
    (¬ InContract s.cfg off n →
      (s.bus = .read (s.cfg.kecBase + off) n :: rest → step s = .refused (.outsideContract (s.cfg.kecBase + off) n)) ∧
      (s.bus = .write (s.cfg.kecBase + off) n v :: rest → step s = .refused (.outsideContract (s.cfg.kecBase + off) n))) ∧
    (InContract s.cfg off n →
      (s.bus = .read (s.cfg.kecBase + off) n :: rest → ∃ t, step s = .next t) ∧
      (s.bus = .write (s.cfg.kecBase + off) n v :: rest → ∀ r, step s ≠ .refused r))

/-- The assembler's LDIN loads the input (30_encoding.md R78): its accesses run to a state whose INSEQ is the bytes, and
change nothing but IN and IN_LEN. -/
def Obligations.LdinLoadsInput : Prop :=
  ∀ (s : State) (b : List Byte) (rest : List Access), s.cfg.Legal → b.length ≤ s.cfg.inCap →
    s.bus = asmLdin s.cfg b ++ rest →
    ∃ t, Sys2Proof.core.run (b.length + 1) s = .next t ∧ InseqIs t b ∧ t.bus = rest
      ∧ (∀ k, b.length ≤ k → t.inWin.lookup k = s.inWin.lookup k)
      ∧ t = { s with bus := rest, inWin := t.inWin, inLen := t.inLen }

/-! ### Reset and the invariant -/

/-- R250: what reset leaves, for every build, whether at power-on or asserted later. (The build of State.reset itself and what
stays on the bus side are the model's choices: log entries 1 and 2.) -/
def Obligations.ResetValues : Prop :=
  (∀ (c : Config) (s : State), (s = State.resetOf c ∨ ∃ u, u.cfg = c ∧ s = platformReset u) →
    s.cfg = c ∧ (∀ k, s.inWin.lookup k = none) ∧ (∀ k, s.outWin.lookup k = none) ∧ s.inLen = 0 ∧ s.outLen = 0 ∧ s.arg0 = 0
      ∧ s.arg1 = 0 ∧ s.res = 0 ∧ s.outSplit = 0 ∧ s.cmd = 0 ∧ s.status = 0 ∧ StoreIs s.buf [] ∧ s.buf.pos = 0
      ∧ s.buf.bitpos = 0 ∧ s.buf.mode = .none ∧ s.buf.Inv c.bbMaxCap) ∧
  (∀ (s : State) (rest : List Access), s.bus = .reset :: rest → step s = .next (platformReset (s.setBus rest)))

/-- The invariant holds at reset (with the build values of log entry 2). -/
def Obligations.InvariantAtReset : Prop := State.reset.Inv

/-- Every step keeps the invariant: the parameters stay legal, the memories canonical, `BB_POS ≤ BB_CAP ≤ BB_MAX_CAP`,
`BB_BITPOS ≤ 8·BB_CAP`, STORE within BB_CAP, `OUT_LEN ≤ OUT_CAP`, and STATUS legal (10_state.md R29, R37). -/
def Obligations.StepKeepsInvariant : Prop := ∀ s t : State, s.Inv → step s = .next t → t.Inv

/-! ### Whole-machine rules about commands -/

/-- No command is refused; the only fault is the read of an unwritten IN byte (93_implementation_defined.md U1), and where the
host has written INSEQ every command answers a next state. -/
def Obligations.CommandsAlwaysEnd : Prop :=
  ∀ (i : Instr) (s : State),
    ((∃ t, exec i s = .next t) ∨ exec i s = .fault (.unwrittenInput i)) ∧ (s.InputReady → ∃ t, exec i s = .next t)

/-- U1: a command that reads a byte of IN which the host has not written faults and names itself: the commands that take INSEQ
whole, those that do so after their checks of length, block size, mode, range or growth, and those that scan it where no earlier
byte ends the scan. (When a byte counts as read is log entry 6.) -/
def Obligations.UnwrittenInputFaults : Prop :=
  ∀ (s : State) (k : Nat), s.inLen.toNat ≤ s.cfg.inCap → k < s.inLen.toNat → s.inWin.lookup k = none →
    (∀ i ∈ [Instr.hexenc, .hexdec, .b58enc, .b64enc, .b64uenc, .b64dec, .b32dec, .to5],
      exec i s = .fault (.unwrittenInput i)) ∧
    (∀ o, s.inLen.toNat ≤ 4 → exec (.b2i o) s = .fault (.unwrittenInput (.b2i o))) ∧
    (∀ o, s.inLen.toNat ≤ 8 → exec (.b2l o) s = .fault (.unwrittenInput (.b2l o))) ∧
    (1 ≤ s.arg0.toNat → s.arg0.toNat ≤ 255 → exec .padp s = .fault (.unwrittenInput .padp)) ∧
    (s.inLen.toNat ≤ s.cfg.bbMaxCap → exec .bbcopy s = .fault (.unwrittenInput .bbcopy)) ∧
    ((∀ j < k, ∃ b : Byte, s.inWin.lookup j = some b ∧ b.toNat ≤ 127) →
      exec .ascii s = .fault (.unwrittenInput .ascii)) ∧
    ((∀ j < k, ∃ b : Byte, s.inWin.lookup j = some b ∧ b.toNat ≤ 31) →
      exec .from5 s = .fault (.unwrittenInput .from5)) ∧
    ((∀ j < k, ∃ b : Byte, s.inWin.lookup j = some b ∧ b ∈ s.cfg.b58Alphabet) →
      exec .b58dec s = .fault (.unwrittenInput .b58dec)) ∧
    (k + 1 = s.inLen.toNat → exec .unpadp s = .fault (.unwrittenInput .unpadp)) ∧
    (∀ x : Byte, s.inWin.lookup (s.inLen.toNat - 1) = some x → 1 ≤ x.toNat → x.toNat ≤ s.inLen.toNat →
      (∀ j, s.inLen.toNat - x.toNat ≤ j → j < s.inLen.toNat → (j < k ∨ k < s.inLen.toNat - x.toNat) →
        s.inWin.lookup j = some x) →
      exec .unpadp s = .fault (.unwrittenInput .unpadp)) ∧
    (1 ≤ s.arg0.toNat → s.arg0.toNat ≤ 83 → s.arg0.toNat ≤ s.inLen.toNat →
      (∀ j < k, ∃ b : Byte, s.inWin.lookup j = some b ∧ (j < s.arg0.toNat → PrefixByte b)
        ∧ (s.arg0.toNat ≤ j → b.toNat ≤ 31)) →
      exec .b32enc s = .fault (.unwrittenInput .b32enc)) ∧
    (¬ ModeConflict .byte s → s.buf.pos.toNat + s.inLen.toNat ≤ s.cfg.bbMaxCap →
      exec .bbwrstr s = .fault (.unwrittenInput .bbwrstr)) ∧
    (¬ ModeConflict .byte s → s.arg0.toNat + s.arg1.toNat ≤ s.inLen.toNat →
      s.buf.pos.toNat + s.arg1.toNat ≤ s.cfg.bbMaxCap → s.arg0.toNat ≤ k → k < s.arg0.toNat + s.arg1.toNat →
      exec .bbwrbytes s = .fault (.unwrittenInput .bbwrbytes))

/-- R260 and R25: no command writes IN, IN_LEN, ARG0 or ARG1 (nor CMD, nor the build), and a host write of a byte of IN leaves the
buffer as it is. -/
def Obligations.OperandsPersist : Prop :=
  (∀ (i : Instr) (s t : State), exec i s = .next t → SameOperands s t) ∧
  (∀ (s t : State) (k : Nat) (v : DWord) (rest : List Access), s.cfg.Legal → k < s.cfg.inCap →
    s.bus = .write (s.cfg.kecBase + (0x10000 + k)) 1 v :: rest → step s = .next t → t.buf = s.buf)

/-- R221: a command that fails changes STATUS only, and STATUS is `BUSY 0, ERR 1`, a class and cause of R220, LAST_OP the
opcode, reserved bits 0. The first clause is about decoded commands, the second about every word the host writes to CMD, illegal
words included, and says that CMD holds the word. (Which class and cause each condition gives is in the statements of the
commands.) -/
def Obligations.FailureChangesOnlyStatus : Prop :=
  (∀ (i : Instr) (s t : State), exec i s = .next t → statusErr t.status = 1 →
    t = s.setStatus t.status ∧
      ∃ p ∈ statusPairs, p.1 ≠ 0 ∧ t.status = failWord i.opcode.toNat p.1.toNat p.2.toNat) ∧
  (∀ (s t : State) (v : DWord) (rest : List Access), s.bus = .write s.cfg.kecBase 4 v :: rest → step s = .next t →
    statusErr t.status = 1 → ∃ p ∈ statusPairs, p.1 ≠ 0 ∧
      t = ((s.setBus rest).setCmd (v.setWidth 32)).setStatus (failWord (v.toNat % 256) p.1.toNat p.2.toNat))

/-- R223, STATUS: a command that does not fail leaves `BUSY 0, ERR 0, CLASS 0, CAUSE 0`, LAST_OP the opcode. -/
def Obligations.SuccessStatus : Prop :=
  ∀ (i : Instr) (s t : State), exec i s = .next t → statusErr t.status = 0 → t.status = okWord i.opcode.toNat

/-- R26: only a successful B2I, B2L, BBGETPOS or fixed-width read writes RES; the host cannot; reset clears it. -/
def Obligations.ResWrittenOnlyBySome : Prop :=
  (∀ (i : Instr) (s t : State), exec i s = .next t → (WritesRes i = false ∨ statusErr t.status = 1) → t.res = s.res) ∧
  (∀ (s t : State) (v : DWord) (rest : List Access), s.bus = .write (s.cfg.kecBase + 0x020) 8 v :: rest →
    step s = .next t → t.res = s.res) ∧
  State.reset.res = 0

/-- R27: only a successful B32DEC writes OUT_SPLIT, with the length of the prefix that leads OUT; the host cannot write it;
reset clears it. -/
def Obligations.OutSplitWrittenOnlyByB32dec : Prop :=
  (∀ (i : Instr) (s t : State), exec i s = .next t → (i ≠ .b32dec ∨ statusErr t.status = 1) → t.outSplit = s.outSplit) ∧
  (∀ (s t : State) (h dp : List Byte), s.cfg.Legal → InseqIs s (h ++ 0x31 :: dp) → 0x31 ∉ dp → exec .b32dec s = .next t →
    statusErr t.status = 0 →
    t.outSplit.toNat = h.length ∧ ∀ k x, h[k]? = some x → t.outWin.lookup k = some (lowerByte x)) ∧
  (∀ (s t : State) (v : DWord) (rest : List Access), s.bus = .write (s.cfg.kecBase + 0x028) 4 v :: rest →
    step s = .next t → t.outSplit = s.outSplit) ∧
  State.reset.outSplit = 0

/-- R23, R24: a command that does not emit leaves OUT and OUT_LEN alone. -/
def Obligations.OutWrittenOnlyByEmitters : Prop :=
  ∀ (i : Instr) (s t : State), WritesOut i = false → exec i s = .next t → t.outWin = s.outWin ∧ t.outLen = s.outLen

/-- R33-R36, R195 (d): which commands change which part of the Byte Buffer. -/
def Obligations.BufferFrame : Prop :=
  ∀ (i : Instr) (s t : State), s.Inv → exec i s = .next t → MakesBuffer i = false →
    s.buf.cap.toNat ≤ t.buf.cap.toNat ∧
    (i ≠ .bbwrbits → t.buf.bitpos = s.buf.bitpos) ∧
    (i ≠ .bbwrbits → IsByteWrite i = false →
      t.buf.store = s.buf.store ∧ t.buf.cap = s.buf.cap ∧ t.buf.mode = s.buf.mode) ∧
    (IsByteWrite i = false → MovesCursor i = false → t.buf.pos = s.buf.pos) ∧
    (s.buf.mode ≠ .none → t.buf.mode = s.buf.mode)

/-! ### Integer / Hex / Padding unit -/

/-- R100. -/
def Obligations.HexencWritesDigitPairs : Prop :=
  encode .hexenc = 0x01 ∧ ∀ s : State, s.cfg.Legal →
    (s.cfg.inCap < s.inLen.toNat → Fails .hexenc s 0x01 2 0x2B) ∧
    ∀ b, InseqIs s b → ∃ out : List Byte, out.length = 2 * b.length ∧
      (∀ k x, b[k]? = some x →
        out[2 * k]? = some (hexDigit (x.toNat / 16)) ∧ out[2 * k + 1]? = some (hexDigit (x.toNat % 16))) ∧
      Yields .hexenc s 0x01 out

/-- R101. -/
def Obligations.HexdecReadsDigitPairs : Prop :=
  encode .hexdec = 0x02 ∧ ∀ s : State, s.cfg.Legal →
    (s.cfg.inCap < s.inLen.toNat → Fails .hexdec s 0x02 2 0x2B) ∧
    ∀ t0 t, InseqIs s t0 →
      ((HasHexPrefix s.cfg.hex0xUpper t0 ∧ t = t0.drop 2) ∨ (¬ HasHexPrefix s.cfg.hex0xUpper t0 ∧ t = t0)) →
      (t.length % 2 = 1 → Fails .hexdec s 0x02 1 0x02) ∧
      (t.length % 2 = 0 → (∃ c ∈ t, ∀ d, ¬ IsHexDigit c d) → Fails .hexdec s 0x02 1 0x01) ∧
      (t.length % 2 = 0 → ∀ v : List Nat, List.Forall₂ IsHexDigit t v → ∃ out : List Byte, out.length = t.length / 2 ∧
        (∀ j, j < out.length → out[j]? = some (BitVec.ofNat 8 (16 * v.getD (2 * j) 0 + v.getD (2 * j + 1) 0))) ∧
        Yields .hexdec s 0x02 out)

/-- R102 and R103. -/
def Obligations.IntegersToBytes : Prop :=
  (encode (.i2b .little) = 0x003 ∧ encode (.i2b .big) = 0x103 ∧ encode (.l2b .little) = 0x004 ∧ encode (.l2b .big) = 0x104) ∧
  ∀ (o : ByteOrder) (s : State), s.cfg.Legal →
    (∃ out : List Byte, out.length = 4 ∧
      (∀ k < 4, out[k]? = some (BitVec.ofNat 8 (s.arg0.toNat / 256 ^ (match o with | .big => 3 - k | .little => k)))) ∧
      Completes (.i2b o) s 0x03 (Emits out s)) ∧
    (∃ out : List Byte, out.length = 8 ∧
      (∀ k < 8, out[k]? = some (BitVec.ofNat 8 (s.arg0.toNat / 256 ^ (match o with | .big => 7 - k | .little => k)))) ∧
      Completes (.l2b o) s 0x04 (Emits out s))

/-- R104 and R105. -/
def Obligations.BytesToIntegers : Prop :=
  (encode (.b2i .little) = 0x005 ∧ encode (.b2i .big) = 0x105 ∧ encode (.b2l .little) = 0x006 ∧ encode (.b2l .big) = 0x106) ∧
  ∀ (o : ByteOrder) (s : State),
    (s.cfg.inCap < s.inLen.toNat → Fails (.b2i o) s 0x05 2 0x2B ∧ Fails (.b2l o) s 0x06 2 0x2B) ∧
    (s.inLen.toNat ≤ s.cfg.inCap →
      (4 < s.inLen.toNat → Fails (.b2i o) s 0x05 2 0x20) ∧ (8 < s.inLen.toNat → Fails (.b2l o) s 0x06 2 0x20)) ∧
    ∀ b, InseqIs s b →
      (b.length ≤ 4 → Completes (.b2i o) s 0x05 (SetsRes (signed64 32 (intValue o s.cfg.intPadLE 4 b)) s.buf s)) ∧
      (b.length ≤ 8 → Completes (.b2l o) s 0x06 (SetsRes (BitVec.ofNat 64 (intValue o s.cfg.intPadLE 8 b)) s.buf s))

/-- R106. -/
def Obligations.PadpAppendsPadding : Prop :=
  encode .padp = 0x07 ∧ ∀ s : State, s.cfg.Legal →
    (s.cfg.inCap < s.inLen.toNat → Fails .padp s 0x07 2 0x2B) ∧
    (s.inLen.toNat ≤ s.cfg.inCap → (s.arg0.toNat = 0 ∨ 255 < s.arg0.toNat) → Fails .padp s 0x07 2 0x21) ∧
    ∀ b, InseqIs s b → 1 ≤ s.arg0.toNat → s.arg0.toNat ≤ 255 → ∃ p, 1 ≤ p ∧ p ≤ s.arg0.toNat ∧
      (b.length + p) % s.arg0.toNat = 0 ∧ Yields .padp s 0x07 (b ++ List.replicate p (BitVec.ofNat 8 p))

/-- R107. -/
def Obligations.UnpadpRemovesPadding : Prop :=
  encode .unpadp = 0x08 ∧ ∀ s : State, s.cfg.Legal →
    (s.cfg.inCap < s.inLen.toNat → Fails .unpadp s 0x08 2 0x2B) ∧
    (s.inLen.toNat = 0 → Fails .unpadp s 0x08 1 0x05) ∧
    ∀ b x, InseqIs s b → b.getLast? = some x →
      (¬ ValidPadding b x → Fails .unpadp s 0x08 1 0x04) ∧
      (ValidPadding b x → Yields .unpadp s 0x08 (b.take (b.length - x.toNat)))

/-- R108. -/
def Obligations.AsciiPassesSevenBitBytes : Prop :=
  encode .ascii = 0x09 ∧ ∀ s : State, s.cfg.Legal →
    (s.cfg.inCap < s.inLen.toNat → Fails .ascii s 0x09 2 0x2B) ∧
    ∀ b, InseqIs s b →
      ((∃ x ∈ b, 127 < x.toNat) → Fails .ascii s 0x09 1 0x03) ∧
      ((∀ x ∈ b, x.toNat ≤ 127) → Yields .ascii s 0x09 b)

/-- R109: the unit's round trips, with the host copying the first command's result into the second's input. -/
def Obligations.HexIntPadRoundTrips : Prop :=
  (∀ (s u : State) (b : List Byte), s.cfg.Legal → InseqIs s b → 2 * b.length ≤ s.cfg.outCap →
    ∃ t, exec .hexenc s = .next t ∧ (CopiedOut t u → Completes .hexdec u 0x02 (Emits b u))) ∧
  (∀ (o : ByteOrder) (s u : State), s.cfg.Legal →
    ∃ t, exec (.i2b o) s = .next t ∧
      (CopiedOut t u → Completes (.b2i o) u 0x05 (SetsRes ((s.arg0.setWidth 32).signExtend 64) u.buf u))) ∧
  (∀ (o : ByteOrder) (s u : State), s.cfg.Legal →
    ∃ t, exec (.l2b o) s = .next t ∧ (CopiedOut t u → Completes (.b2l o) u 0x06 (SetsRes s.arg0 u.buf u))) ∧
  (∀ (s u : State) (b : List Byte), s.cfg.Legal → InseqIs s b → 1 ≤ s.arg0.toNat → s.arg0.toNat ≤ 255 →
    b.length + s.arg0.toNat ≤ s.cfg.outCap →
    ∃ t, exec .padp s = .next t ∧ (CopiedOut t u → Completes .unpadp u 0x08 (Emits b u)))

/-! ### Base58 unit -/

/-- R131: a `'1'` for each leading zero byte, then the base-58 digits of the number the rest spells, without leading zero
digits. -/
def Obligations.B58encWritesBase58 : Prop :=
  encode .b58enc = 0x10 ∧ ∀ s : State, s.cfg.Legal →
    (s.cfg.inCap < s.inLen.toNat → Fails .b58enc s 0x10 2 0x2B) ∧
    ∀ (z : Nat) (r : List Byte), InseqIs s (List.replicate z 0 ++ r) → r.head? ≠ some 0 →
      ∃ d : List Nat, (∀ x ∈ d, x < 58) ∧ d.head? ≠ some 0 ∧ Nat.ofDigits 58 d.reverse = numberBE r ∧
        Yields .b58enc s 0x10 (List.replicate z 0x31 ++ d.map fun x => s.cfg.b58Alphabet.getD x 0)

/-- R132: a zero byte for each leading `'1'`, then the minimal bytes of the number the rest spells. -/
def Obligations.B58decReadsBase58 : Prop :=
  encode .b58dec = 0x11 ∧ ∀ s : State, s.cfg.Legal →
    (s.cfg.inCap < s.inLen.toNat → Fails .b58dec s 0x11 2 0x2B) ∧
    ∀ (z : Nat) (r : List Byte), InseqIs s (List.replicate z 0x31 ++ r) → r.head? ≠ some 0x31 →
      ((∃ c ∈ r, c ∉ s.cfg.b58Alphabet) → Fails .b58dec s 0x11 1 0x01) ∧
      (∀ d : List Nat, (∀ x ∈ d, x < 58) → r = d.map (fun x => s.cfg.b58Alphabet.getD x 0) →
        ∃ w : List Byte, w.head? ≠ some 0 ∧ numberBE w = Nat.ofDigits 58 d.reverse ∧
          Yields .b58dec s 0x11 (List.replicate z 0 ++ w))

/-- R133: the Base58 round trips, from bytes and from text. -/
def Obligations.Base58RoundTrips : Prop :=
  (∀ (s t u : State) (b : List Byte), s.cfg.Legal → InseqIs s b → b.length ≤ s.cfg.outCap → exec .b58enc s = .next t →
    t.status = okWord 0x10 → CopiedOut t u → Completes .b58dec u 0x11 (Emits b u)) ∧
  (∀ (s : State) (n : Nat), s.cfg.Legal → InseqIs s (List.replicate n 0) → n ≤ s.cfg.outCap →
    Completes .b58enc s 0x10 (Emits (List.replicate n 0x31) s)) ∧
  (∀ (s : State) (n : Nat), s.cfg.Legal → InseqIs s (List.replicate n 0x31) → n ≤ s.cfg.outCap →
    Completes .b58dec s 0x11 (Emits (List.replicate n 0) s)) ∧
  (∀ (s t u : State) (x : List Byte), s.cfg.Legal → InseqIs s x → x.length ≤ s.cfg.outCap →
    (∀ c ∈ x, c ∈ s.cfg.b58Alphabet) → exec .b58dec s = .next t → t.status = okWord 0x11 → CopiedOut t u →
    Completes .b58enc u 0x10 (Emits x u))

/-! ### Base64 unit -/

/-- R141 (alphabet: R140). -/
def Obligations.B64encWritesBase64 : Prop :=
  encode .b64enc = 0x20 ∧ ∀ s : State, s.cfg.Legal →
    (s.cfg.inCap < s.inLen.toNat → Fails .b64enc s 0x20 2 0x2B) ∧
    ∀ b, InseqIs s b → ∃ t, IsB64Text 0x2B 0x2F b t ∧ Yields .b64enc s 0x20 t

/-- R142. -/
def Obligations.B64uencWritesUrlSafeBase64 : Prop :=
  encode .b64uenc = 0x21 ∧ ∀ s : State, s.cfg.Legal →
    (s.cfg.inCap < s.inLen.toNat → Fails .b64uenc s 0x21 2 0x2B) ∧
    ∀ b, InseqIs s b → ∃ t, IsB64Text 0x2D 0x5F b t ∧ (∀ c ∈ t, c ≠ 0x2B ∧ c ≠ 0x2F ∧ c ≠ 0x3D) ∧
      Yields .b64uenc s 0x21 t

/-- R143. -/
def Obligations.B64decReadsBase64 : Prop :=
  encode .b64dec = 0x22 ∧ ∀ s : State, s.cfg.Legal →
    (s.cfg.inCap < s.inLen.toNat → Fails .b64dec s 0x22 2 0x2B) ∧
    ∀ t0 t, InseqIs s t0 → t = t0.filter (fun c => c != 0x3D) →
      ((∃ c ∈ t, ∀ v, ¬ IsB64Char c v) → Fails .b64dec s 0x22 1 0x01) ∧
      (∀ v : List Nat, List.Forall₂ IsB64Char t v →
        (v.length % 4 = 1 → s.cfg.b64Tail1 = .reject → Fails .b64dec s 0x22 1 0x0C) ∧
        (¬ (v.length % 4 = 1 ∧ s.cfg.b64Tail1 = .reject) → ∃ out, IsB64Bytes v out ∧ Yields .b64dec s 0x22 out))

/-- R144 (a): the Base64 round trips, under both values of P7. -/
def Obligations.Base64RoundTrips : Prop :=
  ∀ (s t u : State) (b : List Byte) (i : Instr), s.cfg.Legal → InseqIs s b → b.length ≤ s.cfg.outCap →
    (i = .b64enc ∨ i = .b64uenc) → exec i s = .next t → t.status = okWord i.opcode.toNat → CopiedOut t u →
    Completes .b64dec u 0x22 (Emits b u)

/-! ### Bech32 unit -/

/-- R150 and R151: the machine's 30-bit calculator computes the residue of the rule on 5-bit values, which stays below 2^30, and
expands a prefix as the rule says. (The pairing of bit 25 + i with generator i is general knowledge in the spec: log entry 9.) -/
def Obligations.ChecksumCalculator : Prop :=
  (∀ (c : Config) (vals : List Byte), (∀ v ∈ vals, v.toNat ≤ 31) →
    (polymod c vals).toNat = residue c (vals.map BitVec.toNat)) ∧
  (∀ h : List Byte, (hrpExpand h).length = 2 * h.length + 1 ∧
    (∀ k x, h[k]? = some x → (hrpExpand h)[k]? = some (BitVec.ofNat 8 (x.toNat / 32)) ∧
      (hrpExpand h)[h.length + 1 + k]? = some (BitVec.ofNat 8 (x.toNat % 32))) ∧
    (hrpExpand h)[h.length]? = some 0)

/-- R153. (The checksum's bit pairing is general knowledge in the spec: log entry 9.) -/
def Obligations.B32encWritesBech32 : Prop :=
  encode .b32enc = 0x30 ∧ ∀ s : State, s.cfg.Legal →
    (s.cfg.inCap < s.inLen.toNat ∨ s.inLen.toNat < s.arg0.toNat → Fails .b32enc s 0x30 2 0x2B) ∧
    (s.inLen.toNat ≤ s.cfg.inCap → s.arg0.toNat ≤ s.inLen.toNat → (s.arg0.toNat = 0 ∨ 83 < s.arg0.toNat) →
      Fails .b32enc s 0x30 1 0x06) ∧
    ∀ h d, InseqIs s (h ++ d) → s.arg0.toNat = h.length → 1 ≤ h.length → h.length ≤ 83 →
      ((∃ x ∈ h, ¬ PrefixByte x) → Fails .b32enc s 0x30 1 0x07) ∧
      ((∀ x ∈ h, PrefixByte x) →
        ((∃ x ∈ d, 31 < x.toNat) → Fails .b32enc s 0x30 1 0x08) ∧
        ((∀ x ∈ d, x.toNat ≤ 31) → Yields .b32enc s 0x30 (b32TextOf s.cfg h (d.map BitVec.toNat))))

/-- R154. (The checksum's bit pairing is general knowledge in the spec: log entry 9.) -/
def Obligations.B32decReadsBech32 : Prop :=
  encode .b32dec = 0x31 ∧ ∀ s : State, s.cfg.Legal →
    (s.cfg.inCap < s.inLen.toNat → Fails .b32dec s 0x31 2 0x2B) ∧
    (∀ t, InseqIs s t → 0x31 ∉ t → Fails .b32dec s 0x31 1 0x09) ∧
    ∀ h dp, InseqIs s (h ++ 0x31 :: dp) → 0x31 ∉ dp →
      ((h.length = 0 ∨ 83 < h.length) → Fails .b32dec s 0x31 1 0x06) ∧
      (1 ≤ h.length → h.length ≤ 83 →
        ((∃ x ∈ h, ¬ PrefixByte x) → Fails .b32dec s 0x31 1 0x07) ∧
        ((∀ x ∈ h, PrefixByte x) →
          (dp.length < 6 → Fails .b32dec s 0x31 1 0x0A) ∧
          (6 ≤ dp.length → ∀ e, e = (if s.cfg.bech32DataCase = .fold then lower dp else dp) →
            ((∃ c ∈ e, ∀ v < 32, c ≠ b32Char v) → Fails .b32dec s 0x31 1 0x01) ∧
            (∀ v : List Nat, (∀ x ∈ v, x < 32) → e = v.map b32Char →
              (residue s.cfg (expandedPrefix h ++ v) ≠ 1 → Fails .b32dec s 0x31 3 0x10) ∧
              (residue s.cfg (expandedPrefix h ++ v) = 1 → ∀ out, out = lower h ++ (v.take (v.length - 6)).map (BitVec.ofNat 8) →
                (s.cfg.outCap < out.length → Fails .b32dec s 0x31 2 0x2A) ∧
                (out.length ≤ s.cfg.outCap → ∃ n : Word, n.toNat = h.length ∧
                  Completes .b32dec s 0x31 (EmitsWith out n s.buf s)))))))

/-- R155: group `i` is bits `5i` to `5i + 4` of the input's bits, most significant first, zero-filled at the end. -/
def Obligations.To5Regroups : Prop :=
  encode .to5 = 0x32 ∧ ∀ s : State, s.cfg.Legal →
    (s.cfg.inCap < s.inLen.toNat → Fails .to5 s 0x32 2 0x2B) ∧
    ∀ b, InseqIs s b → ∃ out : List Byte, out.length = (8 * b.length + 4) / 5 ∧
      (∀ i < out.length, out[i]? = some (BitVec.ofNat 8
        (numberBE b * 2 ^ (5 * out.length - 8 * b.length) / 32 ^ (out.length - 1 - i) % 32))) ∧
      Yields .to5 s 0x32 out

/-- R156: byte `i` is bits `8i` to `8i + 7` of the values' bits; fewer than 5 bits left over are dropped, more are an error. -/
def Obligations.From5Regroups : Prop :=
  encode .from5 = 0x33 ∧ ∀ s : State, s.cfg.Legal →
    (s.cfg.inCap < s.inLen.toNat → Fails .from5 s 0x33 2 0x2B) ∧
    ∀ v, InseqIs s v →
      ((∃ x ∈ v, 31 < x.toNat) → Fails .from5 s 0x33 1 0x08) ∧
      ((∀ x ∈ v, x.toNat ≤ 31) →
        (5 ≤ 5 * v.length % 8 → Fails .from5 s 0x33 1 0x0B) ∧
        (5 * v.length % 8 < 5 → ∃ out : List Byte, out.length = 5 * v.length / 8 ∧
          (∀ i < out.length, out[i]? = some (BitVec.ofNat 8
            (Nat.ofDigits 32 (v.reverse.map BitVec.toNat) / 2 ^ (5 * v.length - 8 * (i + 1))))) ∧
          Yields .from5 s 0x33 out))

/-- R157 (a), (b), (c): decoding what B32ENC wrote gives the lower-cased prefix and the data for every table P5 and P6; FROM5
of TO5 gives exactly the bytes, and TO5 of those the same values again. -/
def Obligations.Bech32RoundTrips : Prop :=
  (∀ (s t u : State) (h d : List Byte), s.cfg.Legal → InseqIs s (h ++ d) → s.arg0.toNat = h.length → 1 ≤ h.length →
    h.length ≤ 83 → (∀ x ∈ h, PrefixByte x) → (∀ x ∈ d, x.toNat ≤ 31) → exec .b32enc s = .next t →
    t.status = okWord 0x30 → CopiedOut t u → ∃ n : Word, n.toNat = h.length ∧
      Completes .b32dec u 0x31 (EmitsWith (lower h ++ d) n u.buf u)) ∧
  (∀ (s t u : State) (b : List Byte), s.cfg.Legal → InseqIs s b → exec .to5 s = .next t → t.status = okWord 0x32 →
    CopiedOut t u → Completes .from5 u 0x33 (Emits b u) ∧
      ∀ w v : State, exec .from5 u = .next w → CopiedOut w v →
        ∃ out, OutIs t out ∧ Completes .to5 v 0x32 (Emits out v))

/-! ### Byte Buffer unit -/

/-- R173, R174 and R175. -/
def Obligations.BufferConstruction : Prop :=
  (encode .bbnew = 0x40 ∧ encode .bbcopy = 0x41 ∧ encode .bbreset = 0x42) ∧ ∀ s : State, s.cfg.Legal →
    (s.cfg.bbMaxCap < s.arg0.toNat → Fails .bbnew s 0x40 2 0x29) ∧
    (s.arg0.toNat ≤ s.cfg.bbMaxCap → Completes .bbnew s 0x40 fun t => OnlyBuffer s t ∧
      StoreIs t.buf (List.replicate s.arg0.toNat 0) ∧ t.buf.pos = 0 ∧ t.buf.bitpos = 0 ∧ t.buf.mode = .none) ∧
    (s.cfg.inCap < s.inLen.toNat → Fails .bbcopy s 0x41 2 0x2B) ∧
    (s.inLen.toNat ≤ s.cfg.inCap → s.cfg.bbMaxCap < s.inLen.toNat → Fails .bbcopy s 0x41 2 0x29) ∧
    (∀ b, InseqIs s b → b.length ≤ s.cfg.bbMaxCap → Completes .bbcopy s 0x41 fun t => OnlyBuffer s t ∧
      StoreIs t.buf b ∧ t.buf.pos = 0 ∧ t.buf.bitpos = 0 ∧ t.buf.mode = .none) ∧
    (Completes .bbreset s 0x42 fun t => OnlyBuffer s t ∧
      StoreIs t.buf [] ∧ t.buf.pos = 0 ∧ t.buf.bitpos = 0 ∧ t.buf.mode = .none)

/-- R176, R177 and R178. -/
def Obligations.BufferCursor : Prop :=
  (encode .bbgetpos = 0x43 ∧ encode .bbsetpos = 0x44 ∧ encode .bbtoout = 0x45) ∧ ∀ s : State, s.Inv →
    (∃ v : DWord, v.toNat = s.buf.pos.toNat ∧ Completes .bbgetpos s 0x43 (SetsRes v s.buf s)) ∧
    (s.buf.cap.toNat < s.arg0.toNat → Fails .bbsetpos s 0x44 2 0x23) ∧
    (s.arg0.toNat ≤ s.buf.cap.toNat → ∃ p : Word, p.toNat = s.arg0.toNat ∧
      Completes .bbsetpos s 0x44 fun t => OnlyBuffer s t ∧ t.buf = { s.buf with pos := p }) ∧
    (∀ l : List Byte, l.length = s.buf.pos.toNat → (∀ k < l.length, l[k]? = some (s.buf.store.storeGet k)) →
      Yields .bbtoout s 0x45 l)

/-- R179 and R180-R184: the fixed-width reads, signed but for BBRDU16. -/
def Obligations.FixedWidthReads : Prop :=
  ReadsFixed .bbrd8 0x48 1 (signed64 8) ∧ ReadsFixed .bbrd16 0x49 2 (signed64 16) ∧
    ReadsFixed .bbrdu16 0x4A 2 (BitVec.ofNat 64) ∧ ReadsFixed .bbrd32 0x4B 4 (signed64 32) ∧
    ReadsFixed .bbrd64 0x4C 8 (BitVec.ofNat 64)

/-- R185. -/
def Obligations.ReadStringStopsAtNewline : Prop :=
  encode .bbrdstr = 0x4D ∧ ∀ s : State, s.Inv →
    ((∀ k, s.buf.pos.toNat ≤ k → k < s.buf.cap.toNat → s.buf.store.storeGet k ≠ 10) → Fails .bbrdstr s 0x4D 2 0x26) ∧
    (∀ n, s.buf.pos.toNat + n < s.buf.cap.toNat → s.buf.store.storeGet (s.buf.pos.toNat + n) = 10 →
      (∀ j < n, s.buf.store.storeGet (s.buf.pos.toNat + j) ≠ 10) →
      (s.cfg.outCap < n → Fails .bbrdstr s 0x4D 2 0x2A) ∧
      (n ≤ s.cfg.outCap → ∃ p : Word, p.toNat = s.buf.pos.toNat + n + 1 ∧ Completes .bbrdstr s 0x4D
        (EmitsWith (s.buf.store.storeSlice s.buf.pos.toNat n) s.outSplit { s.buf with pos := p } s)))

/-- R186. -/
def Obligations.ReadBytesIntoOut : Prop :=
  encode .bbrdbytes = 0x4E ∧ ∀ s : State, s.Inv → ∀ off n, off = s.arg0.toNat → n = s.arg1.toNat →
    (s.cfg.outCap < off + n → Fails .bbrdbytes s 0x4E 2 0x24) ∧
    (off + n ≤ s.cfg.outCap →
      (s.buf.cap.toNat < s.buf.pos.toNat + n → Fails .bbrdbytes s 0x4E 2 0x22) ∧
      (s.buf.pos.toNat + n ≤ s.buf.cap.toNat → Completes .bbrdbytes s 0x4E fun t =>
        t.res = s.res ∧ t.outSplit = s.outSplit ∧
        (∃ p : Word, p.toNat = s.buf.pos.toNat + n ∧ t.buf = { s.buf with pos := p }) ∧
        t.outLen.toNat = (if 0 < n then max s.outLen.toNat (off + n) else s.outLen.toNat) ∧
        ∀ k, t.outWin.lookup k = if off ≤ k ∧ k < off + n
          then some (s.buf.store.storeGet (s.buf.pos.toNat + (k - off))) else s.outWin.lookup k))

/-- R171, R172, R187 and R188-R191: the fixed-width writes. -/
def Obligations.FixedWidthWrites : Prop :=
  WritesFixed .bbwr8 0x50 1 ∧ WritesFixed .bbwr16 0x51 2 ∧ WritesFixed .bbwr32 0x52 4 ∧ WritesFixed .bbwr64 0x53 8

/-- R192: two growth steps, one for the text and one for the terminator. -/
def Obligations.WriteStringAppendsNewline : Prop :=
  encode .bbwrstr = 0x54 ∧ ∀ s : State, s.Inv →
    (ModeConflict .byte s → Fails .bbwrstr s 0x54 4 0x32) ∧
    (¬ ModeConflict .byte s →
      (s.cfg.inCap < s.inLen.toNat → Fails .bbwrstr s 0x54 2 0x2B) ∧
      ∀ b, InseqIs s b →
        (s.cfg.bbMaxCap < s.buf.pos.toNat + b.length + 1 → Fails .bbwrstr s 0x54 2 0x29) ∧
        (s.buf.pos.toNat + b.length + 1 ≤ s.cfg.bbMaxCap → Completes .bbwrstr s 0x54 fun t => OnlyBuffer s t ∧
          BytesWritten (b ++ [10])
            (grownCap s.cfg.bbMaxCap (grownCap s.cfg.bbMaxCap s.buf.cap.toNat (s.buf.pos.toNat + b.length))
              (s.buf.pos.toNat + b.length + 1)) s.buf t.buf))

/-- R193. -/
def Obligations.WriteBytesCopiesInput : Prop :=
  encode .bbwrbytes = 0x55 ∧ ∀ s : State, s.Inv → ∀ off n, off = s.arg0.toNat → n = s.arg1.toNat →
    (ModeConflict .byte s → Fails .bbwrbytes s 0x55 4 0x32) ∧
    (¬ ModeConflict .byte s →
      (s.cfg.inCap < s.inLen.toNat → Fails .bbwrbytes s 0x55 2 0x2B) ∧
      (s.inLen.toNat ≤ s.cfg.inCap →
        (s.inLen.toNat < off + n → Fails .bbwrbytes s 0x55 2 0x25) ∧
        (off + n ≤ s.inLen.toNat →
          (s.cfg.bbMaxCap < s.buf.pos.toNat + n → Fails .bbwrbytes s 0x55 2 0x29) ∧
          (s.buf.pos.toNat + n ≤ s.cfg.bbMaxCap → ∀ b : List Byte, b.length = n →
            (∀ k < n, s.inWin.lookup (off + k) = b[k]?) → Completes .bbwrbytes s 0x55 fun t => OnlyBuffer s t ∧
              BytesWritten b (grownCap s.cfg.bbMaxCap s.buf.cap.toNat (s.buf.pos.toNat + n)) s.buf t.buf))))

/-- R194: the field's bits, most significant first, from the bit cursor on; every other bit kept, new bytes 0. -/
def Obligations.WriteBitsPacksField : Prop :=
  encode .bbwrbits = 0x56 ∧ ∀ s : State, s.Inv → ∀ nb q0 cap, nb = s.arg0.toNat → q0 = s.buf.bitpos.toNat →
    cap = grownCap s.cfg.bbMaxCap s.buf.cap.toNat (s.buf.pos.toNat + (nb + 7) / 8) →
    (ModeConflict .bit s → Fails .bbwrbits s 0x56 4 0x32) ∧
    (¬ ModeConflict .bit s →
      (nb = 0 ∨ 32 < nb → Fails .bbwrbits s 0x56 2 0x27) ∧
      (1 ≤ nb → nb ≤ 32 →
        (s.cfg.bbMaxCap < s.buf.pos.toNat + (nb + 7) / 8 → Fails .bbwrbits s 0x56 2 0x29) ∧
        (s.buf.pos.toNat + (nb + 7) / 8 ≤ s.cfg.bbMaxCap →
          (8 * cap < q0 + nb → Fails .bbwrbits s 0x56 2 0x28) ∧
          (q0 + nb ≤ 8 * cap → Completes .bbwrbits s 0x56 fun t => OnlyBuffer s t ∧
            t.buf.cap.toNat = cap ∧ t.buf.pos = s.buf.pos ∧ t.buf.bitpos.toNat = q0 + nb ∧
            t.buf.mode = (if s.buf.mode = .none then .bit else s.buf.mode) ∧
            ∀ q < 8 * cap,
              let old := if q < 8 * s.buf.cap.toNat then storeBit s.buf.store q else false
              let field := s.arg1.getLsbD (nb - 1 - (q - q0))
              storeBit t.buf.store q = if q0 ≤ q ∧ q < q0 + nb
                then (match s.cfg.bbBitMerge with | .replace => field | .or => old || field) else old))))

/-- R195 (a) and (b): from a reset buffer, a fixed-width write, BBSETPOS 0 and the matching read give the value back; one bit
field leaves its bits, then zero bits. -/
def Obligations.BufferRoundTrips : Prop :=
  (∀ (s u v : State) (wr rd : Instr) (w : Nat),
    (wr, rd, w) ∈ [(Instr.bbwr8, Instr.bbrd8, 8), (.bbwr16, .bbrd16, 16), (.bbwr32, .bbrd32, 32), (.bbwr64, .bbrd64, 64)] →
    s.Inv → s.buf = Buffer.empty → ∃ t, exec wr s = .next t ∧
      (u.cfg = t.cfg → u.buf = t.buf → u.arg0 = 0 → exec .bbsetpos u = .next v →
        ∃ r, exec rd v = .next r ∧ r.res = signed64 w (s.arg0.toNat % 2 ^ w)
          ∧ (w = 16 → ∃ r', exec .bbrdu16 v = .next r' ∧ r'.res.toNat = s.arg0.toNat % 2 ^ 16))) ∧
  (∀ (s t : State) (nb : Nat), s.Inv → s.buf = Buffer.empty → nb = s.arg0.toNat → 1 ≤ nb → nb ≤ 32 →
    exec .bbwrbits s = .next t → t.status = okWord 0x56 ∧ t.buf.cap.toNat = (nb + 7) / 8 ∧ t.buf.bitpos.toNat = nb
      ∧ t.buf.pos = 0 ∧ ∀ q < 8 * ((nb + 7) / 8),
          storeBit t.buf.store q = if q < nb then s.arg1.getLsbD (nb - 1 - q) else false)
end

