-- ==== Sys2Proof/Laws/Memory.lean ====
section
/-! SUPPORT. The laws of sparse bytes: read after write, writes leave every other index alone, and every operation keeps the
canonical form. -/

namespace Sys2Proof.Machine.Memory

@[simp] theorem lookup_nil (a : Nat) : lookup [] a = none := rfl

theorem lookup_cons (k : Nat) (v : Byte) (m : Memory) (a : Nat) :
    lookup ((k, v) :: m) a = if k = a then some v else lookup m a := rfl

/-- Read after write. -/
@[simp] theorem lookup_insert_same (m : Memory) (a : Nat) (v : Byte) : (m.insert a v).lookup a = some v := by
  induction m with
  | nil => simp [insert, lookup]
  | cons c m ih =>
    obtain ⟨k, w⟩ := c
    simp only [insert]
    split
    · simp [lookup]
    · split
      · simp [lookup]
      · rw [lookup_cons, if_neg (by omega), ih]

/-- A write leaves every other index alone. -/
theorem lookup_insert_ne (m : Memory) {a c : Nat} (v : Byte) (h : c ≠ a) : (m.insert a v).lookup c = m.lookup c := by
  induction m with
  | nil => simp [insert, lookup, Ne.symm h]
  | cons x m ih =>
    obtain ⟨k, w⟩ := x
    simp only [insert]
    split
    · rw [lookup_cons, if_neg (Ne.symm h)]
    · split
      · next hk => simp [lookup, ← hk, Ne.symm h]
      · simp only [lookup, ih]

theorem lookup_insert (m : Memory) (a c : Nat) (v : Byte) :
    (m.insert a v).lookup c = if c = a then some v else m.lookup c := by
  split
  · next h => rw [h, lookup_insert_same]
  · next h => exact lookup_insert_ne m v h

theorem lookup_erase_ne (m : Memory) {a c : Nat} (h : c ≠ a) : (m.erase a).lookup c = m.lookup c := by
  induction m with
  | nil => rfl
  | cons x m ih =>
    obtain ⟨k, w⟩ := x
    simp only [erase]
    split
    · next hk => simp [lookup, hk, Ne.symm h]
    · simp only [lookup, ih]

/-- Below the first listed index nothing is listed. -/
theorem lookup_eq_none_of_lt (m : Memory) (a : Nat) (h : m.all (fun c => a < c.1) = true) : m.lookup a = none := by
  induction m with
  | nil => rfl
  | cons x m ih =>
    obtain ⟨k, w⟩ := x
    simp only [List.all_cons, Bool.and_eq_true, decide_eq_true_eq] at h
    rw [lookup_cons, if_neg (by omega), ih h.2]

@[simp] theorem lookup_erase_same (m : Memory) (a : Nat) (h : m.sorted = true) : (m.erase a).lookup a = none := by
  induction m with
  | nil => rfl
  | cons x m ih =>
    obtain ⟨k, w⟩ := x
    simp only [sorted, Bool.and_eq_true] at h
    simp only [erase]
    split
    · next hk => subst hk; exact lookup_eq_none_of_lt m k h.1
    · next hk => rw [lookup_cons, if_neg hk, ih h.2]

/-! ### Canonical form -/

theorem mem_insert {m : Memory} {a : Nat} {v : Byte} {c : Host.Cell} (h : c ∈ m.insert a v) : c = (a, v) ∨ c ∈ m := by
  induction m with
  | nil => simpa [insert] using h
  | cons x m ih =>
    obtain ⟨k, w⟩ := x
    simp only [insert] at h
    split at h
    · simpa using h
    · split at h
      · rcases List.mem_cons.1 h with h | h
        · exact .inl h
        · exact .inr (List.mem_cons_of_mem _ h)
      · rcases List.mem_cons.1 h with h | h
        · exact .inr (h ▸ List.mem_cons_self)
        · exact (ih h).imp id (List.mem_cons_of_mem _)

theorem mem_erase {m : Memory} {a : Nat} {c : Host.Cell} (h : c ∈ m.erase a) : c ∈ m := by
  induction m with
  | nil => simp [erase] at h
  | cons x m ih =>
    obtain ⟨k, w⟩ := x
    simp only [erase] at h
    split at h
    · exact List.mem_cons_of_mem _ h
    · rcases List.mem_cons.1 h with h | h
      · exact h ▸ List.mem_cons_self
      · exact List.mem_cons_of_mem _ (ih h)

theorem sorted_cons {k : Nat} {v : Byte} {m : Memory} :
    sorted ((k, v) :: m) = true ↔ (∀ c ∈ m, k < c.1) ∧ m.sorted = true := by
  simp [sorted]

theorem sorted_insert (m : Memory) (a : Nat) (v : Byte) (h : m.sorted = true) : (m.insert a v).sorted = true := by
  induction m with
  | nil => rfl
  | cons x m ih =>
    obtain ⟨k, w⟩ := x
    have ⟨hk, hm⟩ := sorted_cons.1 h
    simp only [insert]
    split
    · next ha =>
      refine sorted_cons.2 ⟨fun c hc => ?_, h⟩
      rcases List.mem_cons.1 hc with hc | hc
      · exact hc ▸ ha
      · exact ha.trans (hk c hc)
    · split
      · next ha => exact sorted_cons.2 ⟨ha ▸ hk, hm⟩
      · refine sorted_cons.2 ⟨fun c hc => ?_, ih hm⟩
        rcases mem_insert hc with hc | hc
        · subst hc; show k < a; omega
        · exact hk c hc

theorem sorted_erase (m : Memory) (a : Nat) (h : m.sorted = true) : (m.erase a).sorted = true := by
  induction m with
  | nil => rfl
  | cons x m ih =>
    obtain ⟨k, w⟩ := x
    have ⟨hk, hm⟩ := sorted_cons.1 h
    simp only [erase]
    split
    · exact hm
    · exact sorted_cons.2 ⟨fun c hc => hk c (mem_erase hc), ih hm⟩

theorem windowWf_iff {m : Memory} {cap : Nat} : m.windowWf cap = true ↔ m.sorted = true ∧ ∀ c ∈ m, c.1 < cap := by
  simp [windowWf, wf]

theorem storeWf_iff {m : Memory} {cap : Nat} :
    m.storeWf cap = true ↔ m.sorted = true ∧ ∀ c ∈ m, c.1 < cap ∧ c.2 ≠ storeFill := by
  simp [storeWf, wf]

/-- Writing a byte inside a window keeps its canonical form. -/
theorem windowWf_insert {m : Memory} {cap a : Nat} (v : Byte) (h : m.windowWf cap = true) (ha : a < cap) :
    (m.insert a v).windowWf cap = true := by
  rw [windowWf_iff] at *
  refine ⟨sorted_insert _ _ _ h.1, fun c hc => ?_⟩
  rcases mem_insert hc with hc | hc
  · exact hc ▸ ha
  · exact h.2 c hc

theorem windowWf_insertRun {cap : Nat} (bs : List Byte) : ∀ {m : Memory} {a : Nat}, m.windowWf cap = true →
    a + bs.length ≤ cap → (m.insertRun a bs).windowWf cap = true := by
  induction bs with
  | nil => intro m a h _; exact h
  | cons b bs ih =>
    intro m a h ha
    rw [List.length_cons] at ha
    exact ih (windowWf_insert b h (by omega)) (by omega)

/-- Writing a byte of STORE keeps its canonical form: the fill byte is unlisted. -/
theorem storeWf_storePut {m : Memory} {cap a : Nat} (v : Byte) (h : m.storeWf cap = true) (ha : a < cap) :
    (m.storePut a v).storeWf cap = true := by
  rw [storeWf_iff] at *
  unfold storePut
  split
  · exact ⟨sorted_erase _ _ h.1, fun c hc => h.2 c (mem_erase hc)⟩
  · next hv =>
    refine ⟨sorted_insert _ _ _ h.1, fun c hc => ?_⟩
    rcases mem_insert hc with hc | hc
    · exact hc ▸ ⟨ha, hv⟩
    · exact h.2 c hc

theorem storeWf_storePutRun {cap : Nat} (bs : List Byte) : ∀ {m : Memory} {a : Nat}, m.storeWf cap = true →
    a + bs.length ≤ cap → (m.storePutRun a bs).storeWf cap = true := by
  induction bs with
  | nil => intro m a h _; exact h
  | cons b bs ih =>
    intro m a h ha
    rw [List.length_cons] at ha
    exact ih (storeWf_storePut b h (by omega)) (by omega)

/-- Growing STORE keeps its canonical form. -/
theorem storeWf_mono {m : Memory} {cap cap' : Nat} (h : m.storeWf cap = true) (hc : cap ≤ cap') :
    m.storeWf cap' = true := by
  rw [storeWf_iff] at *
  exact ⟨h.1, fun c hm => ⟨(h.2 c hm).1.trans_le hc, (h.2 c hm).2⟩⟩

/-! ### Runs -/

/-- What a run written into a window reads as. -/
theorem lookup_insertRun (bs : List Byte) : ∀ (m : Memory) (a c : Nat),
    (m.insertRun a bs).lookup c = if a ≤ c ∧ c < a + bs.length then bs[c - a]? else m.lookup c := by
  induction bs with
  | nil => intro m a c; rw [if_neg (by simp)]; rfl
  | cons b bs ih =>
    intro m a c
    rw [insertRun, ih, List.length_cons]
    by_cases h1 : a + 1 ≤ c ∧ c < a + 1 + bs.length
    · rw [if_pos h1, if_pos (by omega), show c - a = (c - (a + 1)) + 1 by omega, List.getElem?_cons_succ]
    · rw [if_neg h1, lookup_insert]
      by_cases hc : c = a
      · rw [if_pos hc, if_pos (by omega), hc, Nat.sub_self, List.getElem?_cons_zero]
      · rw [if_neg hc, if_neg (by omega)]

theorem sorted_storePut {m : Memory} (a : Nat) (v : Byte) (h : m.sorted = true) : (m.storePut a v).sorted = true := by
  unfold storePut
  split
  · exact sorted_erase _ _ h
  · exact sorted_insert _ _ _ h

/-- Read after write, on STORE. -/
theorem storeGet_storePut {m : Memory} (a c : Nat) (v : Byte) (h : m.sorted = true) :
    (m.storePut a v).storeGet c = if c = a then v else m.storeGet c := by
  unfold storePut storeGet
  split
  · next hv =>
    split
    · next hc => rw [hc, lookup_erase_same m a h, hv]; rfl
    · next hc => rw [lookup_erase_ne m hc]
  · rw [lookup_insert]; split <;> rfl

theorem storeGet_storePutRun (bs : List Byte) : ∀ (m : Memory) (a c : Nat), m.sorted = true →
    (m.storePutRun a bs).storeGet c = if a ≤ c ∧ c < a + bs.length then bs.getD (c - a) 0 else m.storeGet c := by
  induction bs with
  | nil => intro m a c _; rw [if_neg (by simp)]; rfl
  | cons b bs ih =>
    intro m a c h
    rw [storePutRun, ih _ _ _ (sorted_storePut a b h), List.length_cons]
    by_cases h1 : a + 1 ≤ c ∧ c < a + 1 + bs.length
    · rw [if_pos h1, if_pos (by omega), show c - a = (c - (a + 1)) + 1 by omega, List.getD_cons_succ]
    · rw [if_neg h1, storeGet_storePut _ _ _ h]
      by_cases hc : c = a
      · rw [if_pos hc, if_pos (by omega), hc, Nat.sub_self, List.getD_cons_zero]
      · rw [if_neg hc, if_neg (by omega)]

theorem sorted_storePutRun (bs : List Byte) : ∀ (m : Memory) (a : Nat), m.sorted = true →
    (m.storePutRun a bs).sorted = true := by
  induction bs with
  | nil => intro m a h; exact h
  | cons b bs ih => intro m a h; exact ih _ _ (sorted_storePut a b h)

@[simp] theorem storeSlice_length (m : Memory) (lo n : Nat) : (m.storeSlice lo n).length = n := by simp [storeSlice]

@[simp] theorem storeSlice_getElem (m : Memory) (lo n k : Nat) (h : k < (m.storeSlice lo n).length) :
    (m.storeSlice lo n)[k] = m.storeGet (lo + k) := by simp [storeSlice]

/-- STORE at and beyond its capacity lists nothing. -/
theorem storeGet_of_le {m : Memory} {cap a : Nat} (h : m.storeWf cap = true) (ha : cap ≤ a) : m.storeGet a = 0 := by
  have hl : m.lookup a = none := by
    have hb := (storeWf_iff.1 h).2
    clear h
    induction m with
    | nil => rfl
    | cons x m ih =>
      have := (hb x (by simp)).1
      rw [lookup_cons, if_neg (by omega)]
      exact ih fun c hc => hb c (by simp [hc])
  rw [storeGet, hl]
  rfl

/-! ### Equal memories are equal data -/

theorem mem_iff_lookup {m : Memory} (h : m.sorted = true) (a : Nat) (v : Byte) : (a, v) ∈ m ↔ m.lookup a = some v := by
  induction m with
  | nil => simp
  | cons x m ih =>
    obtain ⟨k, w⟩ := x
    have ⟨hk, hm⟩ := sorted_cons.1 h
    rw [lookup_cons, List.mem_cons, ih hm, Prod.mk.injEq]
    by_cases hka : k = a
    · subst hka
      rw [if_pos rfl, lookup_eq_none_of_lt m k (by simpa using fun a b hab => hk (a, b) hab)]
      simp [eq_comm]
    · rw [if_neg hka]; simp [Ne.symm hka]

/-- Two sorted memories with the same cells are the same list. -/
theorem ext_of_sorted : ∀ {m n : Memory}, m.sorted = true → n.sorted = true → (∀ c, c ∈ m ↔ c ∈ n) → m = n := by
  intro m
  induction m with
  | nil =>
    intro n _ _ h
    cases n with
    | nil => rfl
    | cons c n => exact absurd ((h c).2 List.mem_cons_self) (by simp)
  | cons x m ih =>
    intro n hm hn h
    cases n with
    | nil => exact absurd ((h x).1 List.mem_cons_self) (by simp)
    | cons y n =>
      obtain ⟨k, v⟩ := x
      obtain ⟨l, w⟩ := y
      have ⟨hk, hm'⟩ := sorted_cons.1 hm
      have ⟨hl, hn'⟩ := sorted_cons.1 hn
      have hxy : ((k, v) : Host.Cell) = (l, w) := by
        rcases List.mem_cons.1 ((h (k, v)).1 List.mem_cons_self) with e | e
        · exact e
        · rcases List.mem_cons.1 ((h (l, w)).2 List.mem_cons_self) with e' | e'
          · exact e'.symm
          · exact absurd (hl _ e) (by have := hk _ e'; simp only at *; omega)
      rw [hxy]
      refine congrArg _ (ih hm' hn' fun c => ⟨fun hc => ?_, fun hc => ?_⟩)
      · rcases List.mem_cons.1 ((h c).1 (List.mem_cons_of_mem _ hc)) with e | e
        · exact absurd (hk c hc) (by rw [e, ← hxy]; simp)
        · exact e
      · rcases List.mem_cons.1 ((h c).2 (List.mem_cons_of_mem _ hc)) with e | e
        · exact absurd (hl c hc) (by rw [e, hxy]; simp)
        · exact e

/-- Windows that read the same are equal. -/
theorem window_ext {m n : Memory} {cap : Nat} (hm : m.windowWf cap = true) (hn : n.windowWf cap = true)
    (h : ∀ a, m.lookup a = n.lookup a) : m = n := by
  have hm := (windowWf_iff.1 hm).1
  have hn := (windowWf_iff.1 hn).1
  exact ext_of_sorted hm hn fun ⟨a, v⟩ => by rw [mem_iff_lookup hm, mem_iff_lookup hn, h]

end Sys2Proof.Machine.Memory
end

