-- ==== Sys2Proof/Laws/State.lean ====
section
/-! SUPPORT. One lemma per field per named update of the state (Machine/Ops.lean, Machine/Bus.lean), each true by unfolding, so
that no proof unfolds a record update. -/

namespace Sys2Proof.Machine

variable (s : State)

@[simp] theorem State.setCmd_cfg (w : Word) : (s.setCmd w).cfg = s.cfg := rfl
@[simp] theorem State.setCmd_inWin (w : Word) : (s.setCmd w).inWin = s.inWin := rfl
@[simp] theorem State.setCmd_inLen (w : Word) : (s.setCmd w).inLen = s.inLen := rfl
@[simp] theorem State.setCmd_outWin (w : Word) : (s.setCmd w).outWin = s.outWin := rfl
@[simp] theorem State.setCmd_outLen (w : Word) : (s.setCmd w).outLen = s.outLen := rfl
@[simp] theorem State.setCmd_arg0 (w : Word) : (s.setCmd w).arg0 = s.arg0 := rfl
@[simp] theorem State.setCmd_arg1 (w : Word) : (s.setCmd w).arg1 = s.arg1 := rfl
@[simp] theorem State.setCmd_res (w : Word) : (s.setCmd w).res = s.res := rfl
@[simp] theorem State.setCmd_outSplit (w : Word) : (s.setCmd w).outSplit = s.outSplit := rfl
@[simp] theorem State.setCmd_cmd (w : Word) : (s.setCmd w).cmd = w := rfl
@[simp] theorem State.setCmd_status (w : Word) : (s.setCmd w).status = s.status := rfl
@[simp] theorem State.setCmd_buf (w : Word) : (s.setCmd w).buf = s.buf := rfl
@[simp] theorem State.setCmd_bus (w : Word) : (s.setCmd w).bus = s.bus := rfl
@[simp] theorem State.setCmd_readData (w : Word) : (s.setCmd w).readData = s.readData := rfl
@[simp] theorem State.setCmd_draws (w : Word) : (s.setCmd w).draws = s.draws := rfl
@[simp] theorem State.setCmd_epoch (w : Word) : (s.setCmd w).epoch = s.epoch := rfl

@[simp] theorem State.setStatus_cfg (w : Word) : (s.setStatus w).cfg = s.cfg := rfl
@[simp] theorem State.setStatus_inWin (w : Word) : (s.setStatus w).inWin = s.inWin := rfl
@[simp] theorem State.setStatus_inLen (w : Word) : (s.setStatus w).inLen = s.inLen := rfl
@[simp] theorem State.setStatus_outWin (w : Word) : (s.setStatus w).outWin = s.outWin := rfl
@[simp] theorem State.setStatus_outLen (w : Word) : (s.setStatus w).outLen = s.outLen := rfl
@[simp] theorem State.setStatus_arg0 (w : Word) : (s.setStatus w).arg0 = s.arg0 := rfl
@[simp] theorem State.setStatus_arg1 (w : Word) : (s.setStatus w).arg1 = s.arg1 := rfl
@[simp] theorem State.setStatus_res (w : Word) : (s.setStatus w).res = s.res := rfl
@[simp] theorem State.setStatus_outSplit (w : Word) : (s.setStatus w).outSplit = s.outSplit := rfl
@[simp] theorem State.setStatus_cmd (w : Word) : (s.setStatus w).cmd = s.cmd := rfl
@[simp] theorem State.setStatus_status (w : Word) : (s.setStatus w).status = w := rfl
@[simp] theorem State.setStatus_buf (w : Word) : (s.setStatus w).buf = s.buf := rfl
@[simp] theorem State.setStatus_bus (w : Word) : (s.setStatus w).bus = s.bus := rfl
@[simp] theorem State.setStatus_readData (w : Word) : (s.setStatus w).readData = s.readData := rfl
@[simp] theorem State.setStatus_draws (w : Word) : (s.setStatus w).draws = s.draws := rfl
@[simp] theorem State.setStatus_epoch (w : Word) : (s.setStatus w).epoch = s.epoch := rfl

@[simp] theorem State.setInWin_cfg (m : Memory) : (s.setInWin m).cfg = s.cfg := rfl
@[simp] theorem State.setInWin_inWin (m : Memory) : (s.setInWin m).inWin = m := rfl
@[simp] theorem State.setInWin_inLen (m : Memory) : (s.setInWin m).inLen = s.inLen := rfl
@[simp] theorem State.setInWin_outWin (m : Memory) : (s.setInWin m).outWin = s.outWin := rfl
@[simp] theorem State.setInWin_outLen (m : Memory) : (s.setInWin m).outLen = s.outLen := rfl
@[simp] theorem State.setInWin_arg0 (m : Memory) : (s.setInWin m).arg0 = s.arg0 := rfl
@[simp] theorem State.setInWin_arg1 (m : Memory) : (s.setInWin m).arg1 = s.arg1 := rfl
@[simp] theorem State.setInWin_res (m : Memory) : (s.setInWin m).res = s.res := rfl
@[simp] theorem State.setInWin_outSplit (m : Memory) : (s.setInWin m).outSplit = s.outSplit := rfl
@[simp] theorem State.setInWin_cmd (m : Memory) : (s.setInWin m).cmd = s.cmd := rfl
@[simp] theorem State.setInWin_status (m : Memory) : (s.setInWin m).status = s.status := rfl
@[simp] theorem State.setInWin_buf (m : Memory) : (s.setInWin m).buf = s.buf := rfl
@[simp] theorem State.setInWin_bus (m : Memory) : (s.setInWin m).bus = s.bus := rfl
@[simp] theorem State.setInWin_readData (m : Memory) : (s.setInWin m).readData = s.readData := rfl
@[simp] theorem State.setInWin_draws (m : Memory) : (s.setInWin m).draws = s.draws := rfl
@[simp] theorem State.setInWin_epoch (m : Memory) : (s.setInWin m).epoch = s.epoch := rfl

@[simp] theorem State.setInLen_cfg (w : Word) : (s.setInLen w).cfg = s.cfg := rfl
@[simp] theorem State.setInLen_inWin (w : Word) : (s.setInLen w).inWin = s.inWin := rfl
@[simp] theorem State.setInLen_inLen (w : Word) : (s.setInLen w).inLen = w := rfl
@[simp] theorem State.setInLen_outWin (w : Word) : (s.setInLen w).outWin = s.outWin := rfl
@[simp] theorem State.setInLen_outLen (w : Word) : (s.setInLen w).outLen = s.outLen := rfl
@[simp] theorem State.setInLen_arg0 (w : Word) : (s.setInLen w).arg0 = s.arg0 := rfl
@[simp] theorem State.setInLen_arg1 (w : Word) : (s.setInLen w).arg1 = s.arg1 := rfl
@[simp] theorem State.setInLen_res (w : Word) : (s.setInLen w).res = s.res := rfl
@[simp] theorem State.setInLen_outSplit (w : Word) : (s.setInLen w).outSplit = s.outSplit := rfl
@[simp] theorem State.setInLen_cmd (w : Word) : (s.setInLen w).cmd = s.cmd := rfl
@[simp] theorem State.setInLen_status (w : Word) : (s.setInLen w).status = s.status := rfl
@[simp] theorem State.setInLen_buf (w : Word) : (s.setInLen w).buf = s.buf := rfl
@[simp] theorem State.setInLen_bus (w : Word) : (s.setInLen w).bus = s.bus := rfl
@[simp] theorem State.setInLen_readData (w : Word) : (s.setInLen w).readData = s.readData := rfl
@[simp] theorem State.setInLen_draws (w : Word) : (s.setInLen w).draws = s.draws := rfl
@[simp] theorem State.setInLen_epoch (w : Word) : (s.setInLen w).epoch = s.epoch := rfl

@[simp] theorem State.setArg0_cfg (v : DWord) : (s.setArg0 v).cfg = s.cfg := rfl
@[simp] theorem State.setArg0_inWin (v : DWord) : (s.setArg0 v).inWin = s.inWin := rfl
@[simp] theorem State.setArg0_inLen (v : DWord) : (s.setArg0 v).inLen = s.inLen := rfl
@[simp] theorem State.setArg0_outWin (v : DWord) : (s.setArg0 v).outWin = s.outWin := rfl
@[simp] theorem State.setArg0_outLen (v : DWord) : (s.setArg0 v).outLen = s.outLen := rfl
@[simp] theorem State.setArg0_arg0 (v : DWord) : (s.setArg0 v).arg0 = v := rfl
@[simp] theorem State.setArg0_arg1 (v : DWord) : (s.setArg0 v).arg1 = s.arg1 := rfl
@[simp] theorem State.setArg0_res (v : DWord) : (s.setArg0 v).res = s.res := rfl
@[simp] theorem State.setArg0_outSplit (v : DWord) : (s.setArg0 v).outSplit = s.outSplit := rfl
@[simp] theorem State.setArg0_cmd (v : DWord) : (s.setArg0 v).cmd = s.cmd := rfl
@[simp] theorem State.setArg0_status (v : DWord) : (s.setArg0 v).status = s.status := rfl
@[simp] theorem State.setArg0_buf (v : DWord) : (s.setArg0 v).buf = s.buf := rfl
@[simp] theorem State.setArg0_bus (v : DWord) : (s.setArg0 v).bus = s.bus := rfl
@[simp] theorem State.setArg0_readData (v : DWord) : (s.setArg0 v).readData = s.readData := rfl
@[simp] theorem State.setArg0_draws (v : DWord) : (s.setArg0 v).draws = s.draws := rfl
@[simp] theorem State.setArg0_epoch (v : DWord) : (s.setArg0 v).epoch = s.epoch := rfl

@[simp] theorem State.setArg1_cfg (v : DWord) : (s.setArg1 v).cfg = s.cfg := rfl
@[simp] theorem State.setArg1_inWin (v : DWord) : (s.setArg1 v).inWin = s.inWin := rfl
@[simp] theorem State.setArg1_inLen (v : DWord) : (s.setArg1 v).inLen = s.inLen := rfl
@[simp] theorem State.setArg1_outWin (v : DWord) : (s.setArg1 v).outWin = s.outWin := rfl
@[simp] theorem State.setArg1_outLen (v : DWord) : (s.setArg1 v).outLen = s.outLen := rfl
@[simp] theorem State.setArg1_arg0 (v : DWord) : (s.setArg1 v).arg0 = s.arg0 := rfl
@[simp] theorem State.setArg1_arg1 (v : DWord) : (s.setArg1 v).arg1 = v := rfl
@[simp] theorem State.setArg1_res (v : DWord) : (s.setArg1 v).res = s.res := rfl
@[simp] theorem State.setArg1_outSplit (v : DWord) : (s.setArg1 v).outSplit = s.outSplit := rfl
@[simp] theorem State.setArg1_cmd (v : DWord) : (s.setArg1 v).cmd = s.cmd := rfl
@[simp] theorem State.setArg1_status (v : DWord) : (s.setArg1 v).status = s.status := rfl
@[simp] theorem State.setArg1_buf (v : DWord) : (s.setArg1 v).buf = s.buf := rfl
@[simp] theorem State.setArg1_bus (v : DWord) : (s.setArg1 v).bus = s.bus := rfl
@[simp] theorem State.setArg1_readData (v : DWord) : (s.setArg1 v).readData = s.readData := rfl
@[simp] theorem State.setArg1_draws (v : DWord) : (s.setArg1 v).draws = s.draws := rfl
@[simp] theorem State.setArg1_epoch (v : DWord) : (s.setArg1 v).epoch = s.epoch := rfl

@[simp] theorem State.setOut_cfg (m : Memory) (n : Word) : (s.setOut m n).cfg = s.cfg := rfl
@[simp] theorem State.setOut_inWin (m : Memory) (n : Word) : (s.setOut m n).inWin = s.inWin := rfl
@[simp] theorem State.setOut_inLen (m : Memory) (n : Word) : (s.setOut m n).inLen = s.inLen := rfl
@[simp] theorem State.setOut_outWin (m : Memory) (n : Word) : (s.setOut m n).outWin = m := rfl
@[simp] theorem State.setOut_outLen (m : Memory) (n : Word) : (s.setOut m n).outLen = n := rfl
@[simp] theorem State.setOut_arg0 (m : Memory) (n : Word) : (s.setOut m n).arg0 = s.arg0 := rfl
@[simp] theorem State.setOut_arg1 (m : Memory) (n : Word) : (s.setOut m n).arg1 = s.arg1 := rfl
@[simp] theorem State.setOut_res (m : Memory) (n : Word) : (s.setOut m n).res = s.res := rfl
@[simp] theorem State.setOut_outSplit (m : Memory) (n : Word) : (s.setOut m n).outSplit = s.outSplit := rfl
@[simp] theorem State.setOut_cmd (m : Memory) (n : Word) : (s.setOut m n).cmd = s.cmd := rfl
@[simp] theorem State.setOut_status (m : Memory) (n : Word) : (s.setOut m n).status = s.status := rfl
@[simp] theorem State.setOut_buf (m : Memory) (n : Word) : (s.setOut m n).buf = s.buf := rfl
@[simp] theorem State.setOut_bus (m : Memory) (n : Word) : (s.setOut m n).bus = s.bus := rfl
@[simp] theorem State.setOut_readData (m : Memory) (n : Word) : (s.setOut m n).readData = s.readData := rfl
@[simp] theorem State.setOut_draws (m : Memory) (n : Word) : (s.setOut m n).draws = s.draws := rfl
@[simp] theorem State.setOut_epoch (m : Memory) (n : Word) : (s.setOut m n).epoch = s.epoch := rfl

@[simp] theorem State.setRes_cfg (v : DWord) : (s.setRes v).cfg = s.cfg := rfl
@[simp] theorem State.setRes_inWin (v : DWord) : (s.setRes v).inWin = s.inWin := rfl
@[simp] theorem State.setRes_inLen (v : DWord) : (s.setRes v).inLen = s.inLen := rfl
@[simp] theorem State.setRes_outWin (v : DWord) : (s.setRes v).outWin = s.outWin := rfl
@[simp] theorem State.setRes_outLen (v : DWord) : (s.setRes v).outLen = s.outLen := rfl
@[simp] theorem State.setRes_arg0 (v : DWord) : (s.setRes v).arg0 = s.arg0 := rfl
@[simp] theorem State.setRes_arg1 (v : DWord) : (s.setRes v).arg1 = s.arg1 := rfl
@[simp] theorem State.setRes_res (v : DWord) : (s.setRes v).res = v := rfl
@[simp] theorem State.setRes_outSplit (v : DWord) : (s.setRes v).outSplit = s.outSplit := rfl
@[simp] theorem State.setRes_cmd (v : DWord) : (s.setRes v).cmd = s.cmd := rfl
@[simp] theorem State.setRes_status (v : DWord) : (s.setRes v).status = s.status := rfl
@[simp] theorem State.setRes_buf (v : DWord) : (s.setRes v).buf = s.buf := rfl
@[simp] theorem State.setRes_bus (v : DWord) : (s.setRes v).bus = s.bus := rfl
@[simp] theorem State.setRes_readData (v : DWord) : (s.setRes v).readData = s.readData := rfl
@[simp] theorem State.setRes_draws (v : DWord) : (s.setRes v).draws = s.draws := rfl
@[simp] theorem State.setRes_epoch (v : DWord) : (s.setRes v).epoch = s.epoch := rfl

@[simp] theorem State.setOutSplit_cfg (w : Word) : (s.setOutSplit w).cfg = s.cfg := rfl
@[simp] theorem State.setOutSplit_inWin (w : Word) : (s.setOutSplit w).inWin = s.inWin := rfl
@[simp] theorem State.setOutSplit_inLen (w : Word) : (s.setOutSplit w).inLen = s.inLen := rfl
@[simp] theorem State.setOutSplit_outWin (w : Word) : (s.setOutSplit w).outWin = s.outWin := rfl
@[simp] theorem State.setOutSplit_outLen (w : Word) : (s.setOutSplit w).outLen = s.outLen := rfl
@[simp] theorem State.setOutSplit_arg0 (w : Word) : (s.setOutSplit w).arg0 = s.arg0 := rfl
@[simp] theorem State.setOutSplit_arg1 (w : Word) : (s.setOutSplit w).arg1 = s.arg1 := rfl
@[simp] theorem State.setOutSplit_res (w : Word) : (s.setOutSplit w).res = s.res := rfl
@[simp] theorem State.setOutSplit_outSplit (w : Word) : (s.setOutSplit w).outSplit = w := rfl
@[simp] theorem State.setOutSplit_cmd (w : Word) : (s.setOutSplit w).cmd = s.cmd := rfl
@[simp] theorem State.setOutSplit_status (w : Word) : (s.setOutSplit w).status = s.status := rfl
@[simp] theorem State.setOutSplit_buf (w : Word) : (s.setOutSplit w).buf = s.buf := rfl
@[simp] theorem State.setOutSplit_bus (w : Word) : (s.setOutSplit w).bus = s.bus := rfl
@[simp] theorem State.setOutSplit_readData (w : Word) : (s.setOutSplit w).readData = s.readData := rfl
@[simp] theorem State.setOutSplit_draws (w : Word) : (s.setOutSplit w).draws = s.draws := rfl
@[simp] theorem State.setOutSplit_epoch (w : Word) : (s.setOutSplit w).epoch = s.epoch := rfl

@[simp] theorem State.setBuf_cfg (b : Buffer) : (s.setBuf b).cfg = s.cfg := rfl
@[simp] theorem State.setBuf_inWin (b : Buffer) : (s.setBuf b).inWin = s.inWin := rfl
@[simp] theorem State.setBuf_inLen (b : Buffer) : (s.setBuf b).inLen = s.inLen := rfl
@[simp] theorem State.setBuf_outWin (b : Buffer) : (s.setBuf b).outWin = s.outWin := rfl
@[simp] theorem State.setBuf_outLen (b : Buffer) : (s.setBuf b).outLen = s.outLen := rfl
@[simp] theorem State.setBuf_arg0 (b : Buffer) : (s.setBuf b).arg0 = s.arg0 := rfl
@[simp] theorem State.setBuf_arg1 (b : Buffer) : (s.setBuf b).arg1 = s.arg1 := rfl
@[simp] theorem State.setBuf_res (b : Buffer) : (s.setBuf b).res = s.res := rfl
@[simp] theorem State.setBuf_outSplit (b : Buffer) : (s.setBuf b).outSplit = s.outSplit := rfl
@[simp] theorem State.setBuf_cmd (b : Buffer) : (s.setBuf b).cmd = s.cmd := rfl
@[simp] theorem State.setBuf_status (b : Buffer) : (s.setBuf b).status = s.status := rfl
@[simp] theorem State.setBuf_buf (b : Buffer) : (s.setBuf b).buf = b := rfl
@[simp] theorem State.setBuf_bus (b : Buffer) : (s.setBuf b).bus = s.bus := rfl
@[simp] theorem State.setBuf_readData (b : Buffer) : (s.setBuf b).readData = s.readData := rfl
@[simp] theorem State.setBuf_draws (b : Buffer) : (s.setBuf b).draws = s.draws := rfl
@[simp] theorem State.setBuf_epoch (b : Buffer) : (s.setBuf b).epoch = s.epoch := rfl

@[simp] theorem State.setBus_cfg (q : List Access) : (s.setBus q).cfg = s.cfg := rfl
@[simp] theorem State.setBus_inWin (q : List Access) : (s.setBus q).inWin = s.inWin := rfl
@[simp] theorem State.setBus_inLen (q : List Access) : (s.setBus q).inLen = s.inLen := rfl
@[simp] theorem State.setBus_outWin (q : List Access) : (s.setBus q).outWin = s.outWin := rfl
@[simp] theorem State.setBus_outLen (q : List Access) : (s.setBus q).outLen = s.outLen := rfl
@[simp] theorem State.setBus_arg0 (q : List Access) : (s.setBus q).arg0 = s.arg0 := rfl
@[simp] theorem State.setBus_arg1 (q : List Access) : (s.setBus q).arg1 = s.arg1 := rfl
@[simp] theorem State.setBus_res (q : List Access) : (s.setBus q).res = s.res := rfl
@[simp] theorem State.setBus_outSplit (q : List Access) : (s.setBus q).outSplit = s.outSplit := rfl
@[simp] theorem State.setBus_cmd (q : List Access) : (s.setBus q).cmd = s.cmd := rfl
@[simp] theorem State.setBus_status (q : List Access) : (s.setBus q).status = s.status := rfl
@[simp] theorem State.setBus_buf (q : List Access) : (s.setBus q).buf = s.buf := rfl
@[simp] theorem State.setBus_bus (q : List Access) : (s.setBus q).bus = q := rfl
@[simp] theorem State.setBus_readData (q : List Access) : (s.setBus q).readData = s.readData := rfl
@[simp] theorem State.setBus_draws (q : List Access) : (s.setBus q).draws = s.draws := rfl
@[simp] theorem State.setBus_epoch (q : List Access) : (s.setBus q).epoch = s.epoch := rfl

@[simp] theorem State.returnRead_cfg (v : DWord) : (s.returnRead v).cfg = s.cfg := rfl
@[simp] theorem State.returnRead_inWin (v : DWord) : (s.returnRead v).inWin = s.inWin := rfl
@[simp] theorem State.returnRead_inLen (v : DWord) : (s.returnRead v).inLen = s.inLen := rfl
@[simp] theorem State.returnRead_outWin (v : DWord) : (s.returnRead v).outWin = s.outWin := rfl
@[simp] theorem State.returnRead_outLen (v : DWord) : (s.returnRead v).outLen = s.outLen := rfl
@[simp] theorem State.returnRead_arg0 (v : DWord) : (s.returnRead v).arg0 = s.arg0 := rfl
@[simp] theorem State.returnRead_arg1 (v : DWord) : (s.returnRead v).arg1 = s.arg1 := rfl
@[simp] theorem State.returnRead_res (v : DWord) : (s.returnRead v).res = s.res := rfl
@[simp] theorem State.returnRead_outSplit (v : DWord) : (s.returnRead v).outSplit = s.outSplit := rfl
@[simp] theorem State.returnRead_cmd (v : DWord) : (s.returnRead v).cmd = s.cmd := rfl
@[simp] theorem State.returnRead_status (v : DWord) : (s.returnRead v).status = s.status := rfl
@[simp] theorem State.returnRead_buf (v : DWord) : (s.returnRead v).buf = s.buf := rfl
@[simp] theorem State.returnRead_bus (v : DWord) : (s.returnRead v).bus = s.bus := rfl
@[simp] theorem State.returnRead_readData (v : DWord) : (s.returnRead v).readData = v := rfl
@[simp] theorem State.returnRead_draws (v : DWord) : (s.returnRead v).draws = s.draws := rfl
@[simp] theorem State.returnRead_epoch (v : DWord) : (s.returnRead v).epoch = s.epoch := rfl

@[simp] theorem State.returnDraw_cfg : (s.returnDraw).cfg = s.cfg := rfl
@[simp] theorem State.returnDraw_inWin : (s.returnDraw).inWin = s.inWin := rfl
@[simp] theorem State.returnDraw_inLen : (s.returnDraw).inLen = s.inLen := rfl
@[simp] theorem State.returnDraw_outWin : (s.returnDraw).outWin = s.outWin := rfl
@[simp] theorem State.returnDraw_outLen : (s.returnDraw).outLen = s.outLen := rfl
@[simp] theorem State.returnDraw_arg0 : (s.returnDraw).arg0 = s.arg0 := rfl
@[simp] theorem State.returnDraw_arg1 : (s.returnDraw).arg1 = s.arg1 := rfl
@[simp] theorem State.returnDraw_res : (s.returnDraw).res = s.res := rfl
@[simp] theorem State.returnDraw_outSplit : (s.returnDraw).outSplit = s.outSplit := rfl
@[simp] theorem State.returnDraw_cmd : (s.returnDraw).cmd = s.cmd := rfl
@[simp] theorem State.returnDraw_status : (s.returnDraw).status = s.status := rfl
@[simp] theorem State.returnDraw_buf : (s.returnDraw).buf = s.buf := rfl
@[simp] theorem State.returnDraw_bus : (s.returnDraw).bus = s.bus := rfl
@[simp] theorem State.returnDraw_readData : (s.returnDraw).readData = (Config.freeByte s.draws).setWidth 64 := rfl
@[simp] theorem State.returnDraw_draws : (s.returnDraw).draws = s.draws + 1 := rfl
@[simp] theorem State.returnDraw_epoch : (s.returnDraw).epoch = s.epoch := rfl

@[simp] theorem failCommand_cfg (op : Byte) (c : Cause) : (failCommand op c s).cfg = s.cfg := rfl
@[simp] theorem failCommand_inWin (op : Byte) (c : Cause) : (failCommand op c s).inWin = s.inWin := rfl
@[simp] theorem failCommand_inLen (op : Byte) (c : Cause) : (failCommand op c s).inLen = s.inLen := rfl
@[simp] theorem failCommand_outWin (op : Byte) (c : Cause) : (failCommand op c s).outWin = s.outWin := rfl
@[simp] theorem failCommand_outLen (op : Byte) (c : Cause) : (failCommand op c s).outLen = s.outLen := rfl
@[simp] theorem failCommand_arg0 (op : Byte) (c : Cause) : (failCommand op c s).arg0 = s.arg0 := rfl
@[simp] theorem failCommand_arg1 (op : Byte) (c : Cause) : (failCommand op c s).arg1 = s.arg1 := rfl
@[simp] theorem failCommand_res (op : Byte) (c : Cause) : (failCommand op c s).res = s.res := rfl
@[simp] theorem failCommand_outSplit (op : Byte) (c : Cause) : (failCommand op c s).outSplit = s.outSplit := rfl
@[simp] theorem failCommand_cmd (op : Byte) (c : Cause) : (failCommand op c s).cmd = s.cmd := rfl
@[simp] theorem failCommand_status (op : Byte) (c : Cause) : (failCommand op c s).status = failStatus op c := rfl
@[simp] theorem failCommand_buf (op : Byte) (c : Cause) : (failCommand op c s).buf = s.buf := rfl
@[simp] theorem failCommand_bus (op : Byte) (c : Cause) : (failCommand op c s).bus = s.bus := rfl
@[simp] theorem failCommand_readData (op : Byte) (c : Cause) : (failCommand op c s).readData = s.readData := rfl
@[simp] theorem failCommand_draws (op : Byte) (c : Cause) : (failCommand op c s).draws = s.draws := rfl
@[simp] theorem failCommand_epoch (op : Byte) (c : Cause) : (failCommand op c s).epoch = s.epoch := rfl

@[simp] theorem commitCommand_cfg (op : Byte) : (commitCommand op s).cfg = s.cfg := rfl
@[simp] theorem commitCommand_inWin (op : Byte) : (commitCommand op s).inWin = s.inWin := rfl
@[simp] theorem commitCommand_inLen (op : Byte) : (commitCommand op s).inLen = s.inLen := rfl
@[simp] theorem commitCommand_outWin (op : Byte) : (commitCommand op s).outWin = s.outWin := rfl
@[simp] theorem commitCommand_outLen (op : Byte) : (commitCommand op s).outLen = s.outLen := rfl
@[simp] theorem commitCommand_arg0 (op : Byte) : (commitCommand op s).arg0 = s.arg0 := rfl
@[simp] theorem commitCommand_arg1 (op : Byte) : (commitCommand op s).arg1 = s.arg1 := rfl
@[simp] theorem commitCommand_res (op : Byte) : (commitCommand op s).res = s.res := rfl
@[simp] theorem commitCommand_outSplit (op : Byte) : (commitCommand op s).outSplit = s.outSplit := rfl
@[simp] theorem commitCommand_cmd (op : Byte) : (commitCommand op s).cmd = s.cmd := rfl
@[simp] theorem commitCommand_status (op : Byte) : (commitCommand op s).status = okStatus op := rfl
@[simp] theorem commitCommand_buf (op : Byte) : (commitCommand op s).buf = s.buf := rfl
@[simp] theorem commitCommand_bus (op : Byte) : (commitCommand op s).bus = s.bus := rfl
@[simp] theorem commitCommand_readData (op : Byte) : (commitCommand op s).readData = s.readData := rfl
@[simp] theorem commitCommand_draws (op : Byte) : (commitCommand op s).draws = s.draws := rfl
@[simp] theorem commitCommand_epoch (op : Byte) : (commitCommand op s).epoch = s.epoch := rfl

@[simp] theorem platformReset_cfg : (platformReset s).cfg = s.cfg := rfl
@[simp] theorem platformReset_inWin : (platformReset s).inWin = [] := rfl
@[simp] theorem platformReset_inLen : (platformReset s).inLen = 0 := rfl
@[simp] theorem platformReset_outWin : (platformReset s).outWin = [] := rfl
@[simp] theorem platformReset_outLen : (platformReset s).outLen = 0 := rfl
@[simp] theorem platformReset_arg0 : (platformReset s).arg0 = 0 := rfl
@[simp] theorem platformReset_arg1 : (platformReset s).arg1 = 0 := rfl
@[simp] theorem platformReset_res : (platformReset s).res = 0 := rfl
@[simp] theorem platformReset_outSplit : (platformReset s).outSplit = 0 := rfl
@[simp] theorem platformReset_cmd : (platformReset s).cmd = 0 := rfl
@[simp] theorem platformReset_status : (platformReset s).status = 0 := rfl
@[simp] theorem platformReset_buf : (platformReset s).buf = Buffer.empty := rfl
@[simp] theorem platformReset_bus : (platformReset s).bus = s.bus := rfl
@[simp] theorem platformReset_readData : (platformReset s).readData = s.readData := rfl
@[simp] theorem platformReset_draws : (platformReset s).draws = s.draws := rfl
@[simp] theorem platformReset_epoch : (platformReset s).epoch = s.epoch + 1 := rfl

theorem commitCommand_eq (op : Byte) (t : State) : commitCommand op t = t.setStatus (okStatus op) := rfl

theorem failCommand_eq (op : Byte) (c : Cause) : failCommand op c s = s.setStatus (failStatus op c) := rfl

/-! ### What the host reads in the windows -/

@[simp] theorem State.setBus_inAt (q : List Access) (k : Nat) : (s.setBus q).inAt k = s.inAt k := rfl
@[simp] theorem State.setBus_outAt (q : List Access) (k : Nat) : (s.setBus q).outAt k = s.outAt k := rfl
@[simp] theorem State.returnRead_inAt (v : DWord) (k : Nat) : (s.returnRead v).inAt k = s.inAt k := rfl
@[simp] theorem State.returnRead_outAt (v : DWord) (k : Nat) : (s.returnRead v).outAt k = s.outAt k := rfl

theorem State.inAt_of_some {s : State} {k : Nat} {b : Byte} (h : s.inWin.lookup k = some b) : s.inAt k = b := by
  rw [State.inAt, h, Option.getD_some]

theorem State.outAt_of_some {s : State} {k : Nat} {b : Byte} (h : s.outWin.lookup k = some b) : s.outAt k = b := by
  rw [State.outAt, h, Option.getD_some]

end Sys2Proof.Machine
end

