-- ==== Sys2Proof/Laws/Ops.lean ====
section
/-! SUPPORT. What each shared operation does, said once: raising and committing, reading INSEQ, `Emit`, growth, the mode check, and
the buffer's reads and writes. -/

namespace Sys2Proof.Machine

/-! ### Raising and committing -/

@[simp] theorem ok_bind {α β : Type} (x : α) (f : α → Except Stop β) : (Except.ok x >>= f) = f x := rfl

@[simp] theorem error_bind {α β : Type} (e : Stop) (f : α → Except Stop β) :
    ((Except.error e : Except Stop α) >>= f) = .error e := rfl

@[simp] theorem pure_eq_ok {α : Type} (x : α) : (pure x : Except Stop α) = .ok x := rfl

theorem raiseIf_true {bad : Prop} [Decidable bad] (c : Cause) (h : bad) : raiseIf bad c = .error (.cause c) := if_pos h

theorem raiseIf_false {bad : Prop} [Decidable bad] (c : Cause) (h : ¬ bad) : raiseIf bad c = .ok () := if_neg h

@[simp] theorem orRaise_some {α : Type} (x : α) (c : Cause) : orRaise (some x) c = .ok x := rfl

@[simp] theorem orRaise_none {α : Type} (c : Cause) : orRaise (none : Option α) c = .error (.cause c) := rfl

/-- From a bind that succeeds, both parts succeed. -/
theorem bind_eq_ok {α β : Type} {x : Except Stop α} {f : α → Except Stop β} {y : β} :
    (x >>= f) = .ok y ↔ ∃ a, x = .ok a ∧ f a = .ok y := by
  cases x with
  | ok a => simp
  | error e => simp

theorem raiseIf_eq_ok {bad : Prop} [Decidable bad] {c : Cause} {u : Unit} : raiseIf bad c = .ok u ↔ ¬ bad := by
  unfold raiseIf
  split <;> simp_all

theorem orRaise_eq_ok {α : Type} {o : Option α} {c : Cause} {x : α} : orRaise o c = .ok x ↔ o = some x := by
  cases o <;> simp

@[simp] theorem runCommand_ok (i : Instr) (s t : State) :
    runCommand i s (.ok t) = .next (commitCommand i.opcode t) := rfl

@[simp] theorem runCommand_cause (i : Instr) (s : State) (c : Cause) :
    runCommand i s (.error (.cause c)) = .next (failCommand i.opcode c s) := rfl

@[simp] theorem runCommand_unwritten (i : Instr) (s : State) :
    runCommand i s (.error .unwritten) = .fault (.unwrittenInput i) := rfl

/-- Everything a command can do: commit a state its pseudocode reached, report one error, or fault on unwritten input. -/
theorem runCommand_cases {i : Instr} {s t : State} {r : Except Stop State} (h : runCommand i s r = .next t) :
    (∃ u, r = .ok u ∧ t = commitCommand i.opcode u) ∨ (∃ c, r = .error (.cause c) ∧ t = failCommand i.opcode c s) := by
  match r, h with
  | .ok u, h => exact .inl ⟨u, rfl, by simpa [eq_comm] using h⟩
  | .error (.cause c), h => exact .inr ⟨c, rfl, by simpa [eq_comm] using h⟩
  | .error .unwritten, h => simp at h

theorem statusOf_toNat (lastOp cause : Byte) (cls : BitVec 3) (err busy : BitVec 1) :
    (statusOf lastOp cause cls err busy).toNat
      = lastOp.toNat * 2 ^ 16 + cause.toNat * 2 ^ 8 + cls.toNat * 2 ^ 2 + err.toNat * 2 + busy.toNat := by
  have h1 := lastOp.isLt
  have h2 := cause.isLt
  have h3 := cls.isLt
  have h4 := err.isLt
  have h5 := busy.isLt
  have z8 : (0 : BitVec 8).toNat = 0 := rfl
  have z3 : (0 : BitVec 3).toNat = 0 := rfl
  simp only [statusOf, BitVec.toNat_append, z8, z3]
  rw [← Nat.shiftLeft_add_eq_or_of_lt h5, ← Nat.shiftLeft_add_eq_or_of_lt h4, ← Nat.shiftLeft_add_eq_or_of_lt h3,
    ← Nat.shiftLeft_add_eq_or_of_lt (by norm_num), ← Nat.shiftLeft_add_eq_or_of_lt h2, ← Nat.shiftLeft_add_eq_or_of_lt h1]
  simp only [Nat.shiftLeft_eq]
  omega

/-- The success STATUS in the form of the claims. -/
theorem okStatus_eq (op : Byte) : okStatus op = okWord op.toNat := by
  apply BitVec.eq_of_toNat_eq
  have := op.isLt
  rw [okStatus, statusOf_toNat, okWord, BitVec.toNat_ofNat]
  rw [show (0 : Byte).toNat = 0 from rfl, show (0 : BitVec 3).toNat = 0 from rfl, show (0 : BitVec 1).toNat = 0 from rfl]
  omega

/-- The failure STATUS in the form of the claims. -/
theorem failStatus_eq (op : Byte) (c : Cause) :
    failStatus op c = failWord op.toNat c.errClass.code.toNat c.code.toNat := by
  apply BitVec.eq_of_toNat_eq
  have h1 := op.isLt
  have h2 := c.code.isLt
  have h3 := c.errClass.code.isLt
  rw [failStatus, statusOf_toNat, failWord, BitVec.toNat_ofNat]
  rw [show (1 : BitVec 1).toNat = 1 from rfl, show (0 : BitVec 1).toNat = 0 from rfl]
  omega

/-- The fields of a STATUS word put together from them (R29). -/
theorem statusOf_fields (lastOp cause : Byte) (cls : BitVec 3) (err busy : BitVec 1) :
    statusLastOp (statusOf lastOp cause cls err busy) = lastOp ∧ statusCause (statusOf lastOp cause cls err busy) = cause
      ∧ statusClass (statusOf lastOp cause cls err busy) = cls ∧ statusErr (statusOf lastOp cause cls err busy) = err
      ∧ statusBusy (statusOf lastOp cause cls err busy) = busy := by
  have h := statusOf_toNat lastOp cause cls err busy
  have h1 := lastOp.isLt
  have h2 := cause.isLt
  have h3 := cls.isLt
  have h4 := err.isLt
  have h5 := busy.isLt
  refine ⟨?_, ?_, ?_, ?_, ?_⟩ <;> apply BitVec.eq_of_toNat_eq <;>
    simp only [statusLastOp, statusCause, statusClass, statusErr, statusBusy, BitVec.extractLsb'_toNat, h,
      Nat.shiftRight_eq_div_pow] <;> omega

/-- The reserved bits of a STATUS word are 0 (R29). -/
theorem statusOf_reserved (lastOp cause : Byte) (cls : BitVec 3) (err busy : BitVec 1) :
    (statusOf lastOp cause cls err busy).extractLsb' 5 3 = 0 ∧ (statusOf lastOp cause cls err busy).extractLsb' 24 8 = 0 := by
  have h := statusOf_toNat lastOp cause cls err busy
  have h1 := lastOp.isLt
  have h2 := cause.isLt
  have h3 := cls.isLt
  have h4 := err.isLt
  have h5 := busy.isLt
  have z8 : (0 : BitVec 8).toNat = 0 := rfl
  have z3 : (0 : BitVec 3).toNat = 0 := rfl
  refine ⟨?_, ?_⟩ <;> apply BitVec.eq_of_toNat_eq <;>
    simp only [BitVec.extractLsb'_toNat, h, Nat.shiftRight_eq_div_pow, z3, z8] <;> omega

theorem statusErr_failStatus (op : Byte) (c : Cause) : statusErr (failStatus op c) = 1 :=
  (statusOf_fields _ _ _ _ _).2.2.2.1

theorem statusErr_okStatus (op : Byte) : statusErr (okStatus op) = 0 := (statusOf_fields _ _ _ _ _).2.2.2.1

theorem fails_of_error {i : Instr} {s : State} {c : Cause} {r : Except Stop State} (he : exec i s = runCommand i s r)
    (hr : r = .error (.cause c)) : Fails i s i.opcode.toNat c.errClass.code.toNat c.code.toNat := by
  rw [Fails, he, hr, runCommand_cause, failCommand_eq, failStatus_eq]

theorem sameOperands_refl (s : State) : SameOperands s s := ⟨rfl, rfl, rfl, rfl, rfl, rfl, rfl, rfl, rfl, rfl⟩

theorem completes_of_ok {i : Instr} {s t : State} {r : Except Stop State} {P : State → Prop}
    (he : exec i s = runCommand i s r) (hr : r = .ok t) (hs : SameOperands s t) (hP : P (commitCommand i.opcode t)) :
    Completes i s i.opcode.toNat P :=
  ⟨commitCommand i.opcode t, by rw [he, hr, runCommand_ok], by rw [commitCommand_status, okStatus_eq], hs, hP⟩

/-! ### INSEQ -/

theorem needIn_ok {s : State} (h : s.inLen.toNat ≤ s.cfg.inCap) : needIn s = .ok () := raiseIf_false _ (by omega)

theorem needIn_error {s : State} (h : s.cfg.inCap < s.inLen.toNat) : needIn s = .error (.cause .inLength) :=
  raiseIf_true _ h

theorem needIn_eq_ok {s : State} {u : Unit} : needIn s = .ok u ↔ s.inLen.toNat ≤ s.cfg.inCap := by
  rw [needIn, raiseIf_eq_ok]; omega

/-- The cells of a written slice. -/
theorem inCells_eq {s : State} {lo : Nat} {b : List Byte} (h : ∀ k < b.length, s.inWin.lookup (lo + k) = b[k]?) :
    inCells s lo b.length = b.map some := by
  apply List.ext_getElem?
  intro k
  by_cases hk : k < b.length
  · simp [inCells, hk, h k hk]
  · simp [inCells, hk]

/-- Scanning written cells: the bytes, or the cause of the first byte that fails the check. -/
theorem scanCells_some (check : Byte → Option Cause) (b : List Byte) :
    scanCells check (b.map some) = match b.findSome? check with | none => .ok b | some c => .error (.cause c) := by
  induction b with
  | nil => rfl
  | cons x b ih =>
    simp only [List.map_cons, scanCells, List.findSome?_cons]
    cases check x with
    | some c => rfl
    | none => rw [ih]; cases b.findSome? check <;> rfl

theorem scanCells_none (b : List Byte) : scanCells (fun _ => none) (b.map some) = .ok b := by
  rw [scanCells_some]
  have : b.findSome? (fun _ => (none : Option Cause)) = none := by simp
  rw [this]

theorem scanCells_refuse_ok {bad : Byte → Bool} {c : Cause} {b : List Byte} (h : ∀ x ∈ b, bad x = false) :
    scanCells (refuse bad c) (b.map some) = .ok b := by
  rw [scanCells_some]
  have : b.findSome? (refuse bad c) = none := by simpa [List.findSome?_eq_none_iff, refuse] using h
  rw [this]

theorem scanCells_refuse_error {bad : Byte → Bool} {c : Cause} {b : List Byte} (h : ∃ x ∈ b, bad x = true) :
    scanCells (refuse bad c) (b.map some) = .error (.cause c) := by
  induction b with
  | nil => simp at h
  | cons x b ih =>
    by_cases hx : bad x = true
    · simp [scanCells, refuse, hx]
    · have := ih (by simpa [hx] using h)
      have hr : refuse bad c x = none := if_neg hx
      simp only [List.map_cons, scanCells, hr, this]

/-- What a scan that succeeds has read. -/
theorem scanCells_eq_ok {check : Byte → Option Cause} {l : List (Option Byte)} {b : List Byte}
    (h : scanCells check l = .ok b) : l = b.map some ∧ ∀ x ∈ b, check x = none := by
  induction l generalizing b with
  | nil => simp only [scanCells, Except.ok.injEq] at h; subst h; simp
  | cons o l ih =>
    cases o with
    | none => simp [scanCells] at h
    | some x =>
      simp only [scanCells] at h
      split at h
      · simp at h
      · next hx =>
        split at h
        · next bs hbs =>
          simp only [Except.ok.injEq] at h
          subst h
          have ⟨h1, h2⟩ := ih hbs
          exact ⟨by rw [h1, List.map_cons], by simpa [hx] using h2⟩
        · simp at h

theorem inCells_getElem? {s : State} {lo n j : Nat} (h : j < n) :
    (inCells s lo n)[j]? = some (s.inWin.lookup (lo + j)) := by simp [inCells, h]

/-- An unwritten cell stops the scan where every cell before it is written and passes the check (U1). -/
theorem scanCells_unwritten (check : Byte → Option Cause) (l : List (Option Byte)) (k : Nat) (h : l[k]? = some none)
    (hp : ∀ j < k, ∃ b, l[j]? = some (some b) ∧ check b = none) : scanCells check l = .error .unwritten := by
  induction l generalizing k with
  | nil => simp at h
  | cons o l ih =>
    cases k with
    | zero =>
      obtain rfl : o = none := by simpa using h
      rfl
    | succ k =>
      obtain ⟨b, hb, hc⟩ := hp 0 (by omega)
      obtain rfl : o = some b := by simpa using hb
      have := ih k (by simpa using h) fun j hj => by simpa using hp (j + 1) (by omega)
      simp [scanCells, this, hc]

@[simp] theorem inCells_length (s : State) (lo n : Nat) : (inCells s lo n).length = n := by simp [inCells]

theorem scanIn_length {s : State} {lo n : Nat} {bad : Byte → Bool} {c : Cause} {b : List Byte}
    (h : scanIn s lo n bad c = .ok b) : b.length = n := by
  have := congrArg List.length (scanCells_eq_ok h).1
  simpa using this.symm

theorem readIn_length {s : State} {lo n : Nat} {b : List Byte} (h : readIn s lo n = .ok b) : b.length = n := by
  have := congrArg List.length (scanCells_eq_ok h).1
  simpa using this.symm

theorem readIn_eq {s : State} {lo : Nat} {b : List Byte} (h : ∀ k < b.length, s.inWin.lookup (lo + k) = b[k]?) :
    readIn s lo b.length = .ok b := by rw [readIn, inCells_eq h, scanCells_none]

theorem readIn_of_inseqIs {s : State} {b : List Byte} (h : InseqIs s b) : readIn s 0 s.inLen.toNat = .ok b := by
  rw [h.1]
  exact readIn_eq (by simpa using h.2.2)

theorem inCells_of_inseqIs {s : State} {b : List Byte} (h : InseqIs s b) : inCells s 0 s.inLen.toNat = b.map some := by
  rw [h.1]
  exact inCells_eq (by simpa using h.2.2)

theorem inseqIs_le {s : State} {b : List Byte} (h : InseqIs s b) : s.inLen.toNat ≤ s.cfg.inCap := h.1 ▸ h.2.1

theorem needIn_of_inseqIs {s : State} {b : List Byte} (h : InseqIs s b) : needIn s = .ok () := needIn_ok (inseqIs_le h)

/-- A slice of INSEQ. -/
theorem readIn_slice {s : State} {b : List Byte} (h : InseqIs s b) (lo n : Nat) (hn : lo + n ≤ b.length) :
    readIn s lo n = .ok ((b.drop lo).take n) := by
  have hl : ((b.drop lo).take n).length = n := by simp; omega
  conv_lhs => rw [← hl]
  refine readIn_eq fun k hk => ?_
  rw [hl] at hk
  rw [h.2.2 _ (by omega), List.getElem?_take_of_lt hk, List.getElem?_drop]

theorem inCells_slice {s : State} {b : List Byte} (h : InseqIs s b) (lo n : Nat) (hn : lo + n ≤ b.length) :
    inCells s lo n = ((b.drop lo).take n).map some := by
  have hl : ((b.drop lo).take n).length = n := by simp; omega
  conv_lhs => rw [← hl]
  refine inCells_eq fun k hk => ?_
  rw [hl] at hk
  rw [h.2.2 _ (by omega), List.getElem?_take_of_lt hk, List.getElem?_drop]

theorem readInseq_of_inseqIs {s : State} {b : List Byte} (h : InseqIs s b) : readInseq s = .ok b := by
  simp [readInseq, needIn_of_inseqIs h, readIn_of_inseqIs h]

theorem readInseq_error {s : State} (h : s.cfg.inCap < s.inLen.toNat) : readInseq s = .error (.cause .inLength) := by
  simp [readInseq, needIn_error h]

/-! ### Emit -/

theorem emit_overflow {b : List Byte} {s : State} (h : s.cfg.outCap < b.length) :
    emit b s = .error (.cause .outOverflow) := by
  simp [emit, raiseIf_true _ h]

theorem emit_ok {b : List Byte} {s : State} (h : b.length ≤ s.cfg.outCap) :
    emit b s = .ok (s.setOut (s.outWin.insertRun 0 b) (BitVec.ofNat 32 b.length)) := by
  rw [emit, raiseIf_false _ (by omega)]
  rfl

theorem emit_eq_ok {b : List Byte} {s t : State} (h : emit b s = .ok t) :
    b.length ≤ s.cfg.outCap ∧ t = s.setOut (s.outWin.insertRun 0 b) (BitVec.ofNat 32 b.length) := by
  by_cases hb : s.cfg.outCap < b.length
  · rw [emit_overflow hb] at h; simp at h
  · have hb : b.length ≤ s.cfg.outCap := by omega
    rw [emit_ok hb] at h
    exact ⟨hb, by simpa [eq_comm] using h⟩

/-- What OUT holds after an emission. -/
theorem outIs_setOut {b : List Byte} (s : State) (h : b.length < 2 ^ 32) :
    OutIs (s.setOut (s.outWin.insertRun 0 b) (BitVec.ofNat 32 b.length)) b := by
  constructor
  · simp only [State.setOut_outLen, BitVec.toNat_ofNat]; exact Nat.mod_eq_of_lt h
  · intro k hk
    simp only [State.setOut_outWin, Memory.lookup_insertRun]
    rw [if_pos (by omega), Nat.sub_zero]

theorem lookup_setOut_above {b : List Byte} (s : State) (n : Word) {k : Nat} (h : b.length ≤ k) :
    (s.setOut (s.outWin.insertRun 0 b) n).outWin.lookup k = s.outWin.lookup k := by
  simp only [State.setOut_outWin, Memory.lookup_insertRun]
  rw [if_neg (by omega)]

theorem Config.Legal.outCap_lt {c : Config} (h : c.Legal) : c.outCap < 2 ^ 32 := by
  have := h.2.1.2; omega

/-- A command whose pseudocode ends in `Emit(b)`. -/
theorem yields_of_emit {i : Instr} {s : State} {b : List Byte} (hl : s.cfg.Legal)
    (he : exec i s = runCommand i s (emit b s)) : Yields i s i.opcode.toNat b := by
  constructor
  · intro h
    exact fails_of_error (c := .outOverflow) he (emit_overflow h)
  · intro h
    refine completes_of_ok he (emit_ok h) (sameOperands_refl s) ⟨?_, ?_, rfl, rfl, rfl⟩
    · have := Config.Legal.outCap_lt hl
      exact outIs_setOut s (by omega)
    · intro k hk
      exact lookup_setOut_above s (BitVec.ofNat 32 b.length) hk

/-! ### Byte Buffer -/

/-- What `ensureCapacity` does when it does not fail: the capacity grows to `grownCap`, and nothing else changes. -/
theorem ensureCapacity_ok {need : Nat} {s : State}
    (h : s.buf.pos.toNat + need ≤ s.cfg.bbMaxCap ∨ s.buf.pos.toNat + need ≤ s.buf.cap.toNat) :
    ensureCapacity need s = .ok (s.setBuf { s.buf with
      cap := BitVec.ofNat 32 (grownCap s.cfg.bbMaxCap s.buf.cap.toNat (s.buf.pos.toNat + need)) }) := by
  unfold ensureCapacity grownCap
  dsimp only
  by_cases hc : s.buf.pos.toNat + need > s.buf.cap.toNat
  · rw [if_pos hc, if_pos hc, raiseIf_false _ (by omega)]
    rfl
  · rw [if_neg hc, if_neg hc, BitVec.ofNat_toNat, BitVec.setWidth_eq]
    rfl

theorem ensureCapacity_error {need : Nat} {s : State} (h1 : s.cfg.bbMaxCap < s.buf.pos.toNat + need)
    (h2 : s.buf.cap.toNat < s.buf.pos.toNat + need) : ensureCapacity need s = .error (.cause .capacityExhausted) := by
  unfold ensureCapacity
  dsimp only
  rw [if_pos h2, raiseIf_true _ h1, error_bind]

theorem ensureCapacity_eq_ok {need : Nat} {s t : State} (h : ensureCapacity need s = .ok t) :
    (s.buf.pos.toNat + need ≤ s.cfg.bbMaxCap ∨ s.buf.pos.toNat + need ≤ s.buf.cap.toNat) ∧
    t = s.setBuf { s.buf with
      cap := BitVec.ofNat 32 (grownCap s.cfg.bbMaxCap s.buf.cap.toNat (s.buf.pos.toNat + need)) } := by
  by_cases hc : s.buf.pos.toNat + need ≤ s.cfg.bbMaxCap ∨ s.buf.pos.toNat + need ≤ s.buf.cap.toNat
  · rw [ensureCapacity_ok hc] at h
    exact ⟨hc, by simpa [eq_comm] using h⟩
  · rw [ensureCapacity_error (by omega) (by omega)] at h
    simp at h

theorem grownCap_le_max {m c n : Nat} (h : c ≤ m) : grownCap m c n ≤ m := by unfold grownCap; split <;> omega

theorem le_grownCap {m c n : Nat} (h : c ≤ m) : c ≤ grownCap m c n := by unfold grownCap; split <;> omega

theorem stop_le_grownCap {m c n : Nat} (h : n ≤ m) : n ≤ grownCap m c n := by unfold grownCap; split <;> omega

theorem checkMode_error {k : WriteMode} {s : State} (h : ModeConflict k s) :
    checkMode k s = .error (.cause .modeConflict) := raiseIf_true _ h

theorem checkMode_ok {k : WriteMode} {s : State} (h : ¬ ModeConflict k s) : checkMode k s = .ok () := raiseIf_false _ h

/-- `SetMode` in one record update. -/
theorem setMode_eq (k : WriteMode) (s : State) :
    setMode k s = s.setBuf { s.buf with mode := if s.buf.mode = .none then k else s.buf.mode } := by
  unfold setMode
  split
  · rfl
  · rfl

theorem readN_ok {n : Nat} {s : State} (h : s.buf.pos.toNat + n ≤ s.buf.cap.toNat) :
    readN n s = .ok (s.buf.store.storeSlice s.buf.pos.toNat n,
      s.setBuf { s.buf with pos := BitVec.ofNat 32 (s.buf.pos.toNat + n) }) := by
  rw [readN, raiseIf_false _ (by omega)]
  rfl

theorem readN_error {n : Nat} {s : State} (h : s.buf.cap.toNat < s.buf.pos.toNat + n) :
    readN n s = .error (.cause .readPastEnd) := by
  rw [readN, raiseIf_true _ h]
  rfl

theorem readN_eq_ok {n : Nat} {s : State} {p : List Byte × State} (h : readN n s = .ok p) :
    s.buf.pos.toNat + n ≤ s.buf.cap.toNat ∧ p = (s.buf.store.storeSlice s.buf.pos.toNat n,
      s.setBuf { s.buf with pos := BitVec.ofNat 32 (s.buf.pos.toNat + n) }) := by
  by_cases hc : s.buf.pos.toNat + n ≤ s.buf.cap.toNat
  · rw [readN_ok hc] at h
    exact ⟨hc, by simpa [eq_comm] using h⟩
  · rw [readN_error (by omega)] at h
    simp at h

end Sys2Proof.Machine
end

