-- ==== Sys2Proof/Laws/Exec.lean ====
section
/-! SUPPORT. What each command's pseudocode can do when it ends without an error, said once: the shapes from which frames and
invariants follow. -/

namespace Sys2Proof.Machine

/-- The pseudocode of each command. -/
def bodyOf (i : Instr) (s : State) : Except Stop State :=
  match i with
  | .hexenc => hexencBody s
  | .hexdec => hexdecBody s
  | .i2b o => emit (inOrder o (be32 s.arg0b32)) s
  | .l2b o => emit (inOrder o (be64 s.arg0)) s
  | .b2i o => b2iBody o s
  | .b2l o => b2lBody o s
  | .padp => padpBody s
  | .unpadp => unpadpBody s
  | .ascii => asciiBody s
  | .b58enc => b58encBody s
  | .b58dec => b58decBody s
  | .b64enc => b64encBody s
  | .b64uenc => b64uencBody s
  | .b64dec => b64decBody s
  | .b32enc => b32encBody s
  | .b32dec => b32decBody s
  | .to5 => to5Body s
  | .from5 => from5Body s
  | .bbnew => bbnewBody s
  | .bbcopy => bbcopyBody s
  | .bbreset => pure (s.setBuf Buffer.empty)
  | .bbgetpos => pure (s.setRes (s.buf.pos.zeroExtend 64))
  | .bbsetpos => bbsetposBody s
  | .bbtoout => emit (s.buf.store.storeSlice 0 s.buf.pos.toNat) s
  | .bbrd8 => readToRes 1 (fun r => (BitVec.ofNat 8 (beNat r)).signExtend 64) s
  | .bbrd16 => readToRes 2 (fun r => (BitVec.ofNat 16 (beNat r)).signExtend 64) s
  | .bbrdu16 => readToRes 2 (fun r => (BitVec.ofNat 16 (beNat r)).zeroExtend 64) s
  | .bbrd32 => readToRes 4 (fun r => (BitVec.ofNat 32 (beNat r)).signExtend 64) s
  | .bbrd64 => readToRes 8 (fun r => BitVec.ofNat 64 (beNat r)) s
  | .bbrdstr => bbrdstrBody s
  | .bbrdbytes => bbrdbytesBody s
  | .bbwr8 => byteWrite [s.arg0b8] s
  | .bbwr16 => byteWrite (be16 s.arg0b16) s
  | .bbwr32 => byteWrite (be32 s.arg0b32) s
  | .bbwr64 => byteWrite (be64 s.arg0) s
  | .bbwrstr => bbwrstrBody s
  | .bbwrbytes => bbwrbytesBody s
  | .bbwrbits => bbwrbitsBody s

/-- Every arm of the dispatcher runs its command's pseudocode to a commit or an error. -/
theorem exec_eq (i : Instr) (s : State) : exec i s = runCommand i s (bodyOf i s) := by
  cases i <;> rfl

/-! ### Inversion, family by family -/

theorem b2iBody_effect {o : ByteOrder} {s t : State} (h : b2iBody o s = .ok t) : ∃ v, t = s.setRes v := by
  obtain ⟨_, _, h⟩ := bind_eq_ok.1 h
  obtain ⟨_, _, h⟩ := bind_eq_ok.1 h
  obtain ⟨b, _, h⟩ := bind_eq_ok.1 h
  exact ⟨_, by simpa [eq_comm] using h⟩

theorem b2lBody_effect {o : ByteOrder} {s t : State} (h : b2lBody o s = .ok t) : ∃ v, t = s.setRes v := by
  obtain ⟨_, _, h⟩ := bind_eq_ok.1 h
  obtain ⟨_, _, h⟩ := bind_eq_ok.1 h
  obtain ⟨b, _, h⟩ := bind_eq_ok.1 h
  exact ⟨_, by simpa [eq_comm] using h⟩

/-- The commands whose only effect is one emission. -/
def emitsOnly : Instr → Bool
  | .hexenc | .hexdec | .i2b _ | .l2b _ | .padp | .unpadp | .ascii | .b58enc | .b58dec | .b64enc | .b64uenc | .b64dec
  | .b32enc | .to5 | .from5 | .bbtoout => true
  | .b32dec | .bbrdstr | .bbrdbytes
  | .b2i _ | .b2l _ | .bbnew | .bbcopy | .bbreset | .bbgetpos | .bbsetpos | .bbrd8 | .bbrd16 | .bbrdu16 | .bbrd32 | .bbrd64
  | .bbwr8 | .bbwr16 | .bbwr32 | .bbwr64 | .bbwrstr | .bbwrbytes | .bbwrbits => false

/-- A command that only emits ends in `Emit` of some bytes. -/
theorem bodyOf_emits {i : Instr} {s t : State} (hi : emitsOnly i = true) (h : bodyOf i s = .ok t) :
    ∃ b, emit b s = .ok t := by
  cases i <;> simp only [emitsOnly, Bool.false_eq_true] at hi <;> simp only [bodyOf] at h
  case hexenc => obtain ⟨b, _, h⟩ := bind_eq_ok.1 h; exact ⟨_, h⟩
  case hexdec =>
    obtain ⟨b, _, h⟩ := bind_eq_ok.1 h
    obtain ⟨_, _, h⟩ := bind_eq_ok.1 h
    obtain ⟨v, _, h⟩ := bind_eq_ok.1 h
    exact ⟨_, h⟩
  case i2b => exact ⟨_, h⟩
  case l2b => exact ⟨_, h⟩
  case padp =>
    obtain ⟨_, _, h⟩ := bind_eq_ok.1 h
    obtain ⟨_, _, h⟩ := bind_eq_ok.1 h
    obtain ⟨b, _, h⟩ := bind_eq_ok.1 h
    exact ⟨_, h⟩
  case unpadp =>
    obtain ⟨_, _, h⟩ := bind_eq_ok.1 h
    obtain ⟨_, _, h⟩ := bind_eq_ok.1 h
    obtain ⟨x, _, h⟩ := bind_eq_ok.1 h
    obtain ⟨_, _, h⟩ := bind_eq_ok.1 h
    obtain ⟨_, _, h⟩ := bind_eq_ok.1 h
    obtain ⟨b, _, h⟩ := bind_eq_ok.1 h
    exact ⟨_, h⟩
  case ascii =>
    obtain ⟨_, _, h⟩ := bind_eq_ok.1 h
    obtain ⟨b, _, h⟩ := bind_eq_ok.1 h
    exact ⟨_, h⟩
  case b58enc => obtain ⟨b, _, h⟩ := bind_eq_ok.1 h; exact ⟨_, h⟩
  case b58dec =>
    obtain ⟨_, _, h⟩ := bind_eq_ok.1 h
    obtain ⟨x, _, h⟩ := bind_eq_ok.1 h
    obtain ⟨v, _, h⟩ := bind_eq_ok.1 h
    exact ⟨_, h⟩
  case b64enc => obtain ⟨b, _, h⟩ := bind_eq_ok.1 h; exact ⟨_, h⟩
  case b64uenc => obtain ⟨b, _, h⟩ := bind_eq_ok.1 h; exact ⟨_, h⟩
  case b64dec =>
    obtain ⟨b, _, h⟩ := bind_eq_ok.1 h
    obtain ⟨v, _, h⟩ := bind_eq_ok.1 h
    obtain ⟨_, _, h⟩ := bind_eq_ok.1 h
    exact ⟨_, h⟩
  case b32enc =>
    obtain ⟨_, _, h⟩ := bind_eq_ok.1 h
    obtain ⟨_, _, h⟩ := bind_eq_ok.1 h
    obtain ⟨_, _, h⟩ := bind_eq_ok.1 h
    obtain ⟨b, _, h⟩ := bind_eq_ok.1 h
    obtain ⟨d, _, h⟩ := bind_eq_ok.1 h
    exact ⟨_, h⟩
  case to5 => obtain ⟨b, _, h⟩ := bind_eq_ok.1 h; exact ⟨_, h⟩
  case from5 =>
    obtain ⟨_, _, h⟩ := bind_eq_ok.1 h
    obtain ⟨b, _, h⟩ := bind_eq_ok.1 h
    obtain ⟨_, _, h⟩ := bind_eq_ok.1 h
    exact ⟨_, h⟩
  case bbtoout => exact ⟨_, h⟩

theorem b32decBody_effect {s t : State} (h : b32decBody s = .ok t) :
    ∃ b n, b.length ≤ s.cfg.outCap ∧
      t = (s.setOut (s.outWin.insertRun 0 b) (BitVec.ofNat 32 b.length)).setOutSplit n := by
  obtain ⟨_, _, h⟩ := bind_eq_ok.1 h
  obtain ⟨p, _, h⟩ := bind_eq_ok.1 h
  obtain ⟨_, _, h⟩ := bind_eq_ok.1 h
  obtain ⟨_, _, h⟩ := bind_eq_ok.1 h
  obtain ⟨_, _, h⟩ := bind_eq_ok.1 h
  obtain ⟨v, _, h⟩ := bind_eq_ok.1 h
  obtain ⟨_, _, h⟩ := bind_eq_ok.1 h
  obtain ⟨u, hu, h⟩ := bind_eq_ok.1 h
  obtain ⟨hb, rfl⟩ := emit_eq_ok hu
  exact ⟨_, _, hb, by simpa [eq_comm] using h⟩

theorem bbnewBody_effect {s t : State} (h : bbnewBody s = .ok t) :
    s.arg0.toNat ≤ s.cfg.bbMaxCap ∧ t = s.setBuf { Buffer.empty with cap := BitVec.ofNat 32 s.arg0.toNat } := by
  obtain ⟨_, hc, h⟩ := bind_eq_ok.1 h
  rw [raiseIf_eq_ok] at hc
  exact ⟨by omega, by simpa [eq_comm] using h⟩

theorem bbcopyBody_effect {s t : State} (h : bbcopyBody s = .ok t) :
    ∃ b : List Byte, b.length = s.inLen.toNat ∧ s.inLen.toNat ≤ s.cfg.bbMaxCap ∧
      t = s.setBuf { Buffer.empty with store := Memory.storePutRun [] 0 b, cap := s.inLen } := by
  obtain ⟨_, _, h⟩ := bind_eq_ok.1 h
  obtain ⟨_, hc, h⟩ := bind_eq_ok.1 h
  obtain ⟨b, hb, h⟩ := bind_eq_ok.1 h
  rw [raiseIf_eq_ok] at hc
  exact ⟨b, readIn_length hb, by omega, by simpa [eq_comm] using h⟩

theorem bbsetposBody_effect {s t : State} (h : bbsetposBody s = .ok t) :
    s.arg0.toNat ≤ s.buf.cap.toNat ∧ t = s.setBuf { s.buf with pos := BitVec.ofNat 32 s.arg0.toNat } := by
  obtain ⟨_, hc, h⟩ := bind_eq_ok.1 h
  rw [raiseIf_eq_ok] at hc
  exact ⟨by omega, by simpa [eq_comm] using h⟩

theorem readToRes_effect {n : Nat} {f : List Byte → DWord} {s t : State} (h : readToRes n f s = .ok t) :
    s.buf.pos.toNat + n ≤ s.buf.cap.toNat ∧
      t = (s.setBuf { s.buf with pos := BitVec.ofNat 32 (s.buf.pos.toNat + n) }).setRes
        (f (s.buf.store.storeSlice s.buf.pos.toNat n)) := by
  obtain ⟨p, hp, h⟩ := bind_eq_ok.1 h
  obtain ⟨hn, rfl⟩ := readN_eq_ok hp
  exact ⟨hn, by simpa [eq_comm] using h⟩

theorem findTerminator_lt {b : Buffer} {n : Nat} (h : findTerminator b = some n) : b.pos.toNat + n < b.cap.toNat := by
  have := List.mem_of_find?_eq_some h
  rw [List.mem_range] at this
  omega

theorem bbrdstrBody_effect {s t : State} (h : bbrdstrBody s = .ok t) :
    ∃ n, s.buf.pos.toNat + n < s.buf.cap.toNat ∧ n ≤ s.cfg.outCap ∧
      t = (s.setOut (s.outWin.insertRun 0 (s.buf.store.storeSlice s.buf.pos.toNat n)) (BitVec.ofNat 32 n)).setBuf
        { s.buf with pos := BitVec.ofNat 32 (s.buf.pos.toNat + n + 1) } := by
  obtain ⟨n, hn, h⟩ := bind_eq_ok.1 h
  obtain ⟨u, hu, h⟩ := bind_eq_ok.1 h
  obtain ⟨hb, rfl⟩ := emit_eq_ok hu
  rw [Memory.storeSlice_length] at hb
  exact ⟨n, findTerminator_lt (orRaise_eq_ok.1 hn), hb, by simpa [eq_comm] using h⟩

theorem bbrdbytesBody_effect {s t : State} (h : bbrdbytesBody s = .ok t) :
    s.arg0.toNat + s.arg1.toNat ≤ s.cfg.outCap ∧ s.buf.pos.toNat + s.arg1.toNat ≤ s.buf.cap.toNat ∧
      t = (s.setBuf { s.buf with pos := BitVec.ofNat 32 (s.buf.pos.toNat + s.arg1.toNat) }).setOut
        (s.outWin.insertRun s.arg0.toNat (s.buf.store.storeSlice s.buf.pos.toNat s.arg1.toNat))
        (if s.arg1.toNat > 0 then BitVec.ofNat 32 (max s.outLen.toNat (s.arg0.toNat + s.arg1.toNat)) else s.outLen) := by
  obtain ⟨_, hc, h⟩ := bind_eq_ok.1 h
  obtain ⟨p, hp, h⟩ := bind_eq_ok.1 h
  obtain ⟨hn, rfl⟩ := readN_eq_ok hp
  rw [raiseIf_eq_ok] at hc
  exact ⟨by omega, hn, by simpa [eq_comm] using h⟩

/-! ### Writes -/

/-- The buffer after growth to hold bytes up to `stop`. -/
def Buffer.grown (b : Buffer) (maxCap stop : Nat) : Buffer :=
  { b with cap := BitVec.ofNat 32 (grownCap maxCap b.cap.toNat stop) }

/-- The buffer after bytes at the cursor. -/
def Buffer.put (b : Buffer) (l : List Byte) : Buffer :=
  { b with
    store := b.store.storePutRun b.pos.toNat l
    pos := BitVec.ofNat 32 (b.pos.toNat + l.length) }

/-- The buffer after SetMode. -/
def Buffer.moded (b : Buffer) (k : WriteMode) : Buffer := { b with mode := if b.mode = .none then k else b.mode }

/-- The buffer after a bit field (R194). -/
def Buffer.putField (b : Buffer) (m : BitMerge) (bits : List Bool) : Buffer :=
  { b with
    store := putBits m b.store b.bitpos.toNat bits
    bitpos := BitVec.ofNat 32 (b.bitpos.toNat + bits.length) }

@[simp] theorem Buffer.grown_store (b : Buffer) (m n : Nat) : (b.grown m n).store = b.store := rfl
@[simp] theorem Buffer.grown_pos (b : Buffer) (m n : Nat) : (b.grown m n).pos = b.pos := rfl
@[simp] theorem Buffer.grown_bitpos (b : Buffer) (m n : Nat) : (b.grown m n).bitpos = b.bitpos := rfl
@[simp] theorem Buffer.grown_mode (b : Buffer) (m n : Nat) : (b.grown m n).mode = b.mode := rfl
@[simp] theorem Buffer.put_store (b : Buffer) (l : List Byte) :
    (b.put l).store = b.store.storePutRun b.pos.toNat l := rfl
@[simp] theorem Buffer.put_pos (b : Buffer) (l : List Byte) :
    (b.put l).pos = BitVec.ofNat 32 (b.pos.toNat + l.length) := rfl
@[simp] theorem Buffer.put_cap (b : Buffer) (l : List Byte) : (b.put l).cap = b.cap := rfl
@[simp] theorem Buffer.put_bitpos (b : Buffer) (l : List Byte) : (b.put l).bitpos = b.bitpos := rfl
@[simp] theorem Buffer.put_mode (b : Buffer) (l : List Byte) : (b.put l).mode = b.mode := rfl
@[simp] theorem Buffer.moded_store (b : Buffer) (k : WriteMode) : (b.moded k).store = b.store := rfl
@[simp] theorem Buffer.moded_cap (b : Buffer) (k : WriteMode) : (b.moded k).cap = b.cap := rfl
@[simp] theorem Buffer.moded_pos (b : Buffer) (k : WriteMode) : (b.moded k).pos = b.pos := rfl
@[simp] theorem Buffer.moded_bitpos (b : Buffer) (k : WriteMode) : (b.moded k).bitpos = b.bitpos := rfl
theorem Buffer.moded_mode (b : Buffer) (k : WriteMode) : (b.moded k).mode = if b.mode = .none then k else b.mode := rfl
@[simp] theorem Buffer.putField_store (b : Buffer) (m : BitMerge) (l : List Bool) :
    (b.putField m l).store = putBits m b.store b.bitpos.toNat l := rfl
@[simp] theorem Buffer.putField_cap (b : Buffer) (m : BitMerge) (l : List Bool) : (b.putField m l).cap = b.cap := rfl
@[simp] theorem Buffer.putField_pos (b : Buffer) (m : BitMerge) (l : List Bool) : (b.putField m l).pos = b.pos := rfl
@[simp] theorem Buffer.putField_bitpos (b : Buffer) (m : BitMerge) (l : List Bool) :
    (b.putField m l).bitpos = BitVec.ofNat 32 (b.bitpos.toNat + l.length) := rfl
@[simp] theorem Buffer.putField_mode (b : Buffer) (m : BitMerge) (l : List Bool) : (b.putField m l).mode = b.mode := rfl

/-- The need fits the ceiling or the capacity. -/
abbrev Fits (s : State) (need : Nat) : Prop :=
  s.buf.pos.toNat + need ≤ s.cfg.bbMaxCap ∨ s.buf.pos.toNat + need ≤ s.buf.cap.toNat

@[simp] theorem State.setBuf_setBuf (s : State) (b c : Buffer) : (s.setBuf b).setBuf c = s.setBuf c := rfl

theorem putAtCursor_eq (l : List Byte) (s : State) : putAtCursor l s = s.setBuf (s.buf.put l) := rfl

theorem setMode_moded (k : WriteMode) (s : State) : setMode k s = s.setBuf (s.buf.moded k) := setMode_eq k s

theorem ensureCapacity_grown {need : Nat} {s : State} (h : Fits s need) :
    ensureCapacity need s = .ok (s.setBuf (s.buf.grown s.cfg.bbMaxCap (s.buf.pos.toNat + need))) := ensureCapacity_ok h

theorem ensureCapacity_inv {need : Nat} {s t : State} (h : ensureCapacity need s = .ok t) :
    Fits s need ∧ t = s.setBuf (s.buf.grown s.cfg.bbMaxCap (s.buf.pos.toNat + need)) := ensureCapacity_eq_ok h

theorem writeN_ok {l : List Byte} {s : State} (h : Fits s l.length) :
    writeN l s = .ok (s.setBuf ((s.buf.grown s.cfg.bbMaxCap (s.buf.pos.toNat + l.length)).put l)) := by
  rw [writeN, ensureCapacity_grown h, ok_bind, pure_eq_ok, putAtCursor_eq, State.setBuf_setBuf, State.setBuf_buf]

theorem writeN_inv {l : List Byte} {s t : State} (h : writeN l s = .ok t) :
    Fits s l.length ∧ t = s.setBuf ((s.buf.grown s.cfg.bbMaxCap (s.buf.pos.toNat + l.length)).put l) := by
  obtain ⟨w, hw, _⟩ := bind_eq_ok.1 h
  have hf := (ensureCapacity_inv hw).1
  rw [writeN_ok hf] at h
  exact ⟨hf, (Except.ok.inj h).symm⟩

/-- The buffer after a byte write of `l`. -/
def Buffer.written (b : Buffer) (maxCap : Nat) (l : List Byte) : Buffer :=
  ((b.grown maxCap (b.pos.toNat + l.length)).put l).moded .byte

theorem byteWrite_ok {l : List Byte} {s : State} (hm : ¬ ModeConflict .byte s) (hf : Fits s l.length) :
    byteWrite l s = .ok (s.setBuf (s.buf.written s.cfg.bbMaxCap l)) := by
  rw [byteWrite, checkMode_ok hm, ok_bind, writeN_ok hf, ok_bind, pure_eq_ok, setMode_moded, State.setBuf_setBuf,
    State.setBuf_buf]
  rfl

theorem byteWrite_effect {l : List Byte} {s t : State} (h : byteWrite l s = .ok t) :
    ¬ ModeConflict .byte s ∧ Fits s l.length ∧ t = s.setBuf (s.buf.written s.cfg.bbMaxCap l) := by
  obtain ⟨_, hm, h1⟩ := bind_eq_ok.1 h
  obtain ⟨u, hu, _⟩ := bind_eq_ok.1 h1
  have hm := raiseIf_eq_ok.1 hm
  have hf := (writeN_inv hu).1
  rw [byteWrite_ok hm hf] at h
  exact ⟨hm, hf, (Except.ok.inj h).symm⟩

theorem bbwrbytesBody_ok {l : List Byte} {s : State} (hm : ¬ ModeConflict .byte s) (hi : s.inLen.toNat ≤ s.cfg.inCap)
    (hr : s.arg0.toNat + s.arg1.toNat ≤ s.inLen.toNat) (hl : readIn s s.arg0.toNat s.arg1.toNat = .ok l)
    (hf : Fits s l.length) : bbwrbytesBody s = .ok (s.setBuf (s.buf.written s.cfg.bbMaxCap l)) := by
  have hlen := readIn_length hl
  rw [hlen] at hf
  rw [bbwrbytesBody, checkMode_ok hm, ok_bind, needIn_ok hi, ok_bind]
  dsimp only
  rw [raiseIf_false _ (by omega), ok_bind, ensureCapacity_grown hf, ok_bind, hl, ok_bind, pure_eq_ok, putAtCursor_eq,
    setMode_moded, State.setBuf_setBuf, State.setBuf_setBuf, State.setBuf_buf, State.setBuf_buf, ← hlen]
  rfl

theorem bbwrbytesBody_effect {s t : State} (h : bbwrbytesBody s = .ok t) :
    ∃ l : List Byte, readIn s s.arg0.toNat s.arg1.toNat = .ok l ∧ ¬ ModeConflict .byte s ∧ Fits s l.length ∧
      t = s.setBuf (s.buf.written s.cfg.bbMaxCap l) := by
  obtain ⟨_, hm, h1⟩ := bind_eq_ok.1 h
  obtain ⟨_, hi, h2⟩ := bind_eq_ok.1 h1
  obtain ⟨_, hr, h3⟩ := bind_eq_ok.1 h2
  obtain ⟨w, hw, h4⟩ := bind_eq_ok.1 h3
  obtain ⟨l, hl, _⟩ := bind_eq_ok.1 h4
  have hm := raiseIf_eq_ok.1 hm
  have hf := (ensureCapacity_inv hw).1
  rw [← readIn_length hl] at hf
  rw [bbwrbytesBody_ok hm (needIn_eq_ok.1 hi) (Nat.not_lt.1 (raiseIf_eq_ok.1 hr)) hl hf] at h
  exact ⟨l, hl, hm, hf, (Except.ok.inj h).symm⟩

/-- The buffer after BBWRSTR of `l`: two growth steps (R192). -/
def Buffer.writtenString (b : Buffer) (maxCap : Nat) (l : List Byte) : Buffer :=
  ((b.grown maxCap (b.pos.toNat + l.length)).put l).written maxCap [10]

theorem bbwrstrBody_ok {l : List Byte} {s : State} (hm : ¬ ModeConflict .byte s) (hi : s.inLen.toNat ≤ s.cfg.inCap)
    (hl : readIn s 0 s.inLen.toNat = .ok l) (hf : Fits s l.length)
    (hf2 : Fits (s.setBuf ((s.buf.grown s.cfg.bbMaxCap (s.buf.pos.toNat + l.length)).put l)) 1) :
    bbwrstrBody s = .ok (s.setBuf (s.buf.writtenString s.cfg.bbMaxCap l)) := by
  have hlen := readIn_length hl
  rw [hlen] at hf
  rw [bbwrstrBody, checkMode_ok hm, ok_bind, needIn_ok hi, ok_bind, ensureCapacity_grown hf, ok_bind, hl, ok_bind,
    putAtCursor_eq, State.setBuf_setBuf, State.setBuf_buf, ← hlen, writeN_ok hf2, ok_bind, pure_eq_ok, setMode_moded]
  rfl

theorem bbwrstrBody_effect {s t : State} (h : bbwrstrBody s = .ok t) :
    ∃ l : List Byte, readIn s 0 s.inLen.toNat = .ok l ∧ ¬ ModeConflict .byte s ∧ Fits s l.length ∧
      Fits (s.setBuf ((s.buf.grown s.cfg.bbMaxCap (s.buf.pos.toNat + l.length)).put l)) 1 ∧
      t = s.setBuf (s.buf.writtenString s.cfg.bbMaxCap l) := by
  obtain ⟨_, hm, h1⟩ := bind_eq_ok.1 h
  obtain ⟨_, hi, h2⟩ := bind_eq_ok.1 h1
  obtain ⟨w, hw, h3⟩ := bind_eq_ok.1 h2
  obtain ⟨l, hl, h4⟩ := bind_eq_ok.1 h3
  obtain ⟨x, hx, _⟩ := bind_eq_ok.1 h4
  have hm := raiseIf_eq_ok.1 hm
  obtain ⟨hf, rfl⟩ := ensureCapacity_inv hw
  have hf2 := (writeN_inv hx).1
  rw [putAtCursor_eq, State.setBuf_setBuf, State.setBuf_buf, ← readIn_length hl] at hf2
  rw [← readIn_length hl] at hf
  rw [bbwrstrBody_ok hm (needIn_eq_ok.1 hi) hl hf hf2] at h
  exact ⟨l, hl, hm, hf, hf2, (Except.ok.inj h).symm⟩

@[simp] theorem fieldBits_length (nb v : Nat) : (fieldBits nb v).length = nb := by simp [fieldBits]

/-- The buffer after BBWRBITS of an `nb`-bit field of value `v`. -/
def Buffer.writtenBits (b : Buffer) (maxCap : Nat) (m : BitMerge) (nb v : Nat) : Buffer :=
  ((b.grown maxCap (b.pos.toNat + (nb + 7) / 8)).putField m (fieldBits nb v)).moded .bit

theorem bbwrbitsBody_ok {s : State} {nb : Nat} (hnb : s.arg0.toNat = nb) (hm : ¬ ModeConflict .bit s) (h1 : 1 ≤ nb)
    (h32 : nb ≤ 32) (hf : Fits s ((nb + 7) / 8))
    (ho : (s.buf.bitpos.toNat + nb + 7) / 8
      ≤ (s.buf.grown s.cfg.bbMaxCap (s.buf.pos.toNat + (nb + 7) / 8)).cap.toNat) :
    bbwrbitsBody s = .ok (s.setBuf (s.buf.writtenBits s.cfg.bbMaxCap s.cfg.bbBitMerge nb s.arg1b32.toNat)) := by
  rw [bbwrbitsBody, checkMode_ok hm, ok_bind]
  dsimp only
  rw [hnb, raiseIf_false _ (by omega), ok_bind, ensureCapacity_grown hf, ok_bind, State.setBuf_buf, Buffer.grown_bitpos,
    raiseIf_false _ (Nat.not_lt.2 ho), ok_bind, pure_eq_ok, setMode_moded, State.setBuf_setBuf, State.setBuf_setBuf,
    State.setBuf_buf, Buffer.writtenBits, Buffer.putField, fieldBits_length, Buffer.grown_bitpos]

theorem bbwrbitsBody_effect {s t : State} (h : bbwrbitsBody s = .ok t) :
    ¬ ModeConflict .bit s ∧ 1 ≤ s.arg0.toNat ∧ s.arg0.toNat ≤ 32 ∧ Fits s ((s.arg0.toNat + 7) / 8) ∧
      (s.buf.bitpos.toNat + s.arg0.toNat + 7) / 8
        ≤ (s.buf.grown s.cfg.bbMaxCap (s.buf.pos.toNat + (s.arg0.toNat + 7) / 8)).cap.toNat ∧
      t = s.setBuf (s.buf.writtenBits s.cfg.bbMaxCap s.cfg.bbBitMerge s.arg0.toNat s.arg1b32.toNat) := by
  obtain ⟨_, hm, h1⟩ := bind_eq_ok.1 h
  obtain ⟨_, hn, h2⟩ := bind_eq_ok.1 h1
  obtain ⟨w, hw, h3⟩ := bind_eq_ok.1 h2
  obtain ⟨_, ho, _⟩ := bind_eq_ok.1 h3
  have hm := raiseIf_eq_ok.1 hm
  obtain ⟨hf, rfl⟩ := ensureCapacity_inv hw
  have hn := raiseIf_eq_ok.1 hn
  have ho := Nat.not_lt.1 (raiseIf_eq_ok.1 ho)
  rw [State.setBuf_buf, Buffer.grown_bitpos] at ho
  rw [bbwrbitsBody_ok rfl hm (by omega) (by omega) hf ho] at h
  exact ⟨hm, by omega, by omega, hf, ho, (Except.ok.inj h).symm⟩

/-! ### The effect of each command -/

/-- The commands whose only effect is a value in RES. -/
def setsResOnly : Instr → Bool
  | .b2i _ | .b2l _ | .bbgetpos => true
  | _ => false

/-- The width of a fixed-width read. -/
def readWidth : Instr → Option Nat
  | .bbrd8 => some 1
  | .bbrd16 | .bbrdu16 => some 2
  | .bbrd32 => some 4
  | .bbrd64 => some 8
  | _ => none

/-- The byte writes with one growth step. -/
def writesOnce : Instr → Bool
  | .bbwr8 | .bbwr16 | .bbwr32 | .bbwr64 | .bbwrbytes => true
  | _ => false

/-- What each command commits: its pseudocode, run from `s` without an error, reaches one of these states. -/
inductive Effect (s : State) : Instr → State → Prop where
  | emits {i : Instr} (b : List Byte) (hi : emitsOnly i = true) (hb : b.length ≤ s.cfg.outCap) :
      Effect s i (s.setOut (s.outWin.insertRun 0 b) (BitVec.ofNat 32 b.length))
  | setsRes {i : Instr} (v : DWord) (hi : setsResOnly i = true) : Effect s i (s.setRes v)
  | reads {i : Instr} (n : Nat) (v : DWord) (hi : readWidth i = some n) (hn : s.buf.pos.toNat + n ≤ s.buf.cap.toNat) :
      Effect s i ((s.setBuf { s.buf with pos := BitVec.ofNat 32 (s.buf.pos.toNat + n) }).setRes v)
  | b32dec (b : List Byte) (n : Word) (hb : b.length ≤ s.cfg.outCap) :
      Effect s .b32dec ((s.setOut (s.outWin.insertRun 0 b) (BitVec.ofNat 32 b.length)).setOutSplit n)
  | bbnew (h : s.arg0.toNat ≤ s.cfg.bbMaxCap) :
      Effect s .bbnew (s.setBuf { Buffer.empty with cap := BitVec.ofNat 32 s.arg0.toNat })
  | bbcopy (b : List Byte) (hb : b.length = s.inLen.toNat) (h : s.inLen.toNat ≤ s.cfg.bbMaxCap) :
      Effect s .bbcopy (s.setBuf { Buffer.empty with store := Memory.storePutRun [] 0 b, cap := s.inLen })
  | bbreset : Effect s .bbreset (s.setBuf Buffer.empty)
  | bbsetpos (h : s.arg0.toNat ≤ s.buf.cap.toNat) :
      Effect s .bbsetpos (s.setBuf { s.buf with pos := BitVec.ofNat 32 s.arg0.toNat })
  | bbrdstr (n : Nat) (h : s.buf.pos.toNat + n < s.buf.cap.toNat) (hb : n ≤ s.cfg.outCap) :
      Effect s .bbrdstr ((s.setOut (s.outWin.insertRun 0 (s.buf.store.storeSlice s.buf.pos.toNat n))
        (BitVec.ofNat 32 n)).setBuf { s.buf with pos := BitVec.ofNat 32 (s.buf.pos.toNat + n + 1) })
  | bbrdbytes (hb : s.arg0.toNat + s.arg1.toNat ≤ s.cfg.outCap)
      (h : s.buf.pos.toNat + s.arg1.toNat ≤ s.buf.cap.toNat) :
      Effect s .bbrdbytes ((s.setBuf { s.buf with pos := BitVec.ofNat 32 (s.buf.pos.toNat + s.arg1.toNat) }).setOut
        (s.outWin.insertRun s.arg0.toNat (s.buf.store.storeSlice s.buf.pos.toNat s.arg1.toNat))
        (if s.arg1.toNat > 0 then BitVec.ofNat 32 (max s.outLen.toNat (s.arg0.toNat + s.arg1.toNat)) else s.outLen))
  | writes {i : Instr} (l : List Byte) (hi : writesOnce i = true) (hm : ¬ ModeConflict .byte s) (hf : Fits s l.length) :
      Effect s i (s.setBuf (s.buf.written s.cfg.bbMaxCap l))
  | bbwrstr (l : List Byte) (hm : ¬ ModeConflict .byte s) (hf : Fits s l.length)
      (hf2 : Fits (s.setBuf ((s.buf.grown s.cfg.bbMaxCap (s.buf.pos.toNat + l.length)).put l)) 1) :
      Effect s .bbwrstr (s.setBuf (s.buf.writtenString s.cfg.bbMaxCap l))
  | bbwrbits (hm : ¬ ModeConflict .bit s) (h1 : 1 ≤ s.arg0.toNat) (h32 : s.arg0.toNat ≤ 32)
      (hf : Fits s ((s.arg0.toNat + 7) / 8))
      (ho : (s.buf.bitpos.toNat + s.arg0.toNat + 7) / 8
        ≤ (s.buf.grown s.cfg.bbMaxCap (s.buf.pos.toNat + (s.arg0.toNat + 7) / 8)).cap.toNat) :
      Effect s .bbwrbits (s.setBuf (s.buf.writtenBits s.cfg.bbMaxCap s.cfg.bbBitMerge s.arg0.toNat s.arg1b32.toNat))

theorem effect_of_bodyOf {i : Instr} {s t : State} (h : bodyOf i s = .ok t) : Effect s i t := by
  by_cases he : emitsOnly i = true
  · obtain ⟨b, hb⟩ := bodyOf_emits he h
    obtain ⟨hl, rfl⟩ := emit_eq_ok hb
    exact .emits b he hl
  · cases i <;> (try exact absurd rfl he) <;> simp only [bodyOf] at h
    case b2i o => obtain ⟨v, rfl⟩ := b2iBody_effect h; exact .setsRes v rfl
    case b2l o => obtain ⟨v, rfl⟩ := b2lBody_effect h; exact .setsRes v rfl
    case b32dec => obtain ⟨b, n, hb, rfl⟩ := b32decBody_effect h; exact .b32dec b n hb
    case bbnew => obtain ⟨hc, rfl⟩ := bbnewBody_effect h; exact .bbnew hc
    case bbcopy => obtain ⟨b, hb, hc, rfl⟩ := bbcopyBody_effect h; exact .bbcopy b hb hc
    case bbreset => obtain rfl := Except.ok.inj h; exact .bbreset
    case bbgetpos => obtain rfl := Except.ok.inj h; exact .setsRes _ rfl
    case bbsetpos => obtain ⟨hc, rfl⟩ := bbsetposBody_effect h; exact .bbsetpos hc
    case bbrd8 => obtain ⟨hc, rfl⟩ := readToRes_effect h; exact .reads _ _ rfl hc
    case bbrd16 => obtain ⟨hc, rfl⟩ := readToRes_effect h; exact .reads _ _ rfl hc
    case bbrdu16 => obtain ⟨hc, rfl⟩ := readToRes_effect h; exact .reads _ _ rfl hc
    case bbrd32 => obtain ⟨hc, rfl⟩ := readToRes_effect h; exact .reads _ _ rfl hc
    case bbrd64 => obtain ⟨hc, rfl⟩ := readToRes_effect h; exact .reads _ _ rfl hc
    case bbrdstr => obtain ⟨n, hn, hb, rfl⟩ := bbrdstrBody_effect h; exact .bbrdstr n hn hb
    case bbrdbytes => obtain ⟨hb, hn, rfl⟩ := bbrdbytesBody_effect h; exact .bbrdbytes hb hn
    case bbwr8 => obtain ⟨hm, hf, rfl⟩ := byteWrite_effect h; exact .writes _ rfl hm hf
    case bbwr16 => obtain ⟨hm, hf, rfl⟩ := byteWrite_effect h; exact .writes _ rfl hm hf
    case bbwr32 => obtain ⟨hm, hf, rfl⟩ := byteWrite_effect h; exact .writes _ rfl hm hf
    case bbwr64 => obtain ⟨hm, hf, rfl⟩ := byteWrite_effect h; exact .writes _ rfl hm hf
    case bbwrbytes => obtain ⟨l, _, hm, hf, rfl⟩ := bbwrbytesBody_effect h; exact .writes _ rfl hm hf
    case bbwrstr => obtain ⟨l, _, hm, hf, hf2, rfl⟩ := bbwrstrBody_effect h; exact .bbwrstr _ hm hf hf2
    case bbwrbits => obtain ⟨hm, h1, h2, hf, ho, rfl⟩ := bbwrbitsBody_effect h; exact .bbwrbits hm h1 h2 hf ho

/-- What a command that answers a next state has done. -/
theorem exec_next {i : Instr} {s t : State} (h : exec i s = .next t) :
    (∃ u, Effect s i u ∧ t = commitCommand i.opcode u) ∨ (∃ c, t = failCommand i.opcode c s) := by
  rw [exec_eq] at h
  rcases runCommand_cases h with ⟨u, hu, rfl⟩ | ⟨c, _, rfl⟩
  · exact .inl ⟨u, effect_of_bodyOf hu, rfl⟩
  · exact .inr ⟨c, rfl⟩

theorem effect_sameOperands {i : Instr} {s t : State} (h : Effect s i t) : SameOperands s t := by
  cases h <;> exact ⟨rfl, rfl, rfl, rfl, rfl, rfl, rfl, rfl, rfl, rfl⟩

/-! ### From the pseudocode's end to the terms of the claims -/

theorem fails_of_body {i : Instr} {s : State} {c : Cause} (h : bodyOf i s = .error (.cause c)) :
    Fails i s i.opcode.toNat c.errClass.code.toNat c.code.toNat := fails_of_error (exec_eq i s) h

theorem completes_of_body {i : Instr} {s t : State} {P : State → Prop} (h : bodyOf i s = .ok t)
    (hP : P (commitCommand i.opcode t)) : Completes i s i.opcode.toNat P :=
  completes_of_ok (exec_eq i s) h (effect_sameOperands (effect_of_bodyOf h)) hP

theorem yields_of_body {i : Instr} {s : State} {b : List Byte} (hl : s.cfg.Legal) (h : bodyOf i s = emit b s) :
    Yields i s i.opcode.toNat b := yields_of_emit hl (by rw [exec_eq, h])

/-- The host's copy of an emission is the next command's INSEQ. -/
theorem inseqIs_of_copiedOut {t u : State} {b : List Byte} (h : CopiedOut t u) (hb : OutIs t b) : InseqIs u b := by
  obtain ⟨h1, h2, h3, h4⟩ := h
  obtain ⟨h5, h6⟩ := hb
  refine ⟨by rw [h2, h5], by rw [h1]; omega, fun k hk => ?_⟩
  rw [h4 k (by omega), h6 k hk]

end Sys2Proof.Machine
end

