-- ==== Sys2Proof/Laws/Buffer.lean ====
section
/-! SUPPORT. What writes leave in the Byte Buffer: bytes over STORE, a bit field over the bits, the capacity, and the canonical
form of STORE. -/

namespace Sys2Proof.Machine

/-! ### Bits -/

/-- One bit merged into a byte (R194). -/
theorem getLsbD_mergeBit (m : BitMerge) (old : Byte) (sh : Nat) (bit : Bool) (k : Nat) (hs : sh < 8) (hk : k < 8) :
    (mergeBit m old sh bit).getLsbD k
      = if k = sh then (match m with | .replace => bit | .or => old.getLsbD k || bit) else old.getLsbD k := by
  have hone : ((1 : Byte) <<< sh).getLsbD k = decide (k = sh) := by
    have : ∀ sh < 8, ∀ k < 8, ((1 : Byte) <<< sh).getLsbD k = decide (k = sh) := by decide
    exact this sh hs k hk
  cases m <;> cases bit <;> simp only [mergeBit, BitVec.getLsbD_or, BitVec.getLsbD_and, BitVec.getLsbD_not, hone, hk,
    decide_true, Bool.true_and] <;> by_cases h : k = sh <;> simp [h]

theorem storeBit_storePut_same {st : Memory} (q k : Nat) (v : Byte) (h : st.sorted = true) (hk : k / 8 = q) :
    storeBit (st.storePut q v) k = v.getLsbD (7 - k % 8) := by
  rw [storeBit, Memory.storeGet_storePut _ _ _ h, if_pos hk]

theorem storeBit_storePut_ne {st : Memory} (q k : Nat) (v : Byte) (h : st.sorted = true) (hk : k / 8 ≠ q) :
    storeBit (st.storePut q v) k = storeBit st k := by
  rw [storeBit, Memory.storeGet_storePut _ _ _ h, if_neg hk, storeBit]

/-- The bit at `q` merged, every other bit kept. -/
theorem storeBit_mergeAt (m : BitMerge) {st : Memory} (q k : Nat) (bit : Bool) (h : st.sorted = true) :
    storeBit (st.storePut (q / 8) (mergeBit m (st.storeGet (q / 8)) (7 - q % 8) bit)) k
      = if k = q then (match m with | .replace => bit | .or => storeBit st k || bit) else storeBit st k := by
  by_cases hk : k / 8 = q / 8
  · rw [storeBit_storePut_same _ _ _ h hk, getLsbD_mergeBit _ _ _ _ _ (by omega) (by omega), storeBit, hk]
    by_cases hq : k = q
    · rw [if_pos hq, if_pos (by omega)]
    · rw [if_neg hq, if_neg (by omega)]
  · rw [storeBit_storePut_ne _ _ _ h hk, if_neg (by rintro rfl; exact hk rfl)]

/-- A bit field over STORE: the field's bits from `q` on, every other bit kept (R194). -/
theorem storeBit_putBits (m : BitMerge) (bits : List Bool) : ∀ (st : Memory) (q k : Nat), st.sorted = true →
    storeBit (putBits m st q bits) k = if q ≤ k ∧ k < q + bits.length
      then (match m with | .replace => bits.getD (k - q) false | .or => storeBit st k || bits.getD (k - q) false)
      else storeBit st k := by
  induction bits with
  | nil => intro st q k _; rw [if_neg (by simp)]; rfl
  | cons x bits ih =>
    intro st q k h
    rw [putBits, ih _ _ _ (Memory.sorted_storePut _ _ h), storeBit_mergeAt m _ _ _ h, List.length_cons]
    by_cases hq : k = q
    · subst hq
      rw [if_neg (by omega), if_pos rfl, if_pos (by omega), Nat.sub_self]
      rfl
    · rw [if_neg hq]
      by_cases hr : q + 1 ≤ k ∧ k < q + 1 + bits.length
      · rw [if_pos hr, if_pos (by omega), show k - q = k - (q + 1) + 1 by omega]
        rfl
      · rw [if_neg hr, if_neg (by omega)]

/-- A bit field keeps STORE canonical. -/
theorem storeWf_putBits (m : BitMerge) {cap : Nat} (bits : List Bool) : ∀ (st : Memory) (q : Nat),
    st.storeWf cap = true → q + bits.length ≤ 8 * cap → (putBits m st q bits).storeWf cap = true := by
  induction bits with
  | nil => intro st q h _; exact h
  | cons x bits ih =>
    intro st q h hq
    rw [List.length_cons] at hq
    exact ih _ _ (Memory.storeWf_storePut _ h (by omega)) (by omega)

/-! ### Capacity -/

/-- The empty buffer of R250 and R175. -/
theorem Buffer.inv_empty (m : Nat) : Buffer.empty.Inv m := ⟨by decide, by simp [Buffer.empty], by decide, by decide⟩

theorem Buffer.grown_cap_toNat {b : Buffer} {m n : Nat} (hm : m ≤ 2 ^ 28) (hc : b.cap.toNat ≤ m) :
    (b.grown m n).cap.toNat = grownCap m b.cap.toNat n := by
  have := grownCap_le_max (n := n) hc
  rw [Buffer.grown, BitVec.toNat_ofNat]
  exact Nat.mod_eq_of_lt (by omega)

theorem grownCap_of_le {m c n : Nat} (h : n ≤ c) : grownCap m c n = c := if_neg (by omega)

/-- Growth keeps the buffer's invariant. -/
theorem Buffer.inv_grown {b : Buffer} {m : Nat} (n : Nat) (hm : m ≤ 2 ^ 28) (h : b.Inv m) : (b.grown m n).Inv m := by
  obtain ⟨h1, h2, h3, h4⟩ := h
  have hc := Buffer.grown_cap_toNat (n := n) hm h2
  have hle := le_grownCap (n := n) h2
  have hmax := grownCap_le_max (n := n) h2
  refine ⟨?_, ?_, ?_, ?_⟩
  · rw [hc, Buffer.grown_pos]; omega
  · rw [hc]; omega
  · rw [hc, Buffer.grown_bitpos]; omega
  · rw [hc, Buffer.grown_store]; exact Memory.storeWf_mono h4 hle

theorem Buffer.inv_moded {b : Buffer} {m : Nat} (k : WriteMode) (h : b.Inv m) : (b.moded k).Inv m := h

/-- Bytes at the cursor within the capacity keep the invariant. -/
theorem Buffer.inv_put {b : Buffer} {m : Nat} (l : List Byte) (h : b.Inv m) (hl : b.pos.toNat + l.length ≤ b.cap.toNat) :
    (b.put l).Inv m := by
  obtain ⟨h1, h2, h3, h4⟩ := h
  have := b.cap.isLt
  refine ⟨?_, h2, h3, Memory.storeWf_storePutRun l h4 hl⟩
  rw [Buffer.put_pos, BitVec.toNat_ofNat, Nat.mod_eq_of_lt (by omega)]
  exact hl

/-- A byte write that fits keeps the invariant. -/
theorem Buffer.inv_written {b : Buffer} {m : Nat} (l : List Byte) (hm : m ≤ 2 ^ 28) (h : b.Inv m)
    (hf : b.pos.toNat + l.length ≤ m) : (b.written m l).Inv m := by
  refine Buffer.inv_moded _ (Buffer.inv_put l (Buffer.inv_grown _ hm h) ?_)
  rw [Buffer.grown_cap_toNat hm h.2.1, Buffer.grown_pos]
  exact stop_le_grownCap hf

/-- BBWRSTR's two writes keep the invariant. -/
theorem Buffer.inv_writtenString {b : Buffer} {m : Nat} (l : List Byte) (hm : m ≤ 2 ^ 28) (h : b.Inv m)
    (hf : b.pos.toNat + l.length + 1 ≤ m) : (b.writtenString m l).Inv m := by
  have h1 := Buffer.inv_grown (b.pos.toNat + l.length) hm h
  have h2 : ((b.grown m (b.pos.toNat + l.length)).put l).Inv m := by
    refine Buffer.inv_put l h1 ?_
    rw [Buffer.grown_cap_toNat hm h.2.1, Buffer.grown_pos]
    exact stop_le_grownCap (by omega)
  refine Buffer.inv_written [10] hm h2 ?_
  simp only [Buffer.put_pos, Buffer.grown_pos, BitVec.toNat_ofNat, List.length_singleton]
  rw [Nat.mod_eq_of_lt (by omega)]
  exact hf

/-- A bit field within the grown capacity keeps the invariant. -/
theorem Buffer.inv_writtenBits {b : Buffer} {m : Nat} (p : BitMerge) (nb v : Nat) (hm : m ≤ 2 ^ 28) (h : b.Inv m)
    (ho : (b.bitpos.toNat + nb + 7) / 8 ≤ (b.grown m (b.pos.toNat + (nb + 7) / 8)).cap.toNat) :
    (b.writtenBits m p nb v).Inv m := by
  obtain ⟨h1, h2, h3, h4⟩ := Buffer.inv_grown (b.pos.toNat + (nb + 7) / 8) hm h
  refine Buffer.inv_moded _ ⟨h1, h2, ?_, ?_⟩
  · simp only [Buffer.putField_bitpos, Buffer.putField_cap, fieldBits_length, Buffer.grown_bitpos, BitVec.toNat_ofNat]
    rw [Nat.mod_eq_of_lt (by omega)]
    omega
  · refine storeWf_putBits p _ _ _ h4 ?_
    simp only [fieldBits_length, Buffer.grown_bitpos, Buffer.putField_cap]
    omega

/-- Fits, under the invariant, is the ceiling alone. -/
theorem fits_iff {s : State} {n : Nat} (h : s.buf.Inv s.cfg.bbMaxCap) :
    Fits s n ↔ s.buf.pos.toNat + n ≤ s.cfg.bbMaxCap := by
  have := h.2.1
  unfold Fits
  omega

/-- What a byte write leaves (R171, R172, R187). -/
theorem Buffer.bytesWritten {b : Buffer} {m : Nat} (l : List Byte) (hm : m ≤ 2 ^ 28) (h : b.Inv m)
    (hf : b.pos.toNat + l.length ≤ m) :
    BytesWritten l (grownCap m b.cap.toNat (b.pos.toNat + l.length)) b (b.written m l) := by
  refine ⟨Buffer.grown_cap_toNat hm h.2.1, ?_, rfl, rfl, ?_⟩
  · simp only [Buffer.written, Buffer.moded_pos, Buffer.put_pos, Buffer.grown_pos, BitVec.toNat_ofNat]
    exact Nat.mod_eq_of_lt (by omega)
  · intro k _
    have hs := (Memory.storeWf_iff.1 h.2.2.2)
    simp only [Buffer.written, Buffer.moded_store, Buffer.put_store, Buffer.grown_store, Buffer.grown_pos]
    rw [Memory.storeGet_storePutRun _ _ _ _ hs.1]
    by_cases hk : b.pos.toNat ≤ k ∧ k < b.pos.toNat + l.length
    · rw [if_pos hk, if_pos hk]
    · rw [if_neg hk, if_neg hk]
      by_cases hc : k < b.cap.toNat
      · rw [if_pos hc]
      · rw [if_neg hc]
        exact Memory.storeGet_of_le h.2.2.2 (by omega)

end Sys2Proof.Machine
end

