-- ==== Sys2Proof/Laws/Operands.lean ====
section
/-! SUPPORT. Byte sequences as numbers, characters and their indices, and the regrouping loop. -/

namespace Sys2Proof.Machine

/-! ### Numbers -/

/-- `leNat` is the number of R12. -/
theorem leNat_eq (b : List Byte) : leNat b = numberLE b := by
  induction b with
  | nil => rfl
  | cons x b ih => simp only [leNat, numberLE, List.map_cons, Nat.ofDigits_cons] at *; rw [ih]

/-- `beNat` is the number of R12. -/
theorem beNat_eq (b : List Byte) : beNat b = numberBE b := by
  rw [beNat, leNat_eq]; rfl

theorem numberLE_lt (b : List Byte) : numberLE b < 256 ^ b.length := by
  have := Nat.ofDigits_lt_base_pow_length (b := 256) (l := b.map BitVec.toNat) (by omega)
    (by intro x hx; simp at hx; obtain ⟨y, _, rfl⟩ := hx; exact y.isLt)
  simpa [numberLE] using this

theorem numberBE_lt (b : List Byte) : numberBE b < 256 ^ b.length := by
  have := numberLE_lt b.reverse
  simpa [numberLE, numberBE] using this

theorem signExtend_eq (w v : Nat) (hw : 0 < w) (hv : v < 2 ^ w) : (BitVec.ofNat w v).signExtend 64 = signed64 w v := by
  unfold signed64 BitVec.signExtend
  congr 1
  rw [BitVec.toInt_eq_toNat_cond, BitVec.toNat_ofNat, Nat.mod_eq_of_lt hv]
  have : 2 ^ w = 2 * 2 ^ (w - 1) := by rw [← Nat.pow_succ']; congr 1; omega
  by_cases h : v < 2 ^ (w - 1)
  · rw [if_pos (by omega), if_pos h]
  · rw [if_neg (by omega), if_neg h]; push_cast; rfl

/-! ### Characters and indices -/

theorem indicesOf_some {idx : Byte → Option Nat} {t : List Byte} {v : List Nat}
    (h : List.Forall₂ (fun c k => idx c = some k) t v) : indicesOf idx t = some v := by
  induction h with
  | nil => rfl
  | cons h _ ih => simp [indicesOf, h, ih]

theorem indicesOf_none {idx : Byte → Option Nat} {t : List Byte} (h : ∃ c ∈ t, idx c = none) : indicesOf idx t = none := by
  induction t with
  | nil => simp at h
  | cons c t ih =>
    simp only [List.mem_cons, exists_eq_or_imp] at h
    rcases h with h | h
    · simp [indicesOf, h]
    · simp only [indicesOf, ih h]
      cases idx c <;> rfl

@[simp] theorem lower_length (b : List Byte) : (lower b).length = b.length := by simp [lower]

/-! ### Regrouping -/

/-- The number of big-endian values of `v` bits each. -/
def digitsNumber (v : Nat) (l : List Byte) : Nat := Nat.ofDigits (2 ^ v) (l.reverse.map BitVec.toNat)

theorem digitsNumber_cons (v : Nat) (x : Byte) (l : List Byte) :
    digitsNumber v (x :: l) = x.toNat * 2 ^ (v * l.length) + digitsNumber v l := by
  simp only [digitsNumber, List.reverse_cons, List.map_append, List.map_cons, List.map_nil, Nat.ofDigits_append,
    List.length_map, List.length_reverse, Nat.ofDigits_singleton]
  rw [Nat.pow_mul]; ring

theorem digitsNumber_lt (v : Nat) (hv : 0 < v) (l : List Byte) (h : ∀ x ∈ l, x.toNat < 2 ^ v) :
    digitsNumber v l < 2 ^ (v * l.length) := by
  have := Nat.ofDigits_lt_base_pow_length (b := 2 ^ v) (l := l.reverse.map BitVec.toNat) (by exact Nat.one_lt_two_pow (by omega))
    (by intro x hx; simp at hx; obtain ⟨y, hy, rfl⟩ := hx; exact h y hy)
  simpa [digitsNumber, Nat.pow_mul] using this

theorem drainGroups_spec (w acc : Nat) (hw : 0 < w) : ∀ (fuel bits : Nat), bits ≤ fuel →
    (drainGroups w acc fuel bits).1.length = bits / w ∧ (drainGroups w acc fuel bits).2 = bits % w ∧
    ∀ i < bits / w, (drainGroups w acc fuel bits).1[i]? = some (BitVec.ofNat 8 (acc / 2 ^ (bits - w * (i + 1)) % 2 ^ w)) := by
  intro fuel
  induction fuel with
  | zero =>
    intro bits h
    obtain rfl : bits = 0 := by omega
    exact ⟨by simp [drainGroups], by simp [drainGroups], fun i hi => by simp at hi⟩
  | succ fuel ih =>
    intro bits h
    unfold drainGroups
    by_cases hb : bits ≥ w
    · rw [if_pos hb]
      obtain ⟨h1, h2, h3⟩ := ih (bits - w) (by omega)
      have e1 : bits / w = (bits - w) / w + 1 := by rw [Nat.div_eq_sub_div hw hb]
      have e2 : bits % w = (bits - w) % w := Nat.mod_eq_sub_mod hb
      refine ⟨by simp only [List.length_cons, h1, e1], by simp only [h2, e2], fun i hi => ?_⟩
      cases i with
      | zero => simp [Nat.shiftRight_eq_div_pow]
      | succ i =>
        simp only [List.getElem?_cons_succ]
        rw [h3 i (by omega)]
        congr 5
        rw [Nat.mul_add w (i + 1) 1]; omega
    · rw [if_neg hb]
      have hb : bits < w := by omega
      refine ⟨by simp [Nat.div_eq_of_lt hb], by simp [Nat.mod_eq_of_lt hb], fun i hi => ?_⟩
      rw [Nat.div_eq_of_lt hb] at hi; omega

theorem shiftLeft_or (acc v : Nat) (x : Byte) (h : x.toNat < 2 ^ v) : (acc <<< v) ||| x.toNat = acc * 2 ^ v + x.toNat := by
  rw [← Nat.shiftLeft_add_eq_or_of_lt h, Nat.shiftLeft_eq]

theorem regroup_spec (v w : Nat) (hv : 0 < v) (hw : 0 < w) :
    ∀ (l : List Byte) (acc bits : Nat), (∀ x ∈ l, x.toNat < 2 ^ v) → bits < w →
    (regroup v w acc bits l).2.1 = acc * 2 ^ (v * l.length) + digitsNumber v l ∧
    (regroup v w acc bits l).2.2 = (bits + v * l.length) % w ∧
    (regroup v w acc bits l).1.length = (bits + v * l.length) / w ∧
    ∀ i < (bits + v * l.length) / w, (regroup v w acc bits l).1[i]? =
      some (BitVec.ofNat 8 ((acc * 2 ^ (v * l.length) + digitsNumber v l) / 2 ^ (bits + v * l.length - w * (i + 1)) % 2 ^ w)) := by
  intro l
  induction l with
  | nil =>
    intro acc bits _ hb
    refine ⟨by simp [regroup, digitsNumber], by simp [regroup, Nat.mod_eq_of_lt hb],
      by simp [regroup, Nat.div_eq_of_lt hb], fun i hi => ?_⟩
    simp [Nat.div_eq_of_lt hb] at hi
  | cons x l ih =>
    intro acc bits hx hb
    have hxv := hx x (by simp)
    have hlv : ∀ x ∈ l, x.toNat < 2 ^ v := fun y hy => hx y (by simp [hy])
    have hnl := digitsNumber_lt v hv l hlv
    obtain ⟨d1, d2, d3⟩ := drainGroups_spec w (acc * 2 ^ v + x.toNat) hw (bits + v) (bits + v) le_rfl
    obtain ⟨r1, r2, r3, r4⟩ := ih (acc * 2 ^ v + x.toNat) ((bits + v) % w) hlv (Nat.mod_lt _ hw)
    have hacc : acc * 2 ^ (v * (x :: l).length) + digitsNumber v (x :: l)
        = (acc * 2 ^ v + x.toNat) * 2 ^ (v * l.length) + digitsNumber v l := by
      rw [digitsNumber_cons, List.length_cons, Nat.mul_add, Nat.mul_one, Nat.pow_add]; ring
    have hdm := Nat.div_add_mod (bits + v) w
    have hT : bits + v * (x :: l).length = w * ((bits + v) / w) + ((bits + v) % w + v * l.length) := by
      rw [List.length_cons, Nat.mul_add]; omega
    unfold regroup
    simp only [shiftLeft_or acc v x hxv]
    rw [d2, hacc]
    refine ⟨r1, ?_, ?_, ?_⟩
    · rw [r2, hT, Nat.mul_add_mod]
    · rw [List.length_append, d1, r3, hT, Nat.mul_add_div hw]
    · intro i hi
      by_cases hc : i < (bits + v) / w
      · rw [List.getElem?_append_left (by rw [d1]; exact hc), d3 i hc]
        have hle : w * (i + 1) ≤ bits + v := by
          calc w * (i + 1) ≤ w * ((bits + v) / w) := Nat.mul_le_mul_left _ hc
            _ ≤ bits + v := Nat.mul_div_le _ _
        have : bits + v * (x :: l).length - w * (i + 1) = v * l.length + (bits + v - w * (i + 1)) := by
          rw [List.length_cons, Nat.mul_add]; omega
        rw [this, Nat.pow_add, ← Nat.div_div_eq_div_mul, Nat.mul_comm (acc * 2 ^ v + x.toNat), Nat.mul_add_div (by positivity),
          Nat.div_eq_of_lt hnl]
        rfl
      · rw [List.getElem?_append_right (by rw [d1]; omega), d1]
        obtain ⟨j, rfl⟩ := Nat.exists_eq_add_of_le (Nat.le_of_not_lt hc)
        rw [Nat.add_sub_cancel_left, r4 j (by rw [hT, Nat.mul_add_div hw] at hi; omega)]
        congr 5
        rw [hT, show (bits + v) / w + j + 1 = (bits + v) / w + (j + 1) by ring, Nat.mul_add w ((bits + v) / w)]; omega

end Sys2Proof.Machine
end

