-- ==== Sys2Proof/Laws/PerInstr.lean ====
section
/-! SUPPORT. Statements for all instructions, made per instruction. Family OpcodeField: the fields of a command's word
(30_encoding.md R70, R77). -/

namespace Sys2Proof.Laws.OpcodeField

/-- Field OP of the command's word is its opcode, and RSV is 0. -/
def Statement (i : Instr) : Prop := wordOp (encode i) = i.opcode ∧ wordRsv (encode i) = 0

theorem hexenc : Statement .hexenc := ⟨by decide, by decide⟩
theorem hexdec : Statement .hexdec := ⟨by decide, by decide⟩
theorem i2b (o : ByteOrder) : Statement (.i2b o) := by cases o <;> exact ⟨by decide, by decide⟩
theorem l2b (o : ByteOrder) : Statement (.l2b o) := by cases o <;> exact ⟨by decide, by decide⟩
theorem b2i (o : ByteOrder) : Statement (.b2i o) := by cases o <;> exact ⟨by decide, by decide⟩
theorem b2l (o : ByteOrder) : Statement (.b2l o) := by cases o <;> exact ⟨by decide, by decide⟩
theorem padp : Statement .padp := ⟨by decide, by decide⟩
theorem unpadp : Statement .unpadp := ⟨by decide, by decide⟩
theorem ascii : Statement .ascii := ⟨by decide, by decide⟩
theorem b58enc : Statement .b58enc := ⟨by decide, by decide⟩
theorem b58dec : Statement .b58dec := ⟨by decide, by decide⟩
theorem b64enc : Statement .b64enc := ⟨by decide, by decide⟩
theorem b64uenc : Statement .b64uenc := ⟨by decide, by decide⟩
theorem b64dec : Statement .b64dec := ⟨by decide, by decide⟩
theorem b32enc : Statement .b32enc := ⟨by decide, by decide⟩
theorem b32dec : Statement .b32dec := ⟨by decide, by decide⟩
theorem to5 : Statement .to5 := ⟨by decide, by decide⟩
theorem from5 : Statement .from5 := ⟨by decide, by decide⟩
theorem bbnew : Statement .bbnew := ⟨by decide, by decide⟩
theorem bbcopy : Statement .bbcopy := ⟨by decide, by decide⟩
theorem bbreset : Statement .bbreset := ⟨by decide, by decide⟩
theorem bbgetpos : Statement .bbgetpos := ⟨by decide, by decide⟩
theorem bbsetpos : Statement .bbsetpos := ⟨by decide, by decide⟩
theorem bbtoout : Statement .bbtoout := ⟨by decide, by decide⟩
theorem bbrd8 : Statement .bbrd8 := ⟨by decide, by decide⟩
theorem bbrd16 : Statement .bbrd16 := ⟨by decide, by decide⟩
theorem bbrdu16 : Statement .bbrdu16 := ⟨by decide, by decide⟩
theorem bbrd32 : Statement .bbrd32 := ⟨by decide, by decide⟩
theorem bbrd64 : Statement .bbrd64 := ⟨by decide, by decide⟩
theorem bbrdstr : Statement .bbrdstr := ⟨by decide, by decide⟩
theorem bbrdbytes : Statement .bbrdbytes := ⟨by decide, by decide⟩
theorem bbwr8 : Statement .bbwr8 := ⟨by decide, by decide⟩
theorem bbwr16 : Statement .bbwr16 := ⟨by decide, by decide⟩
theorem bbwr32 : Statement .bbwr32 := ⟨by decide, by decide⟩
theorem bbwr64 : Statement .bbwr64 := ⟨by decide, by decide⟩
theorem bbwrstr : Statement .bbwrstr := ⟨by decide, by decide⟩
theorem bbwrbytes : Statement .bbwrbytes := ⟨by decide, by decide⟩
theorem bbwrbits : Statement .bbwrbits := ⟨by decide, by decide⟩

end Sys2Proof.Laws.OpcodeField
end

