-- ==== Sys2Proof/Laws/Step.lean ====
section
/-! SUPPORT. One step, said once per kind of access: where a platform address leads, what an offset reaches, and runs of several
steps. -/

namespace Sys2Proof.Machine

/-! ### Runs -/

theorem coreRun_next {M : Host.Core} {k : Nat} {s t : M.State} (h : M.step s = .next t) : M.run (k + 1) s = M.run k t := by
  simp only [Host.Core.run, h]

theorem coreRun_add {M : Host.Core} {k n : Nat} {s t : M.State} (h : M.run k s = .next t) : M.run (k + n) s = M.run n t := by
  induction k generalizing s with
  | zero =>
    simp only [Host.Core.run, Host.Outcome.next.injEq] at h
    rw [Nat.zero_add, h]
  | succ k ih =>
    cases hs : M.step s with
    | next u =>
      rw [coreRun_next hs] at h
      rw [Nat.add_right_comm, coreRun_next hs]
      exact ih h
    | fault f => simp [Host.Core.run, hs] at h
    | refused r => simp [Host.Core.run, hs] at h

theorem run_next {k : Nat} {s t : State} (h : step s = .next t) :
    Sys2Proof.core.run (k + 1) s = Sys2Proof.core.run k t := coreRun_next (M := Sys2Proof.core) h

theorem run_add {k n : Nat} {s t : State} (h : Sys2Proof.core.run k s = .next t) :
    Sys2Proof.core.run (k + n) s = Sys2Proof.core.run n t := coreRun_add (M := Sys2Proof.core) h

theorem run_zero (s : State) : Sys2Proof.core.run 0 s = .next s := rfl

/-! ### Addresses -/

theorem offsetOf_base (c : Config) {off : Nat} (h : off < 0x40000) : offsetOf c (c.kecBase + off) = some off := by
  unfold offsetOf spaceSize
  rw [if_pos (by omega), Nat.add_sub_cancel_left]

theorem target_cmd (c : Config) : target c 0 4 = some (.reg .cmd) := rfl

/-- No register stands at an offset outside 0x000-0x03B and 0x040-0x04F (R51). -/
theorem regMap_find_none {off : Nat} (h : 0x3C ≤ off) (h' : off < 0x40 ∨ 0x50 ≤ off) :
    regMap.find? (fun r => decide (r.off ≤ off ∧ off < r.off + r.bytes)) = none := by
  rw [List.find?_eq_none]
  intro r hr
  simp only [decide_eq_true_eq]
  have : r.off + r.bytes ≤ 0x3C ∨ (0x40 ≤ r.off ∧ r.off + r.bytes ≤ 0x50) := by
    revert r; decide
  omega

theorem target_inByte {c : Config} (hl : c.Legal) {k : Nat} (h : k < c.inCap) :
    target c (0x10000 + k) 1 = some (.inByte k) := by
  have := hl.1.2
  unfold target
  rw [regMap_find_none (by omega) (by omega)]
  unfold inBase
  dsimp only
  rw [if_pos (by omega), if_pos rfl, Nat.add_sub_cancel_left]

theorem target_outByte {c : Config} (hl : c.Legal) {k : Nat} (h : k < c.outCap) :
    target c (0x20000 + k) 1 = some (.outByte k) := by
  have := hl.1.2
  have := hl.2.1.2
  unfold target
  rw [regMap_find_none (by omega) (by omega)]
  unfold inBase outBase
  dsimp only
  rw [if_neg (by omega), if_pos (by omega), if_pos rfl, Nat.add_sub_cancel_left]

/-! ### One access -/

theorem step_bus {s : State} {a : Access} {rest : List Access} (hb : s.bus = a :: rest) :
    step s = performAccess a (s.setBus rest) := by
  unfold step
  rw [hb]

theorem step_idle {s : State} (hb : s.bus = []) : step s = .next s := by
  unfold step
  rw [hb]

theorem performRead_some {s : State} {off n : Nat} {t : Target} (ho : off < 0x40000) (ht : target s.cfg off n = some t) :
    performRead (s.cfg.kecBase + off) n s = .next (readTarget t s) := by
  simp only [performRead, offsetOf_base _ ho, ht]

/-- A read that is performed changes only the value returned and the count of draws. -/
theorem readTarget_frame (t : Target) (s : State) :
    readTarget t s = { s with readData := (readTarget t s).readData, draws := (readTarget t s).draws } := by
  cases t with
  | outByte k => by_cases hk : k < s.outLen.toNat <;> simp only [readTarget, hk, if_true, if_false] <;> rfl
  | _ => rfl

/-- A write short of CMD's changes only IN, IN_LEN, ARG0 and ARG1. -/
theorem writeTarget_frame {t : Target} (v : DWord) (s : State) (hc : t ≠ .reg .cmd) :
    writeTarget t v s = { s with
      inWin := (writeTarget t v s).inWin, inLen := (writeTarget t v s).inLen
      arg0 := (writeTarget t v s).arg0, arg1 := (writeTarget t v s).arg1 } := by
  cases t with
  | reg r => cases r <;> first | rfl | exact absurd rfl hc
  | _ => rfl

/-- A target that is not beyond the result reads the same value again. -/
theorem readTarget_again {t : Target} {s : State} (h : ∀ k, t = .outByte k → k < s.outLen.toNat) :
    readTarget t (readTarget t s) = readTarget t s := by
  cases t with
  | reg r => cases r <;> rfl
  | outByte k =>
    have hk := h k rfl
    unfold readTarget
    simp only [if_pos hk, State.returnRead_outLen, State.returnRead_outAt]
    rfl
  | _ => rfl

theorem performRead_none {s : State} {off n : Nat} (ho : off < 0x40000) (ht : target s.cfg off n = none) :
    performRead (s.cfg.kecBase + off) n s = .refused (.outsideContract (s.cfg.kecBase + off) n) := by
  simp only [performRead, offsetOf_base _ ho, ht]

theorem performWrite_some {s : State} {off n : Nat} {v : DWord} {t : Target} (ho : off < 0x40000)
    (ht : target s.cfg off n = some t) (hc : t ≠ .reg .cmd) :
    performWrite (s.cfg.kecBase + off) n v s = .next (writeTarget t v s) := by
  simp only [performWrite, offsetOf_base _ ho, ht, if_neg hc]

theorem performWrite_none {s : State} {off n : Nat} {v : DWord} (ho : off < 0x40000) (ht : target s.cfg off n = none) :
    performWrite (s.cfg.kecBase + off) n v s = .refused (.outsideContract (s.cfg.kecBase + off) n) := by
  simp only [performWrite, offsetOf_base _ ho, ht]

/-- The write of a command word performs what CMD then holds. -/
theorem performWrite_cmd (v : DWord) (s : State) :
    performWrite s.cfg.kecBase 4 v s = performCommand (s.setCmd (v.setWidth 32)) := by
  have := offsetOf_base s.cfg (off := 0) (by omega)
  rw [Nat.add_zero] at this
  simp only [performWrite, this, target_cmd]
  rfl

end Sys2Proof.Machine
end

