-- ==== Sys2Proof/Tests/Slice0.lean ====
section
/-! SUPPORT. The model's own tests: the well-formedness checks refuse ill-formed terms, words written out from the opcode map
decode, at most two tests an instruction with results from 95_test_vectors.md, and for every obligation with hypotheses a state
that meets them. -/

namespace Sys2Proof.Tests

open Sys2Proof.Machine Sys2Proof.Claims

/-! ### Small states -/

/-- State.reset with `b` loaded as INSEQ. -/
def loaded (b : List Byte) : State :=
  { State.reset with inWin := Memory.insertRun [] 0 b, inLen := BitVec.ofNat 32 b.length }

/-- `loaded`, with ARG0. -/
def loaded0 (b : List Byte) (a : DWord) : State := (loaded b).setArg0 a

/-- State.reset with ARG0 and ARG1. -/
def withArgs (a b : DWord) : State := (State.reset.setArg0 a).setArg1 b

/-- A buffer over the bytes `l` with the byte cursor at `pos`. -/
def bufferOf (l : List Byte) (pos : Nat) (m : WriteMode) : Buffer :=
  { store := Memory.storePutRun [] 0 l, cap := BitVec.ofNat 32 l.length, pos := BitVec.ofNat 32 pos, bitpos := 0, mode := m }

/-- `s` with a buffer. -/
def onBuffer (s : State) (l : List Byte) (pos : Nat) : State := s.setBuf (bufferOf l pos .none)

/-- The smallest legal windows and buffer but for IN, of 4 bytes. -/
def tiny : Config := { Config.standard with inCap := 4, outCap := 8, bbMaxCap := 8 }

/-- The same state in another build. -/
def inBuild (c : Config) (s : State) : State := { s with cfg := c }

/-- STATUS and the bytes of OUT below OUT_LEN after a command. -/
def emitted (o : Host.Outcome State Fault Refusal) : Option (Word × List Byte) :=
  match o with
  | .next t => some (t.status, (List.range t.outLen.toNat).filterMap t.outWin.lookup)
  | _ => none

/-- STATUS and RES after a command. -/
def result (o : Host.Outcome State Fault Refusal) : Option (Word × DWord) :=
  match o with
  | .next t => some (t.status, t.res)
  | _ => none

/-- STATUS, STORE's bytes, BB_POS and BB_BITPOS after a command. -/
def buffered (o : Host.Outcome State Fault Refusal) : Option (Word × List Byte × Word × Word) :=
  match o with
  | .next t => some (t.status, t.buf.store.storeSlice 0 t.buf.cap.toNat, t.buf.pos, t.buf.bitpos)
  | _ => none

/-- The state a command leaves, or the state it started from. -/
def after (i : Instr) (s : State) : State :=
  match exec i s with
  | .next t => t
  | _ => s

/-! ### Well-formedness: a term that each check refuses -/

theorem test_wf_refuses_undefined_opcode : CommandFields.wf ⟨0x0A, 0, 0⟩ = false := by decide
theorem test_wf_refuses_opcode_zero : CommandFields.wf ⟨0x00, 0, 0⟩ = false := by decide
theorem test_wf_refuses_flag_on_hexenc : CommandFields.wf ⟨0x01, 1, 0⟩ = false := by decide
theorem test_wf_refuses_reserved_bits : CommandFields.wf ⟨0x01, 0, 1⟩ = false := by decide
theorem test_wf_accepts_b2i_be : CommandFields.wf ⟨0x05, 1, 0⟩ = true := by decide
theorem test_legal_refuses_in_cap : ¬ { Config.standard with inCap := 0 }.Legal := by decide
theorem test_legal_refuses_out_cap : ¬ { Config.standard with outCap := 7 }.Legal := by decide
theorem test_legal_refuses_max_cap : ¬ { Config.standard with bbMaxCap := 2 ^ 28 + 1 }.Legal := by decide
theorem test_legal_refuses_alphabet : ¬ { Config.standard with b58Alphabet := [] }.Legal := by decide
theorem test_legal_refuses_generators : ¬ { Config.standard with bech32Gen := [1] }.Legal :=
  fun h => absurd h.2.2.2.2.1 (by decide)
theorem test_legal_refuses_base : ¬ { Config.standard with kecBase := 4 }.Legal := fun h => absurd h.2.2.2.2.2 (by decide)
theorem test_legal_accepts_standard : Config.standard.Legal := by decide

/-! ### Decoding: words written out from 30_encoding.md R70 and R75 (RSV, E, OP) -/

theorem test_decode_hexenc : decode 0b00000000000000000000000_0_00000001 = .ok .hexenc := by decide
theorem test_decode_b2i_be : decode 0b00000000000000000000000_1_00000101 = .ok (.b2i .big) := by decide
theorem test_decode_b2i_le : decode 0b00000000000000000000000_0_00000101 = .ok (.b2i .little) := by decide
theorem test_decode_unpadp : decode 0b00000000000000000000000_0_00001000 = .ok .unpadp := by decide
theorem test_decode_b58dec : decode 0b00000000000000000000000_0_00010001 = .ok .b58dec := by decide
theorem test_decode_b64uenc : decode 0b00000000000000000000000_0_00100001 = .ok .b64uenc := by decide
theorem test_decode_from5 : decode 0b00000000000000000000000_0_00110011 = .ok .from5 := by decide
theorem test_decode_bbtoout : decode 0b00000000000000000000000_0_01000101 = .ok .bbtoout := by decide
theorem test_decode_bbrdu16 : decode 0b00000000000000000000000_0_01001010 = .ok .bbrdu16 := by decide
theorem test_decode_bbwrbits : decode 0b00000000000000000000000_0_01010110 = .ok .bbwrbits := by decide

/-- Every row of the opcode map by its number in R75, the flagged commands with E = 0 and E = 1. -/
theorem test_decode_all :
    [0x01, 0x02, 0x03, 0x103, 0x04, 0x104, 0x05, 0x105, 0x06, 0x106, 0x07, 0x08, 0x09, 0x10, 0x11, 0x20, 0x21, 0x22,
      0x30, 0x31, 0x32, 0x33].map (decodeTableWord 32)
    = [Instr.hexenc, .hexdec, .i2b .little, .i2b .big, .l2b .little, .l2b .big, .b2i .little, .b2i .big, .b2l .little,
      .b2l .big, .padp, .unpadp, .ascii, .b58enc, .b58dec, .b64enc, .b64uenc, .b64dec,
      .b32enc, .b32dec, .to5, .from5].map some := by decide

theorem test_decode_all_buffer :
    [0x40, 0x41, 0x42, 0x43, 0x44, 0x45, 0x48, 0x49, 0x4A, 0x4B, 0x4C, 0x4D, 0x4E, 0x50, 0x51, 0x52, 0x53, 0x54, 0x55,
      0x56].map (decodeTableWord 32)
    = [Instr.bbnew, .bbcopy, .bbreset, .bbgetpos, .bbsetpos, .bbtoout, .bbrd8, .bbrd16, .bbrdu16, .bbrd32, .bbrd64,
      .bbrdstr, .bbrdbytes, .bbwr8, .bbwr16, .bbwr32, .bbwr64, .bbwrstr, .bbwrbytes, .bbwrbits].map some := by decide

/-- Section 7.10: words that are no command. -/
theorem test_decode_rejects : [0x00, 0x0F, 0x3F, 0x47, 0x4F, 0x57, 0xFF].map (fun w => decode (BitVec.ofNat 32 w))
    = List.replicate 7 (.error .illegalOpcode) := by decide

theorem test_decode_rejects_reserved : [0x201, 0x301, 0x101, 0x10005].map (fun w => decode (BitVec.ofNat 32 w))
    = List.replicate 4 (.error .reservedField) := by decide

theorem test_opcodes_distinct : opcodeMap.Pairwise (fun a b => a.op ≠ b.op) := by decide

/-! ### The step, from State.reset with the next word placed -/

theorem test_step_runs_word : emitted (step (State.reset.withFetchWord 32 0x10)) = some (0x00100000, []) := by decide
theorem test_step_illegal_word : emitted (step (State.reset.withFetchWord 32 0xFF)) = some (0x00FF3012, []) := by decide
theorem test_step_reads_policy :
    (match step { State.reset with bus := [.read 0x04C 4], cfg := { tiny with hex0xUpper := .accept } } with
      | .next t => some t.readData | _ => none) = some 0x10 := by decide
theorem test_step_outside_block :
    step { State.reset with bus := [.read 0x40000 4] } = .fault (.outsideAddressSpace 0x40000) := by rfl
theorem test_step_outside_contract :
    step { State.reset with bus := [.read 0x000 1] } = .refused (.outsideContract 0x000 1) := by rfl

/-! ### Integer / Hex / Padding unit (95_test_vectors.md section 3) -/

theorem test_hexenc : emitted (exec .hexenc (loaded [0x00, 0xFF, 0x10])) = some (0x00010000, asciiBytes "00ff10") := by decide
theorem test_hexenc_overflow :
    emitted (exec .hexenc (inBuild { tiny with inCap := 5 } (loaded [1, 2, 3, 4, 5]))) = some (0x00012A0A, []) := by decide
theorem test_hexdec : emitted (exec .hexdec (loaded (asciiBytes "0x00ff10"))) = some (0x00020000, [0x00, 0xFF, 0x10]) := by
  decide
theorem test_hexdec_odd : emitted (exec .hexdec (loaded (asciiBytes "zzz"))) = some (0x00020206, []) := by decide
theorem test_i2b : emitted (exec (.i2b .big) (withArgs 0x1122334455667788 0)) = some (0x00030000, [0x55, 0x66, 0x77, 0x88]) := by
  decide
theorem test_i2b_le : emitted (exec (.i2b .little) (withArgs 0x01020304 0)) = some (0x00030000, [4, 3, 2, 1]) := by decide
theorem test_l2b : emitted (exec (.l2b .big) (withArgs 0x8000000000000000 0))
    = some (0x00040000, [0x80, 0, 0, 0, 0, 0, 0, 0]) := by decide
theorem test_l2b_le : emitted (exec (.l2b .little) (withArgs 0x0102030405060708 0))
    = some (0x00040000, [8, 7, 6, 5, 4, 3, 2, 1]) := by decide
theorem test_b2i : result (exec (.b2i .big) (loaded [0x80])) = some (0x00050000, 0x80) := by decide
theorem test_b2i_le : result (exec (.b2i .little) (loaded [0x80])) = some (0x00050000, 0xFFFFFFFF80000000) := by decide
theorem test_b2l : result (exec (.b2l .big) (loaded [0x12, 0x34])) = some (0x00060000, 0x1234) := by decide
theorem test_b2l_msb : result (exec (.b2l .little) (inBuild { Config.standard with intPadLE := .msb } (loaded [0x12, 0x34])))
    = some (0x00060000, 0x3412) := by decide
theorem test_padp : emitted (exec .padp (loaded0 (asciiBytes "ABC") 8)) = some (0x00070000, [0x41, 0x42, 0x43, 5, 5, 5, 5, 5]) := by
  decide
theorem test_padp_block : emitted (exec .padp (loaded0 (asciiBytes "A") 256)) = some (0x0007210A, []) := by decide
theorem test_unpadp : emitted (exec .unpadp (loaded [0x41, 0x42, 2, 2])) = some (0x00080000, [0x41, 0x42]) := by decide
theorem test_unpadp_differ : emitted (exec .unpadp (loaded [0x41, 2, 3])) = some (0x00080406, []) := by decide
theorem test_ascii : emitted (exec .ascii (loaded [0x7F])) = some (0x00090000, [0x7F]) := by decide
theorem test_ascii_bad : emitted (exec .ascii (loaded [0x80])) = some (0x00090306, []) := by decide

/-! ### Base58 and Base64 units (sections 4 and 5) -/

theorem test_b58enc : emitted (exec .b58enc (loaded [0x00, 0x00, 0x28, 0x7F, 0xB4, 0xCD]))
    = some (0x00100000, asciiBytes "11233QC4") := by decide
theorem test_b58enc_carry : emitted (exec .b58enc (loaded [0x3A])) = some (0x00100000, asciiBytes "21") := by decide
theorem test_b58dec : emitted (exec .b58dec (loaded (asciiBytes "z1"))) = some (0x00110000, [0x0C, 0xEA]) := by decide
theorem test_b58dec_bad : emitted (exec .b58dec (loaded (asciiBytes "1+"))) = some (0x00110106, []) := by decide
theorem test_b64enc : emitted (exec .b64enc (loaded [0xFB, 0xFF])) = some (0x00200000, asciiBytes "+/8") := by decide
theorem test_b64uenc : emitted (exec .b64uenc (loaded [0xFB, 0xFF])) = some (0x00210000, asciiBytes "-_8") := by decide
theorem test_b64dec : emitted (exec .b64dec (loaded (asciiBytes "TW=E"))) = some (0x00220000, [0x4D, 0x61]) := by decide
theorem test_b64dec_tail : emitted (exec .b64dec (inBuild { Config.standard with b64Tail1 := .reject } (loaded (asciiBytes "T"))))
    = some (0x00220C06, []) := by decide

/-! ### Bech32 unit (section 6) -/

theorem test_b32enc : emitted (exec .b32enc (loaded0 (asciiBytes "A") 1)) = some (0x00300000, asciiBytes "a12uel5l") := by
  decide
theorem test_b32enc_prefix_length : emitted (exec .b32enc (loaded0 (asciiBytes "ab") 3)) = some (0x00302B0A, []) := by decide
theorem test_b32dec : emitted (exec .b32dec (loaded (asciiBytes "bc1q9zpgru"))) = some (0x00310000, [0x62, 0x63, 0]) := by
  decide +kernel
theorem test_b32dec_checksum : emitted (exec .b32dec (loaded (asciiBytes "a12uel5m"))) = some (0x0031100E, []) := by decide
theorem test_to5 : emitted (exec .to5 (loaded [1, 2, 3])) = some (0x00320000, [0, 4, 1, 0, 6]) := by decide
theorem test_from5 : emitted (exec .from5 (loaded [1, 2, 3, 4, 5, 6, 7, 8]))
    = some (0x00330000, [0x08, 0x86, 0x42, 0x98, 0xE8]) := by decide
theorem test_from5_padding : emitted (exec .from5 (loaded [31])) = some (0x00330B06, []) := by decide

/-! ### Byte Buffer unit (section 7) -/

theorem test_bbnew : buffered (exec .bbnew (withArgs 4 0)) = some (0x00400000, [0, 0, 0, 0], 0, 0) := by decide
theorem test_bbnew_ceiling : buffered (exec .bbnew (withArgs 65537 0)) = some (0x0040290A, [], 0, 0) := by decide
theorem test_bbcopy : buffered (exec .bbcopy (loaded [0x10, 0x20, 0x30, 0x40]))
    = some (0x00410000, [0x10, 0x20, 0x30, 0x40], 0, 0) := by decide
theorem test_bbreset : buffered (exec .bbreset (onBuffer State.reset [1, 2] 1)) = some (0x00420000, [], 0, 0) := by decide
theorem test_bbgetpos : result (exec .bbgetpos (onBuffer State.reset [0x12, 0x34] 2)) = some (0x00430000, 2) := by decide
theorem test_bbsetpos : buffered (exec .bbsetpos (onBuffer (withArgs 2 0) [1, 2] 0)) = some (0x00440000, [1, 2], 2, 0) := by
  decide
theorem test_bbsetpos_range : buffered (exec .bbsetpos (onBuffer (withArgs 3 0) [1, 2] 0)) = some (0x0044230A, [1, 2], 0, 0) := by
  decide
theorem test_bbtoout : emitted (exec .bbtoout (onBuffer State.reset [0xB1, 0xA0] 1)) = some (0x00450000, [0xB1]) := by decide
theorem test_bbrd8 : result (exec .bbrd8 (onBuffer State.reset [0x80] 0)) = some (0x00480000, 0xFFFFFFFFFFFFFF80) := by decide
theorem test_bbrd8_end : result (exec .bbrd8 (onBuffer State.reset [0x80] 1)) = some (0x0048220A, 0) := by decide
theorem test_bbrd16 : result (exec .bbrd16 (onBuffer State.reset [0xDE, 0xAD] 0)) = some (0x00490000, 0xFFFFFFFFFFFFDEAD) := by
  decide
theorem test_bbrdu16 : result (exec .bbrdu16 (onBuffer State.reset [0x80, 0x00] 0)) = some (0x004A0000, 0x8000) := by decide
theorem test_bbrd32 : result (exec .bbrd32 (onBuffer State.reset [0xCA, 0xFE, 0xBA, 0xBE] 0))
    = some (0x004B0000, 0xFFFFFFFFCAFEBABE) := by decide
theorem test_bbrd64 : result (exec .bbrd64 (onBuffer State.reset [0x80, 0, 0, 0, 0, 0, 0, 1] 0))
    = some (0x004C0000, 0x8000000000000001) := by decide
theorem test_bbrdstr : emitted (exec .bbrdstr (onBuffer State.reset [0x68, 0x69, 0x0A, 0x00] 0))
    = some (0x004D0000, asciiBytes "hi") := by decide
theorem test_bbrdstr_none : emitted (exec .bbrdstr (onBuffer State.reset [0x41] 0)) = some (0x004D260A, []) := by decide
theorem test_bbrdbytes : emitted (exec .bbrdbytes (onBuffer (withArgs 0 2) [0x10, 0x20, 0x30, 0x40] 1))
    = some (0x004E0000, [0x20, 0x30]) := by decide
theorem test_bbrdbytes_dest : emitted (exec .bbrdbytes (onBuffer (withArgs 4094 3) [0x10, 0x20, 0x30, 0x40] 0))
    = some (0x004E240A, []) := by decide
theorem test_bbwr8 : buffered (exec .bbwr8 (onBuffer (withArgs 0xAB 0) [1, 2, 3, 4] 4))
    = some (0x00500000, [1, 2, 3, 4, 0xAB, 0, 0, 0], 5, 0) := by decide
theorem test_bbwr16 : buffered (exec .bbwr16 (withArgs 0x1234 0)) = some (0x00510000, [0x12, 0x34], 2, 0) := by decide
theorem test_bbwr32 : buffered (exec .bbwr32 (withArgs 0x01020304 0)) = some (0x00520000, [1, 2, 3, 4], 4, 0) := by decide
theorem test_bbwr32_clamped :
    buffered (exec .bbwr32 (inBuild { tiny with bbMaxCap := 12 } (onBuffer (withArgs 0x0A0B0C0D 0) [1, 2, 3, 4, 5, 6, 7, 8] 8)))
    = some (0x00520000, [1, 2, 3, 4, 5, 6, 7, 8, 0x0A, 0x0B, 0x0C, 0x0D], 12, 0) := by decide
theorem test_bbwr64 : buffered (exec .bbwr64 (withArgs 0x8000000000000001 0))
    = some (0x00530000, [0x80, 0, 0, 0, 0, 0, 0, 1], 8, 0) := by decide
theorem test_bbwrstr : buffered (exec .bbwrstr (loaded (asciiBytes "hi"))) = some (0x00540000, [0x68, 0x69, 0x0A, 0x00], 3, 0) := by
  decide
theorem test_bbwrbytes : buffered (exec .bbwrbytes ((loaded0 [0x10, 0x20, 0x30, 0x40] 1).setArg1 2))
    = some (0x00550000, [0x20, 0x30], 2, 0) := by decide
theorem test_bbwrbytes_range : buffered (exec .bbwrbytes ((loaded0 [0x10, 0x20, 0x30, 0x40] 3).setArg1 2))
    = some (0x0055250A, [], 0, 0) := by decide
theorem test_bbwrbits : buffered (exec .bbwrbits (withArgs 3 5)) = some (0x00560000, [0xA0], 0, 3) := by decide
theorem test_bbwrbits_next : buffered (exec .bbwrbits (((withArgs 5 17).setBuf { bufferOf [0xA0] 0 .bit with bitpos := 3 })))
    = some (0x00560000, [0xB1], 0, 8) := by decide

/-! ### Witnesses: states that meet the hypotheses of the obligations, at the boundaries of their clauses -/

/-- The host has copied OUT of `t` into the input of a fresh state of the same build (COPYOUT). -/
def copied (t : State) : State := { State.resetOf t.cfg with inWin := t.outWin, inLen := t.outLen }

/-- A build with the standard alphabet is legal when its sizes, generators and base are. -/
theorem legal_of_sizes {c : Config} (ha : c.b58Alphabet = Config.standard.b58Alphabet)
    (h1 : (1 ≤ c.inCap ∧ c.inCap ≤ 65536) ∧ (8 ≤ c.outCap ∧ c.outCap ≤ 65536) ∧ (8 ≤ c.bbMaxCap ∧ c.bbMaxCap ≤ 2 ^ 28))
    (h2 : c.bech32Gen.length = 5 ∧ c.kecBase % 0x40000 = 0) : c.Legal :=
  ⟨h1.1, h1.2.1, h1.2.2, by unfold Config.AlphabetLegal; rw [ha]; exact test_legal_accepts_standard.2.2.2.1, h2⟩

theorem legal_tiny : tiny.Legal := legal_of_sizes rfl (by decide) (by decide)

/-- `s` with one access pending. -/
def pending (s : State) (a : Access) : State := s.setBus [a]

/-- A used state of the smallest build: a byte in IN, OUT and STORE, and a failed command's STATUS. -/
def used : State :=
  { State.resetOf tiny with
    inWin := [(3, 7)], inLen := 1, outWin := [(7, 9)], outLen := 8, status := failWord 0x48 2 0x22,
    buf := { store := [(7, 0xFF)], cap := 8, pos := 8, bitpos := 64, mode := .byte } }

theorem witness_EncodeOfDecode : decode 0x105 = .ok (.b2i .big) := by decide

theorem witness_IllegalWordsFail :
    (pending used (.write used.cfg.kecBase 4 0x57)).bus = .write used.cfg.kecBase 4 0x57 :: [] ∧
    (opcodeDefined (wordOp 0x00) = false ∧ opcodeDefined (wordOp 0x57) = false ∧ opcodeDefined (wordOp 0xFF) = false) ∧
    (opcodeDefined (wordOp 0x201) = true ∧ 512 ≤ (0x201 : Word).toNat) ∧
    (opcodeDefined (wordOp 0x156) = true ∧ 256 ≤ (0x156 : Word).toNat ∧ flagAllowed (wordOp 0x156) = false) ∧
    (opcodeDefined (wordOp 0x103) = true ∧ (0x103 : Word).toNat < 512 ∧ flagAllowed (wordOp 0x103) = true) ∧
    (opcodeDefined (wordOp 0x56) = true ∧ (0x56 : Word).toNat < 256) := by decide

theorem witness_StepRunsDecodedCommand :
    (pending used (.write used.cfg.kecBase 4 0x48)).bus = .write used.cfg.kecBase 4 0x48 :: [] ∧
    decode ((0x48 : DWord).setWidth 32) = .ok .bbrd8 := by decide

theorem witness_CmdHoldsLastWord :
    (∃ t, step (pending used (.write used.cfg.kecBase 4 0xFF)) = .next t) ∧
    (∃ t, step (pending used (.read used.cfg.kecBase 4)) = .next t) ∧ (∃ t, exec .bbrd8 used = .next t) :=
  ⟨⟨_, rfl⟩, ⟨_, rfl⟩, ⟨_, rfl⟩⟩

theorem witness_AccessesRunInOrder :
    used.bus = [] ∧ ∃ t, step (used.setBus [.read 0x004 4, .reset]) = .next t := ⟨rfl, ⟨_, rfl⟩⟩

/-- Reads of an unwritten IN byte and of the last OUT byte below OUT_LEN repeat; from OUT_LEN on they do not count. -/
theorem witness_HostReadsHaveNoSideEffects :
    ((∃ t, step (used.setBus [.read 0x10000 1, .read 0x10000 1]) = .next t) ∧ used.inWin.lookup 0 = none ∧
      ¬ ReadsBeyondResult used 0x10000) ∧
    ((∃ t, step (used.setBus [.read 0x20007 1, .read 0x20007 1]) = .next t) ∧ ¬ ReadsBeyondResult used 0x20007) ∧
    ReadsBeyondResult (State.resetOf tiny) 0x20000 ∧
    ((∃ t, step (pending used (.write 0x10003 1 5)) = .next t) ∧ 0x10003 ≠ used.cfg.kecBase) :=
  ⟨⟨⟨_, rfl⟩, by decide, by decide⟩, ⟨⟨_, rfl⟩, by decide⟩, by decide, ⟨_, rfl⟩, by decide⟩

theorem witness_RegisterReadsReturnState :
    (0x000, 4, used.cmd.setWidth 64) ∈ registerBlock used ∧ (0x038, 4, 1) ∈ registerBlock used ∧
    (0x03C, 4, 0) ∈ registerBlock used ∧ (0x04C, 4, 0) ∈ registerBlock used := by decide

theorem witness_RegisterWritesStore :
    (pending used (.write (used.cfg.kecBase + 0x018) 8 5)).bus = .write (used.cfg.kecBase + 0x018) 8 5 :: [] := by decide

theorem witness_ReservedOffsetsReadZero :
    ReservedOffset tiny 0x03C ∧ ReservedOffset tiny 0x050 ∧ ReservedOffset tiny 0xFFFF ∧ ReservedOffset tiny 0x10004 ∧
    ReservedOffset tiny 0x20008 ∧ ReservedOffset tiny 0x3FFFF ∧ 0x3FFC % 4 = 0 := by decide

theorem witness_ReservedOffsetsReadZero_ignored : (0x020, 8) ∈ ignoredRegisters ∧ (0x04C, 4) ∈ ignoredRegisters := by decide

theorem witness_InWindowReadAfterWrite :
    used.cfg.Legal ∧ 0 < used.cfg.inCap ∧ 3 < used.cfg.inCap ∧ used.inWin.lookup 3 = some 7 :=
  ⟨legal_tiny, by decide⟩

theorem witness_OutWindowReads :
    used.cfg.Legal ∧ 7 < used.cfg.outCap ∧ 7 < used.outLen.toNat ∧ used.outWin.lookup 7 = some 9 ∧
    0 < used.outLen.toNat ∧ used.outWin.lookup 0 = none ∧ (State.resetOf tiny).outLen.toNat ≤ 0 :=
  ⟨legal_tiny, by decide⟩

theorem witness_AccessContract_outside : ∀ p ∈ [(0x000, 8), (0x002, 4), (0x10000, 4), (0x20007, 2), (0x03E, 4), (0x3FFFE, 4)],
    tiny.Legal ∧ ¬ InContract tiny p.1 p.2 := by
  simp only [List.forall_mem_cons]
  exact ⟨⟨legal_tiny, by decide⟩, ⟨legal_tiny, by decide⟩, ⟨legal_tiny, by decide⟩, ⟨legal_tiny, by decide⟩, ⟨legal_tiny, by decide⟩,
    ⟨legal_tiny, by decide⟩, by simp⟩

theorem witness_AccessContract : tiny.Legal ∧ InContract tiny 0x000 4 ∧ InContract tiny 0x04C 4 ∧ InContract tiny 0x10003 1 ∧
    InContract tiny 0x20007 1 ∧ InContract tiny 0x10004 4 ∧ InContract tiny 0x3FFFC 4 :=
  ⟨legal_tiny, by decide, by decide, by decide, by decide, by decide, by decide⟩

theorem witness_LdinLoadsInput :
    used.cfg.Legal ∧ [1, 2, 3, 4].length ≤ used.cfg.inCap ∧
    (used.setBus (asmLdin used.cfg [1, 2, 3, 4])).bus = asmLdin used.cfg [1, 2, 3, 4] ++ [] :=
  ⟨legal_tiny, by decide⟩

theorem witness_ResetValues : (∃ u : State, u.cfg = tiny ∧ platformReset used = platformReset u) ∧
    (pending used .reset).bus = .reset :: [] := ⟨⟨used, rfl, rfl⟩, rfl⟩

theorem witness_StepKeepsInvariant : used.Inv ∧ (pending used (.write 0x000 4 0x50)).Inv ∧
    ∃ t, step (pending used (.write 0x000 4 0x50)) = .next t := ⟨⟨legal_tiny, by decide⟩, ⟨legal_tiny, by decide⟩, ⟨_, rfl⟩⟩

theorem witness_CommandsAlwaysEnd : (loaded [1, 2]).InputReady ∧ (inBuild tiny (loaded [1, 2, 3, 4, 5])).InputReady := by decide

theorem witness_UnwrittenInputFaults : used.inLen.toNat ≤ used.cfg.inCap ∧ 0 < used.inLen.toNat ∧
    used.inWin.lookup 0 = none ∧ used.inLen.toNat ≤ 4 ∧ used.inLen.toNat ≤ used.cfg.bbMaxCap := by decide

theorem witness_UnwrittenInputFaults_padp : (used.setArg0 255).arg0.toNat ≤ 255 ∧ 1 ≤ (used.setArg0 255).arg0.toNat ∧
    (∃ t, exec .padp (used.setArg0 255) = .fault t) := ⟨by decide, by decide, ⟨_, rfl⟩⟩

theorem witness_UnwrittenInputFaults_scan : ∀ j < 1, ∃ b : Byte, (loaded [31]).inWin.lookup j = some b ∧ b.toNat ≤ 31 := by
  intro j hj
  obtain rfl : j = 0 := by omega
  exact ⟨31, by decide⟩

/-- The scan clause of the Base58 decoder, with byte 1 of two the unwritten one. -/
theorem witness_UnwrittenInputFaults_b58dec :
    let s := { State.reset with inWin := [(0, 0x31)], inLen := 2 }
    s.inWin.lookup 1 = none ∧ s.inWin.lookup 0 = some 0x31 ∧ (0x31 : Byte) ∈ s.cfg.b58Alphabet ∧
      exec .b58dec s = .fault (.unwrittenInput .b58dec) := by
  refine ⟨by decide, by decide, by decide, by rfl⟩

/-- Both kinds of padding clause: an unwritten padding byte, and an unwritten byte before whole padding. -/
theorem witness_UnwrittenInputFaults_unpadp :
    exec .unpadp { State.reset with inWin := [(2, 2)], inLen := 3 } = .fault (.unwrittenInput .unpadp) ∧
    exec .unpadp { State.reset with inWin := [(1, 2), (2, 2)], inLen := 3 } = .fault (.unwrittenInput .unpadp) ∧
    exec .unpadp { State.reset with inWin := [(0, 2)], inLen := 2 } = .fault (.unwrittenInput .unpadp) := by
  refine ⟨by rfl, by rfl, by rfl⟩

/-- The scan clause of B32ENC: the prefix is written, the one data value is not. -/
theorem witness_UnwrittenInputFaults_b32enc :
    let s := { State.reset with inWin := [(0, 0x61)], inLen := 2, arg0 := 1 }
    PrefixByte 0x61 ∧ s.inWin.lookup 1 = none ∧ s.arg0.toNat ≤ s.inLen.toNat ∧
      exec .b32enc s = .fault (.unwrittenInput .b32enc) := by
  refine ⟨by unfold PrefixByte; decide, by decide, by decide, by rfl⟩

/-- Byte writes at the last place that fits: one byte at cursor 7 of 8. -/
theorem witness_UnwrittenInputFaults_writes :
    let s := { used with buf := { used.buf with pos := 7 }, arg0 := 0, arg1 := 1 }
    ¬ ModeConflict .byte s ∧ s.buf.pos.toNat + s.inLen.toNat ≤ s.cfg.bbMaxCap ∧ s.arg0.toNat + s.arg1.toNat ≤ s.inLen.toNat ∧
      s.inWin.lookup 0 = none ∧ exec .bbwrstr s = .fault (.unwrittenInput .bbwrstr) ∧
      exec .bbwrbytes s = .fault (.unwrittenInput .bbwrbytes) := by
  refine ⟨by decide, by decide, by decide, by decide, by rfl, by rfl⟩

theorem witness_OperandsPersist : (∃ t, exec .bbwr8 used = .next t) ∧ used.cfg.Legal ∧ 3 < used.cfg.inCap ∧
    ∃ t, step (pending used (.write 0x10003 1 0xAA)) = .next t := ⟨⟨_, rfl⟩, legal_tiny, by decide, ⟨_, rfl⟩⟩

theorem witness_FailureChangesOnlyStatus :
    ((∃ t, exec .bbwr8 used = .next t) ∧ statusErr (after .bbwr8 used).status = 1) ∧
    ∃ t, step (pending used (.write used.cfg.kecBase 4 0xFF)) = .next t ∧ statusErr t.status = 1 :=
  ⟨⟨⟨_, rfl⟩, by decide⟩, ⟨_, rfl, by decide⟩⟩

theorem witness_SuccessStatus :
    (∃ t, exec .bbreset used = .next t) ∧ statusErr (after .bbreset used).status = 0 := ⟨⟨_, rfl⟩, by decide⟩

theorem witness_ResWrittenOnlyBySome : WritesRes .bbnew = false ∧ (∃ t, exec .bbnew used = .next t) ∧
    ((∃ t, exec .bbrd64 used = .next t) ∧ statusErr (after .bbrd64 used).status = 1) ∧
    ∃ t, step (pending used (.write 0x020 8 1)) = .next t := ⟨by decide, ⟨_, rfl⟩, ⟨⟨_, rfl⟩, by decide⟩, ⟨_, rfl⟩⟩

theorem witness_OutSplitWrittenOnlyByB32dec :
    (∃ t, exec .bbnew used = .next t) ∧ statusErr (after .b32dec (loaded (asciiBytes "a12uel5m"))).status = 1 ∧
    ((loaded (asciiBytes "a12uel5l")).cfg.Legal ∧ InseqIs (loaded (asciiBytes "a12uel5l")) (asciiBytes "a" ++ 0x31 :: asciiBytes "2uel5l") ∧
      (0x31 : Byte) ∉ asciiBytes "2uel5l" ∧ statusErr (after .b32dec (loaded (asciiBytes "a12uel5l"))).status = 0) ∧
    ∃ t, step (pending used (.write 0x028 4 1)) = .next t := ⟨⟨_, rfl⟩, by decide, ⟨test_legal_accepts_standard, by decide⟩, ⟨_, rfl⟩⟩

theorem witness_OutWrittenOnlyByEmitters : WritesOut .bbrd8 = false ∧ ∃ t, exec .bbrd8 used = .next t := ⟨by decide, ⟨_, rfl⟩⟩

theorem witness_BufferFrame : used.Inv ∧ MakesBuffer .bbwr8 = false ∧ (∃ t, exec .bbwr8 used = .next t) ∧
    used.buf.mode ≠ .none ∧ IsByteWrite .bbrd8 = false ∧ MovesCursor .bbtoout = false :=
  ⟨⟨legal_tiny, by decide⟩, by decide, ⟨_, rfl⟩, by decide, by decide, by decide⟩

/-- IN_LEN over IN_CAP, the first clause of the codecs' obligations. -/
theorem witness_input_too_long : tiny.Legal ∧ tiny.inCap < (inBuild tiny (loaded [1, 2, 3, 4, 5])).inLen.toNat :=
  ⟨legal_tiny, by decide⟩

theorem witness_HexencWritesDigitPairs : InseqIs (loaded []) [] ∧ InseqIs (inBuild tiny (loaded [1, 2, 3, 4])) [1, 2, 3, 4] := by decide

theorem witness_HexdecReadsDigitPairs :
    InseqIs (loaded (asciiBytes "0x0g")) (asciiBytes "0x0g") ∧ HasHexPrefix .reject (asciiBytes "0x0g") ∧
    ¬ HasHexPrefix .reject (asciiBytes "0X12") ∧ HasHexPrefix .accept (asciiBytes "0X12") ∧
    List.Forall₂ IsHexDigit (asciiBytes "fA") [15, 10] ∧ ∀ d, ¬ IsHexDigit 0x67 d := by
  refine ⟨by decide, ?_, ?_, ?_, ?_, ?_⟩
  · exact ⟨by decide, .inl (by decide)⟩
  · rintro ⟨_, h | ⟨h, _⟩⟩
    · exact absurd h (by decide)
    · exact absurd h (by decide)
  · exact ⟨by decide, .inr ⟨rfl, by decide⟩⟩
  · exact .cons (.inr ⟨by decide, by decide, by decide⟩) (.cons (.inr ⟨by decide, by decide, by decide⟩) .nil)
  · intro d h
    simp only [IsHexDigit, show (0x67 : Byte).toNat = 103 from rfl] at h
    omega

theorem witness_IntegersToBytes : tiny.Legal :=
  legal_tiny

theorem witness_BytesToIntegers :
    InseqIs (loaded [1, 2, 3, 4]) [1, 2, 3, 4] ∧ InseqIs (loaded [1, 2, 3, 4, 5, 6, 7, 8]) [1, 2, 3, 4, 5, 6, 7, 8] ∧
    4 < (loaded [1, 2, 3, 4, 5]).inLen.toNat ∧ 8 < (loaded [1, 2, 3, 4, 5, 6, 7, 8, 9]).inLen.toNat := by decide

theorem witness_PadpAppendsPadding :
    InseqIs (loaded0 [1, 2] 1) [1, 2] ∧ 1 ≤ (loaded0 [1, 2] 1).arg0.toNat ∧ (loaded0 [1, 2] 255).arg0.toNat ≤ 255 ∧
    (loaded0 [1] 0).arg0.toNat = 0 ∧ 255 < (loaded0 [1] 256).arg0.toNat := by decide

theorem witness_UnpadpRemovesPadding :
    (loaded []).inLen.toNat = 0 ∧ InseqIs (loaded [2, 2]) [2, 2] ∧ [2, 2].getLast? = some 2 ∧
    ValidPadding [2, 2] 2 ∧ ¬ ValidPadding [3, 3] 3 ∧ ¬ ValidPadding [0] 0 := by
  refine ⟨by decide, by decide, by decide, ?_, ?_, ?_⟩
  · exact ⟨by decide, by decide, by decide⟩
  · exact fun h => absurd h.2.1 (by decide)
  · exact fun h => absurd h.1 (by decide)

theorem witness_AsciiPassesSevenBitBytes : InseqIs (loaded [0x7F]) [0x7F] ∧ (∀ x ∈ [(0x7F : Byte)], x.toNat ≤ 127) ∧
    InseqIs (loaded [0x80]) [0x80] ∧ ∃ x ∈ [(0x80 : Byte)], 127 < x.toNat := by decide

theorem witness_HexIntPadRoundTrips :
    InseqIs (loaded0 [1, 2] 255) [1, 2] ∧ 2 * [1, 2].length ≤ Config.standard.outCap ∧
    [1, 2].length + (loaded0 [1, 2] 255).arg0.toNat ≤ Config.standard.outCap ∧
    CopiedOut (after .hexenc (loaded [1, 2])) (copied (after .hexenc (loaded [1, 2]))) ∧
    CopiedOut (after (.i2b .little) (withArgs 7 0)) (copied (after (.i2b .little) (withArgs 7 0))) ∧
    CopiedOut (after (.l2b .big) (withArgs 7 0)) (copied (after (.l2b .big) (withArgs 7 0))) ∧
    CopiedOut (after .padp (loaded0 [1] 2)) (copied (after .padp (loaded0 [1] 2))) := by decide

theorem witness_B58encWritesBase58 :
    InseqIs (loaded [0, 0, 1]) (List.replicate 2 0 ++ [1]) ∧ [(1 : Byte)].head? ≠ some 0 ∧
    InseqIs (loaded [0]) (List.replicate 1 0 ++ []) ∧ ([] : List Byte).head? ≠ some 0 := by decide

theorem witness_B58decReadsBase58 :
    InseqIs (loaded (asciiBytes "1z")) (List.replicate 1 0x31 ++ asciiBytes "z") ∧ (asciiBytes "z").head? ≠ some 0x31 ∧
    (∀ x ∈ [57], x < 58) ∧ asciiBytes "z" = [57].map (fun x => Config.standard.b58Alphabet.getD x 0) ∧
    ∃ c ∈ asciiBytes "0", c ∉ Config.standard.b58Alphabet := by decide

theorem witness_Base58RoundTrips :
    InseqIs (loaded [0, 58]) [0, 58] ∧ (after .b58enc (loaded [0, 58])).status = okWord 0x10 ∧
    CopiedOut (after .b58enc (loaded [0, 58])) (copied (after .b58enc (loaded [0, 58]))) ∧
    InseqIs (loaded [0, 0]) (List.replicate 2 0) ∧ InseqIs (loaded (asciiBytes "11")) (List.replicate 2 0x31) ∧
    InseqIs (loaded (asciiBytes "121")) (asciiBytes "121") ∧ (∀ c ∈ asciiBytes "121", c ∈ Config.standard.b58Alphabet) ∧
    (after .b58dec (loaded (asciiBytes "121"))).status = okWord 0x11 ∧
    CopiedOut (after .b58dec (loaded (asciiBytes "121"))) (copied (after .b58dec (loaded (asciiBytes "121")))) := by decide

theorem witness_B64encWritesBase64 : InseqIs (loaded [1]) [1] ∧ InseqIs (loaded []) [] := by decide

theorem witness_B64uencWritesUrlSafeBase64 : InseqIs (loaded [0xFB, 0xFF]) [0xFB, 0xFF] := by decide

theorem witness_B64decReadsBase64 :
    InseqIs (loaded (asciiBytes "T=")) (asciiBytes "T=") ∧ asciiBytes "T" = (asciiBytes "T=").filter (fun c => c != 0x3D) ∧
    List.Forall₂ IsB64Char (asciiBytes "T_") [19, 63] ∧ ∀ v, ¬ IsB64Char 0x2A v := by
  refine ⟨by decide, by decide, .cons ⟨by decide, .inl (by decide)⟩ (.cons ⟨by decide, .inr (by decide)⟩ .nil), ?_⟩
  rintro v ⟨hv, h⟩
  revert h
  revert v
  decide

theorem witness_Base64RoundTrips :
    InseqIs (loaded [0xFB, 0xFF]) [0xFB, 0xFF] ∧ (after .b64uenc (loaded [0xFB, 0xFF])).status = okWord Instr.b64uenc.opcode.toNat ∧
    CopiedOut (after .b64uenc (loaded [0xFB, 0xFF])) (copied (after .b64uenc (loaded [0xFB, 0xFF]))) := by decide

theorem witness_ChecksumCalculator : (∀ v ∈ [(31 : Byte), 0], v.toNat ≤ 31) ∧ [(0x61 : Byte)][0]? = some 0x61 := by decide

theorem witness_B32encWritesBech32 :
    (loaded0 (asciiBytes "ab") 3).inLen.toNat < (loaded0 (asciiBytes "ab") 3).arg0.toNat ∧
    (loaded0 [1] 0).arg0.toNat = 0 ∧ 83 < (loaded0 (List.replicate 84 0x78) 84).arg0.toNat ∧
    (loaded0 (List.replicate 84 0x78) 84).arg0.toNat ≤ (loaded0 (List.replicate 84 0x78) 84).inLen.toNat ∧
    InseqIs (loaded0 [0x21, 0x7E, 31] 2) ([0x21, 0x7E] ++ [31]) ∧ (∀ x ∈ [(0x21 : Byte), 0x7E], 33 ≤ x.toNat ∧ x.toNat ≤ 126 ∧ x ≠ 0x31) ∧
    (∀ x ∈ [(31 : Byte)], x.toNat ≤ 31) ∧ (∃ x ∈ [(32 : Byte)], 31 < x.toNat) ∧ ¬ (33 ≤ (0x20 : Byte).toNat) := by decide

theorem witness_B32decReadsBech32 :
    InseqIs (loaded (asciiBytes "pzry9x0s0muk")) (asciiBytes "pzry9x0s0muk") ∧ (0x31 : Byte) ∉ asciiBytes "pzry9x0s0muk" ∧
    InseqIs (loaded (asciiBytes "a12uel5l")) (asciiBytes "a" ++ 0x31 :: asciiBytes "2uel5l") ∧ (0x31 : Byte) ∉ asciiBytes "2uel5l" ∧
    asciiBytes "2uel5l" = [10, 28, 25, 31, 20, 31].map b32Char ∧
    residue Config.standard (expandedPrefix (asciiBytes "a") ++ [10, 28, 25, 31, 20, 31]) = 1 ∧
    residue Config.standard (expandedPrefix (asciiBytes "a") ++ [10, 28, 25, 31, 20, 27]) ≠ 1 ∧
    (asciiBytes "qqqqq").length < 6 ∧ ∀ v < 32, (0x62 : Byte) ≠ b32Char v := by decide

theorem witness_To5Regroups : InseqIs (loaded [1, 2, 3]) [1, 2, 3] ∧ InseqIs (loaded []) [] := by decide

theorem witness_From5Regroups :
    InseqIs (loaded [31, 31]) [31, 31] ∧ (∀ x ∈ [(31 : Byte), 31], x.toNat ≤ 31) ∧ 5 * 2 % 8 < 5 ∧ 5 ≤ 5 * 1 % 8 ∧
    ∃ x ∈ [(32 : Byte)], 31 < x.toNat := by decide

theorem witness_Bech32RoundTrips :
    InseqIs (loaded0 (asciiBytes "A") 1) (asciiBytes "A" ++ []) ∧ (loaded0 (asciiBytes "A") 1).arg0.toNat = (asciiBytes "A").length ∧
    (∀ x ∈ asciiBytes "A", 33 ≤ x.toNat ∧ x.toNat ≤ 126 ∧ x ≠ 0x31) ∧
    (after .b32enc (loaded0 (asciiBytes "A") 1)).status = okWord 0x30 ∧
    CopiedOut (after .b32enc (loaded0 (asciiBytes "A") 1)) (copied (after .b32enc (loaded0 (asciiBytes "A") 1))) ∧
    (after .to5 (loaded [1, 2])).status = okWord 0x32 ∧
    CopiedOut (after .to5 (loaded [1, 2])) (copied (after .to5 (loaded [1, 2]))) ∧
    CopiedOut (after .from5 (copied (after .to5 (loaded [1, 2])))) (copied (after .from5 (copied (after .to5 (loaded [1, 2]))))) := by
  decide

theorem witness_BufferConstruction :
    tiny.Legal ∧ tiny.bbMaxCap < (withArgs 9 0).arg0.toNat ∧ (withArgs 8 0).arg0.toNat ≤ tiny.bbMaxCap ∧
    InseqIs (loaded [1, 0, 2]) [1, 0, 2] ∧
    { tiny with inCap := 9 }.bbMaxCap < (inBuild { tiny with inCap := 9 } (loaded [1, 2, 3, 4, 5, 6, 7, 8, 9])).inLen.toNat :=
  ⟨legal_tiny, by decide⟩

theorem witness_BufferCursor :
    (inBuild tiny (onBuffer (withArgs 2 0) [1, 2] 1)).Inv ∧ (onBuffer (withArgs 2 0) [1, 2] 1).arg0.toNat ≤ 2 ∧
    2 < (onBuffer (withArgs 3 0) [1, 2] 1).arg0.toNat ∧ [(1 : Byte)].length = (onBuffer (withArgs 2 0) [1, 2] 1).buf.pos.toNat ∧
    ∀ k < 1, [(1 : Byte)][k]? = some ((onBuffer (withArgs 2 0) [1, 2] 1).buf.store.storeGet k) :=
  ⟨⟨legal_tiny, by decide⟩, by decide⟩

theorem witness_FixedWidthReads : (onBuffer State.reset [1, 2, 3, 4, 5, 6, 7, 8] 0).Inv ∧
    (onBuffer State.reset [1, 2, 3, 4, 5, 6, 7, 8] 0).buf.pos.toNat + 8 ≤ (onBuffer State.reset [1, 2, 3, 4, 5, 6, 7, 8] 0).buf.cap.toNat ∧
    used.Inv ∧ used.buf.cap.toNat < used.buf.pos.toNat + 1 :=
  ⟨⟨test_legal_accepts_standard, by decide⟩, by decide, ⟨legal_tiny, by decide⟩, by decide⟩

theorem witness_ReadStringStopsAtNewline : (onBuffer State.reset [65, 10] 0).Inv ∧
    (onBuffer State.reset [65, 10] 0).buf.store.storeGet (0 + 1) = 10 ∧
    (∀ j < 1, (onBuffer State.reset [65, 10] 0).buf.store.storeGet (0 + j) ≠ 10) ∧
    (∀ k, used.buf.pos.toNat ≤ k → k < used.buf.cap.toNat → used.buf.store.storeGet k ≠ 10) := by
  refine ⟨⟨test_legal_accepts_standard, by decide⟩, by decide, by decide, fun k h1 h2 => ?_⟩
  have : used.buf.pos.toNat = 8 := rfl
  have : used.buf.cap.toNat = 8 := rfl
  omega

theorem witness_ReadBytesIntoOut :
    (onBuffer (withArgs 4094 2) [1, 2] 0).Inv ∧ (withArgs 4094 2).arg0.toNat + (withArgs 4094 2).arg1.toNat ≤ 4096 ∧
    4096 < (withArgs 4094 3).arg0.toNat + (withArgs 4094 3).arg1.toNat ∧ (used.setArg1 1).Inv ∧
    (used.setArg1 1).buf.cap.toNat < (used.setArg1 1).buf.pos.toNat + (used.setArg1 1).arg1.toNat :=
  ⟨⟨test_legal_accepts_standard, by decide⟩, by decide, by decide, ⟨legal_tiny, by decide⟩, by decide⟩

theorem witness_FixedWidthWrites : used.Inv ∧ ¬ ModeConflict .byte used ∧ used.cfg.bbMaxCap < used.buf.pos.toNat + 1 ∧
    (inBuild tiny (withArgs 0x0102030405060708 0)).Inv ∧
    (∀ j < 8, [(1 : Byte), 2, 3, 4, 5, 6, 7, 8][j]? = some (BitVec.ofNat 8 ((withArgs 0x0102030405060708 0).arg0.toNat / 256 ^ (8 - 1 - j)))) ∧
    (inBuild tiny (withArgs 0 0)).buf.pos.toNat + 8 ≤ tiny.bbMaxCap ∧
    ModeConflict .byte { used with buf := { used.buf with mode := .bit } } :=
  ⟨⟨legal_tiny, by decide⟩, by decide, by decide, ⟨legal_tiny, by decide⟩, by decide, by decide, by decide⟩

theorem witness_WriteStringAppendsNewline :
    (inBuild { tiny with inCap := 8 } (loaded [1, 2, 3, 4, 5, 6, 7])).Inv ∧
    InseqIs (inBuild { tiny with inCap := 8 } (loaded [1, 2, 3, 4, 5, 6, 7])) [1, 2, 3, 4, 5, 6, 7] ∧ 0 + 7 + 1 ≤ tiny.bbMaxCap ∧
    InseqIs (inBuild { tiny with inCap := 8 } (loaded [1, 2, 3, 4, 5, 6, 7, 8])) [1, 2, 3, 4, 5, 6, 7, 8] ∧ tiny.bbMaxCap < 0 + 8 + 1 :=
  ⟨⟨legal_of_sizes rfl (by decide) (by decide), by decide⟩, by decide⟩

theorem witness_WriteBytesCopiesInput :
    (inBuild tiny ((loaded0 [1, 2, 3, 4] 1).setArg1 3)).Inv ∧
    ((loaded0 [1, 2, 3, 4] 1).setArg1 3).arg0.toNat + ((loaded0 [1, 2, 3, 4] 1).setArg1 3).arg1.toNat ≤ 4 ∧
    4 < ((loaded0 [1, 2, 3, 4] 2).setArg1 3).arg0.toNat + ((loaded0 [1, 2, 3, 4] 2).setArg1 3).arg1.toNat ∧
    (∀ k < 3, (loaded [1, 2, 3, 4]).inWin.lookup (1 + k) = [(2 : Byte), 3, 4][k]?) :=
  ⟨⟨legal_tiny, by decide⟩, by decide⟩

/-- A used buffer in bit mode, its bit cursor at the end of STORE. -/
def usedBits : State := { used with buf := { used.buf with mode := .bit, pos := 0 }, arg0 := 1 }

theorem witness_WriteBitsPacksField :
    (inBuild tiny (withArgs 32 0xFFFFFFFF)).Inv ∧ ¬ ModeConflict .bit (inBuild tiny (withArgs 32 0xFFFFFFFF)) ∧
    0 + 32 ≤ 8 * grownCap tiny.bbMaxCap 0 (0 + (32 + 7) / 8) ∧ ModeConflict .bit used ∧
    (withArgs 0 0).arg0.toNat = 0 ∧ 32 < (withArgs 33 0).arg0.toNat :=
  ⟨⟨legal_tiny, by decide⟩, by decide, by decide, by decide, by decide, by decide⟩

theorem witness_WriteBitsPacksField_overrun :
    usedBits.Inv ∧ ¬ ModeConflict .bit usedBits ∧ usedBits.buf.pos.toNat + 1 ≤ usedBits.cfg.bbMaxCap ∧
    8 * grownCap usedBits.cfg.bbMaxCap usedBits.buf.cap.toNat 1 < usedBits.buf.bitpos.toNat + 1 :=
  ⟨⟨legal_tiny, by decide⟩, by decide, by decide, by decide⟩

theorem witness_BufferRoundTrips :
    (withArgs 0x8000 0).Inv ∧ (withArgs 0x8000 0).buf = Buffer.empty ∧
    ((after .bbwr16 (withArgs 0x8000 0)).setArg0 0).buf = (after .bbwr16 (withArgs 0x8000 0)).buf ∧
    (∃ v, exec .bbsetpos ((after .bbwr16 (withArgs 0x8000 0)).setArg0 0) = .next v) ∧
    1 ≤ (withArgs 32 0x1).arg0.toNat ∧ (withArgs 32 0x1).arg0.toNat ≤ 32 ∧ ∃ t, exec .bbwrbits (withArgs 32 1) = .next t :=
  ⟨⟨test_legal_accepts_standard, by decide⟩, by decide, by decide, ⟨_, rfl⟩, by decide, by decide, ⟨_, rfl⟩⟩

end Sys2Proof.Tests
end

section
/-! PROOFS. Who writes CMD, RES and OUT_SPLIT (10_state.md R26, R27, R28). -/

namespace Sys2Proof.Machine

open Sys2Proof.Claims

/-! ### One access to a register -/

theorem step_read {s : State} {off n : Nat} {t : Target} {rest : List Access}
    (hb : s.bus = .read (s.cfg.kecBase + off) n :: rest) (ho : off < 0x40000) (ht : target s.cfg off n = some t) :
    step s = .next (readTarget t (s.setBus rest)) := by
  rw [step_bus hb]
  exact performRead_some (s := s.setBus rest) ho ht

theorem step_write {s : State} {off n : Nat} {v : DWord} {t : Target} {rest : List Access}
    (hb : s.bus = .write (s.cfg.kecBase + off) n v :: rest) (ho : off < 0x40000) (ht : target s.cfg off n = some t)
    (hc : t ≠ .reg .cmd) : step s = .next (writeTarget t v (s.setBus rest)) := by
  rw [step_bus hb]
  exact performWrite_some (s := s.setBus rest) ho ht hc

theorem step_write_cmd {s : State} {v : DWord} {rest : List Access} (hb : s.bus = .write s.cfg.kecBase 4 v :: rest) :
    step s = performCommand ((s.setBus rest).setCmd (v.setWidth 32)) := by
  rw [step_bus hb]
  exact performWrite_cmd v (s.setBus rest)

theorem step_write_res {s : State} {v : DWord} {rest : List Access}
    (hb : s.bus = .write (s.cfg.kecBase + 0x020) 8 v :: rest) : step s = .next (s.setBus rest) :=
  step_write hb (t := .reg .res) (by decide) rfl (by decide)

theorem step_write_outSplit {s : State} {v : DWord} {rest : List Access}
    (hb : s.bus = .write (s.cfg.kecBase + 0x028) 4 v :: rest) : step s = .next (s.setBus rest) :=
  step_write hb (t := .reg .outSplit) (by decide) rfl (by decide)

/-! ### What a command's STATUS tells about its outcome -/

theorem exec_of_statusErr_zero {i : Instr} {s t : State} (h : exec i s = .next t) (he : statusErr t.status = 0) :
    ∃ u, bodyOf i s = .ok u ∧ t = commitCommand i.opcode u := by
  rw [exec_eq] at h
  rcases runCommand_cases h with hu | ⟨c, _, rfl⟩
  · exact hu
  · rw [failCommand_status, statusErr_failStatus] at he
    exact absurd he (by decide)

/-! ### CMD -/

theorem exec_sameOperands {i : Instr} {s t : State} (h : exec i s = .next t) : SameOperands s t := by
  rcases exec_next h with ⟨u, hu, rfl⟩ | ⟨c, rfl⟩
  · exact (effect_sameOperands hu : SameOperands s u)
  · exact (sameOperands_refl s : SameOperands s s)

theorem exec_cmd {i : Instr} {s t : State} (h : exec i s = .next t) : t.cmd = s.cmd := by
  obtain ⟨_, _, _, _, _, hcmd, _⟩ := exec_sameOperands h
  exact hcmd

theorem performCommand_decoded {s : State} {i : Instr} (hd : decode s.cmd = .ok i) : performCommand s = exec i s := by
  rw [performCommand, hd]

theorem performCommand_illegal {s : State} {e : DecodeError} (hd : decode s.cmd = .error e) :
    performCommand s = .next (failCommand (wordOp s.cmd) (causeOfDecodeError e) s) := by
  rw [performCommand, hd]

/-- A written word stays in CMD, whether it is a command or not. -/
theorem performCommand_cmd {s t : State} (h : performCommand s = .next t) : t.cmd = s.cmd := by
  cases hd : decode s.cmd with
  | ok i => exact exec_cmd (performCommand_decoded hd ▸ h)
  | error e =>
    rw [performCommand_illegal hd] at h
    obtain rfl := Host.Outcome.next.inj h
    rfl

/-- Settles O6: CMD holds the word before the command runs, and neither a command nor a rejection writes it. -/
theorem cmdHoldsLastWord : Obligations.CmdHoldsLastWord := by
  refine ⟨fun s t v rest hb ht => ?_, fun s v rest i hb hd => ?_, fun s rest hb => ?_, fun i s t => exec_cmd, rfl⟩
  · rw [step_write_cmd hb] at ht
    exact performCommand_cmd ht
  · rw [step_write_cmd hb]
    exact performCommand_decoded hd
  · exact step_read (off := 0) hb (by decide) (target_cmd s.cfg)

/-! ### RES -/

theorem writesRes_of_setsResOnly {i : Instr} : setsResOnly i = true → WritesRes i = true := by
  cases i <;> simp [setsResOnly, WritesRes]

theorem writesRes_of_readWidth {i : Instr} {n : Nat} : readWidth i = some n → WritesRes i = true := by
  cases i <;> simp [readWidth, WritesRes]

theorem effect_res {s u : State} {i : Instr} (h : Effect s i u) (hi : WritesRes i = false) : u.res = s.res := by
  cases h with
  | setsRes v hs => exact absurd (writesRes_of_setsResOnly hs) (by simp [hi])
  | reads n v hr => exact absurd (writesRes_of_readWidth hr) (by simp [hi])
  | _ => rfl

/-- Settles O23: of the effects a command can commit only `setsRes` and `reads` touch RES. -/
theorem resWrittenOnlyBySome : Obligations.ResWrittenOnlyBySome := by
  refine ⟨fun i s t h hi => ?_, fun s t v rest hb ht => ?_, rfl⟩
  · rcases exec_next h with ⟨u, hu, rfl⟩ | ⟨c, rfl⟩
    · rw [commitCommand_status, statusErr_okStatus] at hi
      exact (commitCommand_res u i.opcode).trans (effect_res hu (hi.resolve_right (by decide)))
    · rfl
  · rw [step_write_res hb] at ht
    obtain rfl := Host.Outcome.next.inj ht
    rfl

/-! ### OUT_SPLIT -/

theorem effect_outSplit {s u : State} {i : Instr} (h : Effect s i u) (hi : i ≠ .b32dec) : u.outSplit = s.outSplit := by
  cases h with
  | b32dec => exact absurd rfl hi
  | _ => rfl

theorem lastIndexOf_eq_none {x : Byte} {l : List Byte} (h : x ∉ l) : lastIndexOf x l = none := by
  induction l with
  | nil => rfl
  | cons y l ih =>
    obtain ⟨hy, hl⟩ := not_or.1 (mt List.mem_cons.2 h)
    simp [lastIndexOf, ih hl, Ne.symm hy]

/-- The separator of R154: the occurrence with none after it. -/
theorem lastIndexOf_append_cons {x : Byte} {dp : List Byte} (hdp : x ∉ dp) (h : List Byte) :
    lastIndexOf x (h ++ x :: dp) = some h.length := by
  induction h with
  | nil => simp [lastIndexOf, lastIndexOf_eq_none hdp]
  | cons y h ih => simp [lastIndexOf, ih]

/-- What a B32DEC that does not fail has written: the lower-cased prefix leads OUT, and OUT_SPLIT is its length (R154). -/
theorem b32decBody_prefix {s t : State} {h dp : List Byte} (hin : InseqIs s (h ++ 0x31 :: dp)) (hdp : 0x31 ∉ dp)
    (hb : b32decBody s = .ok t) :
    ∃ d, (lower h ++ d).length ≤ s.cfg.outCap ∧
      t = (s.setOut (s.outWin.insertRun 0 (lower h ++ d)) (BitVec.ofNat 32 (lower h ++ d).length)).setOutSplit
        (BitVec.ofNat 32 h.length) := by
  rw [b32decBody, readInseq_of_inseqIs hin, ok_bind, lastIndexOf_append_cons hdp, orRaise_some, ok_bind,
    List.take_left] at hb
  obtain ⟨_, _, hb⟩ := bind_eq_ok.1 hb
  obtain ⟨_, _, hb⟩ := bind_eq_ok.1 hb
  obtain ⟨_, _, hb⟩ := bind_eq_ok.1 hb
  obtain ⟨idx, _, hb⟩ := bind_eq_ok.1 hb
  obtain ⟨_, _, hb⟩ := bind_eq_ok.1 hb
  obtain ⟨u, hu, hb⟩ := bind_eq_ok.1 hb
  obtain ⟨hlen, rfl⟩ := emit_eq_ok hu
  exact ⟨_, hlen, (Except.ok.inj hb).symm⟩

/-- The prefix and its length, as the host sees them after a successful B32DEC (R27). -/
theorem exec_b32dec_prefix {s t : State} {h dp : List Byte} (hl : s.cfg.Legal) (hin : InseqIs s (h ++ 0x31 :: dp))
    (hdp : 0x31 ∉ dp) (hx : exec .b32dec s = .next t) (he : statusErr t.status = 0) :
    t.outSplit.toNat = h.length ∧ ∀ k x, h[k]? = some x → t.outWin.lookup k = some (lowerByte x) := by
  obtain ⟨u, hu, rfl⟩ := exec_of_statusErr_zero hx he
  obtain ⟨d, hd, rfl⟩ := b32decBody_prefix hin hdp hu
  have hcap := Config.Legal.outCap_lt hl
  have hsum : (lower h ++ d).length = h.length + d.length := by simp
  refine ⟨Nat.mod_eq_of_lt (by omega), fun k x hk => ?_⟩
  have hkh : k < h.length := (List.getElem?_eq_some_iff.1 hk).1
  obtain ⟨_, hout⟩ := outIs_setOut s (b := lower h ++ d) (by omega)
  calc (s.setOut (s.outWin.insertRun 0 (lower h ++ d)) _).outWin.lookup k
      = (lower h ++ d)[k]? := hout k (by omega)
    _ = some (lowerByte x) := by
      rw [List.getElem?_append_left (by simpa using hkh), lower, List.getElem?_map, hk, Option.map_some]

/-- Settles O24: of the effects a command can commit only B32DEC's touches OUT_SPLIT, and it stores the length of the text before
the last separator. -/
theorem outSplitWrittenOnlyByB32dec : Obligations.OutSplitWrittenOnlyByB32dec := by
  refine ⟨fun i s t h hi => ?_, fun s t h dp hl hin hdp => exec_b32dec_prefix hl hin hdp,
    fun s t v rest hb ht => ?_, rfl⟩
  · rcases exec_next h with ⟨u, hu, rfl⟩ | ⟨c, rfl⟩
    · rw [commitCommand_status, statusErr_okStatus] at hi
      exact (commitCommand_outSplit u i.opcode).trans (effect_outSplit hu (hi.resolve_right (by decide)))
    · rfl
  · rw [step_write_outSplit hb] at ht
    obtain rfl := Host.Outcome.next.inj ht
    rfl

end Sys2Proof.Machine
end

section
/-! PROOFS. Reserved offsets and the registers whose writes are ignored (20_memory.md R51, R54). -/

namespace Sys2Proof.Machine

open Sys2Proof.Claims

/-! ### The register block -/

/-- The registers that store what the host writes (R51); a write of CMD also performs a command. -/
def storingRegs : List Reg := [.cmd, .inLen, .arg0, .arg1]

/-- The rows of R51 do not overlap, so a row is found by its offset. -/
theorem regMap_find_row {row : RegRow} (h : row ∈ regMap) :
    regMap.find? (fun r => decide (r.off ≤ row.off ∧ row.off < r.off + r.bytes)) = some row := by
  revert row
  decide

/-- A register is reached by an access of its own width at its own offset. -/
theorem target_row (c : Config) {row : RegRow} (h : row ∈ regMap) :
    target c row.off row.bytes = some (.reg row.reg) := by
  unfold target
  rw [regMap_find_row h]
  exact if_pos ⟨rfl, rfl⟩

theorem regMap_off_lt {row : RegRow} (h : row ∈ regMap) : row.off < 0x40000 := by
  revert row
  decide

theorem writeTarget_reg_of_not_storing {r : Reg} (h : r ∉ storingRegs) (v : DWord) (s : State) :
    writeTarget (.reg r) v s = s := by
  cases r with
  | cmd | inLen | arg0 | arg1 => exact absurd (by decide) h
  | _ => rfl

/-- The registers marked "writes ignored" are rows of the map, and none of them stores. -/
theorem ignoredRegisters_row {p : Nat × Nat} (h : p ∈ ignoredRegisters) :
    ∃ row ∈ regMap, row.off = p.1 ∧ row.bytes = p.2 ∧ row.reg ∉ storingRegs := by
  revert p
  decide

theorem step_write_ignored {s : State} {v : DWord} {rest : List Access} {p : Nat × Nat} (hp : p ∈ ignoredRegisters)
    (hb : s.bus = .write (s.cfg.kecBase + p.1) p.2 v :: rest) : step s = .next (s.setBus rest) := by
  obtain ⟨row, hrow, hoff, hbytes, hreg⟩ := ignoredRegisters_row hp
  rw [← hoff, ← hbytes] at hb
  have hcmd : Target.reg row.reg ≠ .reg .cmd := fun h => hreg (Target.reg.inj h ▸ by decide)
  rw [step_write hb (regMap_off_lt hrow) (target_row _ hrow) hcmd, writeTarget_reg_of_not_storing hreg]

/-! ### Reserved offsets -/

/-- A reserved offset holds neither a register nor a byte of a window. -/
theorem target_reserved {c : Config} {off n : Nat} (hr : ReservedOffset c off) (hn : n = 1 ∨ (n = 4 ∧ off % 4 = 0)) :
    target c off n = some .reserved := by
  obtain ⟨_, hreg, hin, hout⟩ := hr
  unfold target
  rw [regMap_find_none (by omega) (by omega)]
  exact (if_neg hin).trans ((if_neg hout).trans (if_pos hn))

/-- Settles O10: a reserved offset reaches no state, and a register marked "writes ignored" stores nothing. -/
theorem reservedOffsetsReadZero : Obligations.ReservedOffsetsReadZero := by
  refine ⟨fun s off n v rest hr hn => ⟨fun hb => ?_, fun hb => ?_⟩, fun s v rest p hp hb => step_write_ignored hp hb⟩
  · exact step_read hb hr.1 (target_reserved hr hn)
  · exact step_write hb hr.1 (target_reserved hr hn) (by decide)

end Sys2Proof.Machine
end

section
/-! PROOFS. Words that are no command: the decoder's errors and what writing such a word does (30_encoding.md R70-R73, R75, R76). -/

namespace Sys2Proof

/-! ### The fields of a word as numbers (R70) -/

theorem wordOp_toNat (w : Word) : (wordOp w).toNat = w.toNat % 256 := by
  simp [wordOp, BitVec.extractLsb'_toNat]

theorem wordE_toNat (w : Word) : (wordE w).toNat = w.toNat / 256 % 2 := by
  simp [wordE, BitVec.extractLsb'_toNat, Nat.shiftRight_eq_div_pow]

theorem wordRsv_toNat (w : Word) : (wordRsv w).toNat = w.toNat / 512 := by
  have hw := w.isLt
  simp only [wordRsv, BitVec.extractLsb'_toNat, Nat.shiftRight_eq_div_pow]
  omega

/-- RSV is 0 in the words of 9 bits. -/
theorem wordRsv_eq_zero_iff {w : Word} : wordRsv w = 0 ↔ w.toNat < 512 := by
  rw [← BitVec.toNat_inj, wordRsv_toNat, show (0 : BitVec 23).toNat = 0 from rfl]
  omega

/-- Of the words with RSV = 0, those with E = 1 are the ones from 256 on. -/
theorem wordE_eq_one_iff {w : Word} (h : w.toNat < 512) : wordE w = 1 ↔ 256 ≤ w.toNat := by
  rw [← BitVec.toNat_inj, wordE_toNat, show (1 : BitVec 1).toNat = 1 from rfl]
  omega

/-! ### The decoder's map and R75's list of the undefined opcodes -/

/-- The row's command has a byte-order flag (R72). -/
def OpcodeRow.takesFlag : OpcodeRow → Bool
  | .plain _ _ => false
  | .flagged _ _ _ => true

theorem opcodeDefined_row {r : OpcodeRow} (h : r ∈ opcodeMap) : opcodeDefined r.op = true := by
  revert r
  decide

theorem flagAllowed_row {r : OpcodeRow} (h : r ∈ opcodeMap) : flagAllowed r.op = r.takesFlag := by
  revert r
  decide

/-- No opcode is missing from the map: one that is not in R75's list of gaps has a row. -/
theorem exists_row_of_opcodeDefined {op : Byte} (h : opcodeDefined op = true) : ∃ r ∈ opcodeMap, r.op = op := by
  revert op
  decide

theorem decodeRow_reserved {e : BitVec 1} {rsv : BitVec 23} {r : OpcodeRow}
    (h : rsv ≠ 0 ∨ (e = 1 ∧ r.takesFlag = false)) : decodeRow e rsv r = .error .reservedField := by
  cases r with
  | plain op i => exact if_pos (h.imp_right And.left)
  | flagged op little big => exact if_pos (h.resolve_right fun hf => Bool.noConfusion hf.2)

theorem decodeRow_accepted {e : BitVec 1} {rsv : BitVec 23} {r : OpcodeRow} (hr : rsv = 0)
    (he : e = 1 → r.takesFlag = true) : ∃ i, decodeRow e rsv r = .ok i := by
  cases r with
  | plain op i => exact ⟨i, if_neg (not_or.2 ⟨not_not.2 hr, fun h => Bool.noConfusion (he h)⟩)⟩
  | flagged op little big => exact ⟨_, if_neg (not_not.2 hr)⟩

/-! ### The three answers of the decoder -/

theorem decode_of_not_opcodeDefined {w : Word} (h : opcodeDefined (wordOp w) = false) :
    decode w = .error .illegalOpcode := by
  have hnone : opcodeMap.find? (fun r => r.op == wordOp w) = none := by
    refine List.find?_eq_none.2 fun r hr heq => ?_
    rw [← eq_of_beq heq, opcodeDefined_row hr] at h
    exact Bool.noConfusion h
  rw [decode, hnone]

/-- A word with a defined opcode is decoded by a row of the map with that opcode. -/
theorem decode_of_opcodeDefined {w : Word} (h : opcodeDefined (wordOp w) = true) :
    ∃ r, r.takesFlag = flagAllowed (wordOp w) ∧ decode w = decodeRow (wordE w) (wordRsv w) r := by
  obtain ⟨r₀, hr₀, hop₀⟩ := exists_row_of_opcodeDefined h
  obtain ⟨r, hr⟩ := Option.isSome_iff_exists.1
    (List.find?_isSome (p := fun r : OpcodeRow => r.op == wordOp w).2 ⟨r₀, hr₀, beq_iff_eq.2 hop₀⟩)
  have hop : r.op = wordOp w := eq_of_beq (List.find?_some hr :)
  exact ⟨r, hop ▸ (flagAllowed_row (List.mem_of_find?_eq_some hr)).symm, by rw [decode, hr]⟩

theorem decode_reserved {w : Word} (h : opcodeDefined (wordOp w) = true)
    (hres : 512 ≤ w.toNat ∨ (256 ≤ w.toNat ∧ flagAllowed (wordOp w) = false)) : decode w = .error .reservedField := by
  obtain ⟨r, hflag, hdec⟩ := decode_of_opcodeDefined h
  refine hdec.trans (decodeRow_reserved ?_)
  by_cases hw : w.toNat < 512
  · obtain ⟨he, hf⟩ := hres.resolve_left (by omega)
    exact .inr ⟨(wordE_eq_one_iff hw).2 he, hflag.trans hf⟩
  · exact .inl (mt wordRsv_eq_zero_iff.1 hw)

theorem decode_accepted {w : Word} (h : opcodeDefined (wordOp w) = true) (hw : w.toNat < 512)
    (he : w.toNat < 256 ∨ flagAllowed (wordOp w) = true) : ∃ i, decode w = .ok i := by
  obtain ⟨r, hflag, hdec⟩ := decode_of_opcodeDefined h
  rw [hdec]
  refine decodeRow_accepted (wordRsv_eq_zero_iff.2 hw) fun h1 => hflag.trans (he.resolve_left ?_)
  exact Nat.not_lt.2 ((wordE_eq_one_iff hw).1 h1)

end Sys2Proof

namespace Sys2Proof.Machine

/-! ### Writing a word that is no command -/

/-- Both of the decoder's errors are of class ILLEGAL (60_exceptions.md R220). -/
theorem causeOfDecodeError_errClass (e : DecodeError) : (causeOfDecodeError e).errClass.code.toNat = 4 := by
  cases e <;> rfl

/-- A command word that the decoder rejects changes STATUS only, and LAST_OP is its low byte. -/
theorem performCommand_rejected {s : State} {e : DecodeError} (hd : decode s.cmd = .error e) :
    performCommand s = .next (s.setStatus (failWord (s.cmd.toNat % 256) 4 (causeOfDecodeError e).code.toNat)) := by
  rw [performCommand_illegal hd, failCommand_eq, failStatus_eq, causeOfDecodeError_errClass, wordOp_toNat]

/-- The word stays in CMD, STATUS tells the decoder's error, and the rest of the state is as it was (R76). -/
theorem step_write_illegal {s : State} {v : DWord} {rest : List Access} {e : DecodeError} {n : Nat}
    (hb : s.bus = .write s.cfg.kecBase 4 v :: rest) (hd : decode (v.setWidth 32) = .error e)
    (hn : (causeOfDecodeError e).code.toNat = n) :
    step s = .next (((s.setBus rest).setCmd (v.setWidth 32)).setStatus
      (failWord ((v.setWidth 32 : Word).toNat % 256) 4 n)) := by
  subst hn
  exact (step_write_cmd hb).trans (performCommand_rejected (s := (s.setBus rest).setCmd (v.setWidth 32)) hd)

/-- Settles O4: the decoder looks for the opcode first and for the reserved fields second, and a word that neither stops is
a command. -/
theorem illegalWordsFail : Obligations.IllegalWordsFail := by
  intro s v rest hb w op
  refine ⟨fun hop => ?_, fun hop hres => ?_, fun hop hw he => ?_⟩
  · exact step_write_illegal hb (decode_of_not_opcodeDefined hop) rfl
  · exact step_write_illegal hb (decode_reserved hop hres) rfl
  · exact decode_accepted hop hw he

end Sys2Proof.Machine
end

section
/-! PROOFS. What the commands of the Integer / Hex / Padding unit share: the check of IN_LEN they begin with, and the host's copy
of an emission into the next command's input (00_scope.md R15, 30_encoding.md R78). -/

namespace Sys2Proof.Machine

theorem needIn_bind_error {s : State} {k : Unit → Except Stop State} (h : s.cfg.inCap < s.inLen.toNat) :
    (needIn s >>= k) = .error (.cause .inLength) := by rw [needIn_error h, error_bind]

theorem readInseq_bind_error {s : State} {k : List Byte → Except Stop State} (h : s.cfg.inCap < s.inLen.toNat) :
    (readInseq s >>= k) = .error (.cause .inLength) := by rw [readInseq_error h, error_bind]

theorem readInByte_of_inseqIs {s : State} {b : List Byte} {k : Nat} {x : Byte} (h : InseqIs s b) (hx : b[k]? = some x) :
    readInByte s k = .ok x := by
  obtain ⟨_, _, hwin⟩ := h
  rw [readInByte, hwin k (List.getElem?_eq_some_iff.1 hx).1, hx]

/-- A command that emits answers a next state, and the host's copy of its result is the input `b` of the next command. -/
theorem copy_of_emits {i : Instr} {s : State} {op : Nat} {b : List Byte} (h : Completes i s op (Emits b s)) :
    ∃ t, exec i s = .next t ∧ ∀ u, CopiedOut t u → InseqIs u b ∧ u.cfg = s.cfg := by
  obtain ⟨t, hx, _, ⟨hcfg, _⟩, ⟨hout, _⟩⟩ := h
  exact ⟨t, hx, fun u hu => ⟨inseqIs_of_copiedOut hu hout, hu.1.trans hcfg⟩⟩

end Sys2Proof.Machine
end

section
/-! PROOFS. HEXENC and HEXDEC: the digits, the text of given bytes, the leading `0x`, and the bytes of given digits (41_hex_int_pad.md
R100, R101). -/

namespace Sys2Proof.Machine

open Sys2Proof.Claims

/-! ### Digits -/

theorem hexDigit_toNat {d : Nat} (h : d < 16) : (hexDigit d).toNat = if d < 10 then 48 + d else 87 + d := by
  rw [hexDigit, BitVec.toNat_ofNat]
  split <;> omega

/-- `HEXDIG` lists the digits by value. -/
theorem hexDigits_eq : hexDigits = (List.range 16).map hexDigit := by decide

theorem hexDigits_getD {d : Nat} (h : d < 16) : hexDigits.getD d 0 = hexDigit d := by
  rw [hexDigits_eq, List.getD_eq_getElem _ _ (by simpa using h), List.getElem_map, List.getElem_range]

theorem hexval_hexDigit {d : Nat} (h : d < 16) : hexval (hexDigit d) = some d := by
  revert d
  decide

theorem hexval_eq_some_iff {c : Byte} {d : Nat} : hexval c = some d ↔ d < 16 ∧ c = hexDigit d := by
  constructor
  · intro h
    obtain ⟨hd, hc, _⟩ := List.idxOf?_eq_some_iff.1 h
    simp only [hexDigits_eq, List.length_map, List.length_range, List.getElem_map, List.getElem_range] at hd hc
    exact ⟨hd, hc.symm⟩
  · rintro ⟨hd, rfl⟩
    exact hexval_hexDigit hd

theorem lowerByte_toNat (c : Byte) :
    (lowerByte c).toNat = if 65 ≤ c.toNat ∧ c.toNat ≤ 90 then c.toNat + 32 else c.toNat := by
  change (if 65 ≤ c.toNat ∧ c.toNat ≤ 90 then c + 32 else c).toNat = _
  split
  · next h =>
    rw [BitVec.toNat_add]
    exact Nat.mod_eq_of_lt (show c.toNat + 32 < 256 by omega)
  · rfl

/-- HEXDEC looks a character up after lower-casing it, which accepts the digits of either case. -/
theorem hexval_lowerByte_iff {c : Byte} {d : Nat} : hexval (lowerByte c) = some d ↔ IsHexDigit c d := by
  rw [hexval_eq_some_iff, ← BitVec.toNat_inj, lowerByte_toNat, IsHexDigit]
  constructor
  · rintro ⟨hd, hc⟩
    rw [hexDigit_toNat hd] at hc
    split at hc <;> split at hc <;> omega
  · intro h
    have hd : d < 16 := by omega
    refine ⟨hd, ?_⟩
    rw [hexDigit_toNat hd]
    split <;> split <;> omega

theorem indicesOf_lower_some {t : List Byte} {v : List Nat} (h : List.Forall₂ IsHexDigit t v) :
    indicesOf hexval (lower t) = some v :=
  indicesOf_some (List.forall₂_map_left_iff.2 (h.imp fun _ _ => hexval_lowerByte_iff.2))

theorem indicesOf_lower_none {t : List Byte} (h : ∃ c ∈ t, ∀ d, ¬ IsHexDigit c d) :
    indicesOf hexval (lower t) = none := by
  obtain ⟨c, hc, hd⟩ := h
  refine indicesOf_none ⟨lowerByte c, List.mem_map_of_mem hc, ?_⟩
  exact Option.eq_none_iff_forall_ne_some.2 fun d h => hd d (hexval_lowerByte_iff.1 h)

/-! ### The text of given bytes -/

/-- The digits of each byte, as numbers. -/
def nibbles (b : List Byte) : List Nat := b.flatMap fun x => [x.toNat / 16, x.toNat % 16]

theorem hexPair_eq (x : Byte) : hexPair x = [hexDigit (x.toNat / 16), hexDigit (x.toNat % 16)] := by
  have hx := x.isLt
  rw [hexPair, hexDigits_getD (by omega), hexDigits_getD (by omega)]

theorem hexText_eq (b : List Byte) : hexText b = (nibbles b).map hexDigit := by
  rw [hexText, nibbles, List.map_flatMap]
  exact List.flatMap_congr fun x _ => hexPair_eq x

theorem nibbles_lt {b : List Byte} {d : Nat} (h : d ∈ nibbles b) : d < 16 := by
  obtain ⟨x, _, hd⟩ := List.mem_flatMap.1 h
  have hx := x.isLt
  simp only [List.mem_cons, List.not_mem_nil, or_false] at hd
  omega

theorem nibbles_length (b : List Byte) : (nibbles b).length = 2 * b.length := by
  induction b with
  | nil => rfl
  | cons x b ih =>
    change (nibbles b).length + 1 + 1 = 2 * (b.length + 1)
    omega

theorem nibbles_getElem? {b : List Byte} {k : Nat} {x : Byte} (h : b[k]? = some x) :
    (nibbles b)[2 * k]? = some (x.toNat / 16) ∧ (nibbles b)[2 * k + 1]? = some (x.toNat % 16) := by
  induction b generalizing k with
  | nil => simp at h
  | cons y b ih =>
    cases k with
    | zero => simp at h; subst h; exact ⟨rfl, rfl⟩
    | succ k => exact ih (by simpa using h)

theorem hexText_length (b : List Byte) : (hexText b).length = 2 * b.length := by
  rw [hexText_eq, List.length_map, nibbles_length]

theorem hexText_getElem? {b : List Byte} {k : Nat} {x : Byte} (h : b[k]? = some x) :
    (hexText b)[2 * k]? = some (hexDigit (x.toNat / 16)) ∧ (hexText b)[2 * k + 1]? = some (hexDigit (x.toNat % 16)) := by
  obtain ⟨h0, h1⟩ := nibbles_getElem? h
  simp only [hexText_eq, List.getElem?_map, h0, h1, Option.map_some, and_self]

theorem bodyOf_hexenc {s : State} {b : List Byte} (h : InseqIs s b) : bodyOf .hexenc s = emit (hexText b) s := by
  rw [bodyOf, hexencBody, readInseq_of_inseqIs h, ok_bind]

/-- HEXENC on an input within IN_CAP. -/
theorem yields_hexenc {s : State} {b : List Byte} (hl : s.cfg.Legal) (h : InseqIs s b) :
    Yields .hexenc s 0x01 (hexText b) := yields_of_body hl (bodyOf_hexenc h)

/-- Settles O27: each byte's pair of digits stands at twice its index in the text. -/
theorem hexencWritesDigitPairs : Obligations.HexencWritesDigitPairs := by
  refine ⟨by decide, fun s hl => ⟨fun h => fails_of_body (c := .inLength) (readInseq_bind_error h), fun b hb => ?_⟩⟩
  exact ⟨hexText b, hexText_length b, fun k x hx => hexText_getElem? hx, yields_hexenc hl hb⟩

/-! ### The leading `0x` (R101) -/

theorem stripHexPrefix_pos {u : HexUpper} {t : List Byte} (h : HasHexPrefix u t) : stripHexPrefix u t = t.drop 2 := by
  match t, h with
  | c0 :: c1 :: rest, h => exact if_pos (by simpa [HasHexPrefix] using h)
  | [c0], h => simp [HasHexPrefix] at h
  | [], h => simp [HasHexPrefix] at h

theorem stripHexPrefix_neg {u : HexUpper} {t : List Byte} (h : ¬ HasHexPrefix u t) : stripHexPrefix u t = t := by
  match t, h with
  | c0 :: c1 :: rest, h => exact if_neg (by simpa [HasHexPrefix] using h)
  | [c0], h => rfl
  | [], h => rfl

/-! ### The bytes of given digits -/

theorem hexBytes_length : ∀ v : List Nat, (hexBytes v).length = v.length / 2
  | [] => rfl
  | [_] => by simp [hexBytes]
  | hi :: lo :: v => by
    simp only [hexBytes, List.length_cons, hexBytes_length v]
    omega

theorem hexBytes_getElem? : ∀ (v : List Nat) {j : Nat}, j < v.length / 2 →
    (hexBytes v)[j]? = some (BitVec.ofNat 8 (16 * v.getD (2 * j) 0 + v.getD (2 * j + 1) 0))
  | [], j, h => by simp at h
  | [_], j, h => by simp at h
  | hi :: lo :: v, 0, _ => rfl
  | hi :: lo :: v, j + 1, h => hexBytes_getElem? v (j := j) (by simp only [List.length_cons] at h; omega)

theorem hexBytes_nibbles (b : List Byte) : hexBytes (nibbles b) = b := by
  induction b with
  | nil => rfl
  | cons x b ih =>
    change BitVec.ofNat 8 (16 * (x.toNat / 16) + x.toNat % 16) :: hexBytes (nibbles b) = x :: b
    rw [ih, Nat.div_add_mod, BitVec.ofNat_toNat, BitVec.setWidth_eq]

/-! ### HEXDEC -/

section
variable {s : State} {t0 t : List Byte} (hin : InseqIs s t0) (hp : stripHexPrefix s.cfg.hex0xUpper t0 = t)
include hin hp

theorem bodyOf_hexdec_odd (h : t.length % 2 = 1) : bodyOf .hexdec s = .error (.cause .oddLength) := by
  rw [bodyOf, hexdecBody, readInseq_of_inseqIs hin, ok_bind, hp]
  dsimp only
  rw [lower_length, raiseIf_true _ (by omega), error_bind]

theorem bodyOf_hexdec_badChar (h : t.length % 2 = 0) (hc : ∃ c ∈ t, ∀ d, ¬ IsHexDigit c d) :
    bodyOf .hexdec s = .error (.cause .badChar) := by
  rw [bodyOf, hexdecBody, readInseq_of_inseqIs hin, ok_bind, hp]
  dsimp only
  rw [lower_length, raiseIf_false _ (by omega), ok_bind, indicesOf_lower_none hc, orRaise_none, error_bind]

theorem bodyOf_hexdec_digits {v : List Nat} (h : t.length % 2 = 0) (hv : List.Forall₂ IsHexDigit t v) :
    bodyOf .hexdec s = emit (hexBytes v) s := by
  rw [bodyOf, hexdecBody, readInseq_of_inseqIs hin, ok_bind, hp]
  dsimp only
  rw [lower_length, raiseIf_false _ (by omega), ok_bind, indicesOf_lower_some hv, orRaise_some, ok_bind]

end

/-- Settles O28: the leading `0x`, the two checks in the pseudocode's order, and the bytes of the digits. -/
theorem hexdecReadsDigitPairs : Obligations.HexdecReadsDigitPairs := by
  refine ⟨by decide, fun s hl => ⟨fun h => fails_of_body (c := .inLength) (readInseq_bind_error h), ?_⟩⟩
  intro t0 t hin hpre
  have hp : stripHexPrefix s.cfg.hex0xUpper t0 = t := by
    rcases hpre with ⟨h, rfl⟩ | ⟨h, rfl⟩
    · exact stripHexPrefix_pos h
    · exact stripHexPrefix_neg h
  refine ⟨fun h => fails_of_body (c := .oddLength) (bodyOf_hexdec_odd hin hp h),
    fun h hc => fails_of_body (c := .badChar) (bodyOf_hexdec_badChar hin hp h hc), fun h v hv => ?_⟩
  have hlen : (hexBytes v).length = v.length / 2 := hexBytes_length v
  refine ⟨hexBytes v, by rw [hlen, hv.length_eq], fun j hj => hexBytes_getElem? v (hlen ▸ hj), ?_⟩
  exact yields_of_body hl (bodyOf_hexdec_digits hin hp h hv)

end Sys2Proof.Machine
end

section
/-! PROOFS. I2B, L2B, B2I and B2L: the bytes of a number in either order, and the number that bytes spell (41_hex_int_pad.md
R102-R105). -/

namespace Sys2Proof.Machine

open Sys2Proof.Claims

/-! ### The bytes of a number -/

/-- The `n` low bytes of `v`, least significant first. -/
def leBytes (n v : Nat) : List Byte := (List.range n).map fun k => BitVec.ofNat 8 (v / 256 ^ k)

/-- The `n` low bytes of `v` in the order field E asks for (R72). -/
def intBytes (o : ByteOrder) (n v : Nat) : List Byte := inOrder o (leBytes n v).reverse

@[simp] theorem leBytes_length (n v : Nat) : (leBytes n v).length = n := by simp [leBytes]

@[simp] theorem intBytes_length (o : ByteOrder) (n v : Nat) : (intBytes o n v).length = n := by
  cases o <;> simp [intBytes, inOrder]

theorem leBytes_getElem? {n k : Nat} (v : Nat) (h : k < n) :
    (leBytes n v)[k]? = some (BitVec.ofNat 8 (v / 256 ^ k)) := by simp [leBytes, h]

theorem intBytes_getElem? (o : ByteOrder) {n k : Nat} (v : Nat) (h : k < n) :
    (intBytes o n v)[k]? = some (BitVec.ofNat 8 (v / 256 ^ (match o with | .big => n - 1 - k | .little => k))) := by
  cases o with
  | big => rw [intBytes, inOrder, List.getElem?_reverse (by simpa using h), leBytes_length, leBytes_getElem? v (by omega)]
  | little => rw [intBytes, inOrder, List.reverse_reverse, leBytes_getElem? v h]

theorem leBytes_succ (n v : Nat) : leBytes (n + 1) v = BitVec.ofNat 8 v :: leBytes n (v / 256) := by
  simp [leBytes, List.range_succ_eq_map, Nat.div_div_eq_div_mul, Nat.pow_succ']

theorem numberLE_cons (x : Byte) (b : List Byte) : numberLE (x :: b) = x.toNat + 256 * numberLE b := Nat.ofDigits_cons ..

theorem numberLE_leBytes (n v : Nat) : numberLE (leBytes n v) = v % 256 ^ n := by
  induction n generalizing v with
  | zero => exact (Nat.mod_one v).symm
  | succ n ih => rw [leBytes_succ, numberLE_cons, ih, Nat.pow_succ', Nat.mod_mul, BitVec.toNat_ofNat]

/-- The low bytes of a number depend on nothing above them. -/
theorem leBytes_mod (n v : Nat) : leBytes n (v % 256 ^ n) = leBytes n v := by
  induction n generalizing v with
  | zero => rfl
  | succ n ih =>
    have hlow : BitVec.ofNat 8 (v % 256 ^ (n + 1)) = BitVec.ofNat 8 v := by
      apply BitVec.eq_of_toNat_eq
      rw [BitVec.toNat_ofNat, BitVec.toNat_ofNat, Nat.pow_succ']
      exact Nat.mod_mul_right_mod v 256 (256 ^ n)
    rw [leBytes_succ, leBytes_succ, hlow, Nat.pow_succ', Nat.mod_mul_right_div_self, ih]

theorem extractByte_eq {w : Nat} (v : BitVec w) (k : Nat) : v.extractLsb' k 8 = BitVec.ofNat 8 (v.toNat / 2 ^ k) := by
  rw [← Nat.shiftRight_eq_div_pow]
  rfl

theorem be32_eq (v : Word) : be32 v = (leBytes 4 v.toNat).reverse := by
  simp only [be32, extractByte_eq]
  rfl

theorem be64_eq (v : DWord) : be64 v = (leBytes 8 v.toNat).reverse := by
  simp only [be64, extractByte_eq]
  rfl

/-! ### I2B and L2B -/

theorem bodyOf_i2b (o : ByteOrder) (s : State) : bodyOf (.i2b o) s = emit (intBytes o 4 s.arg0.toNat) s := by
  have hlow : s.arg0b32.toNat = s.arg0.toNat % 256 ^ 4 := BitVec.extractLsb'_toNat ..
  rw [bodyOf, be32_eq, hlow, leBytes_mod, intBytes]

theorem bodyOf_l2b (o : ByteOrder) (s : State) : bodyOf (.l2b o) s = emit (intBytes o 8 s.arg0.toNat) s := by
  rw [bodyOf, be64_eq, intBytes]

theorem completes_i2b {s : State} (hl : s.cfg.Legal) (o : ByteOrder) :
    Completes (.i2b o) s 0x03 (Emits (intBytes o 4 s.arg0.toNat) s) := by
  have ⟨_, ⟨hcap, _⟩, _⟩ := hl
  exact (yields_of_body hl (bodyOf_i2b o s)).2 (by rw [intBytes_length]; omega)

theorem completes_l2b {s : State} (hl : s.cfg.Legal) (o : ByteOrder) :
    Completes (.l2b o) s 0x04 (Emits (intBytes o 8 s.arg0.toNat) s) := by
  have ⟨_, ⟨hcap, _⟩, _⟩ := hl
  exact (yields_of_body hl (bodyOf_l2b o s)).2 (by rw [intBytes_length]; omega)

/-- Settles O29: the bytes of ARG0 in the order of E, and OUT always has room for 8 bytes. -/
theorem integersToBytes : Obligations.IntegersToBytes := by
  refine ⟨by decide, fun o s hl => ⟨⟨intBytes o 4 s.arg0.toNat, intBytes_length .., fun k hk => ?_, completes_i2b hl o⟩,
    ⟨intBytes o 8 s.arg0.toNat, intBytes_length .., fun k hk => ?_, completes_l2b hl o⟩⟩⟩
  · rw [intBytes_getElem? o _ hk]; cases o <;> rfl
  · rw [intBytes_getElem? o _ hk]; cases o <;> rfl

/-! ### The number that padded bytes spell -/

theorem numberLE_append (a b : List Byte) : numberLE (a ++ b) = numberLE a + 256 ^ a.length * numberLE b := by
  simp [numberLE, Nat.ofDigits_append]

theorem numberLE_zeros (k : Nat) : numberLE (List.replicate k 0) = 0 := by
  induction k with
  | zero => rfl
  | succ k ih => rw [List.replicate_succ, numberLE_cons, ih]; rfl

theorem numberBE_zeros_append (k : Nat) (b : List Byte) : numberBE (List.replicate k 0 ++ b) = numberBE b := by
  change numberLE (List.replicate k 0 ++ b).reverse = numberLE b.reverse
  rw [List.reverse_append, List.reverse_replicate, numberLE_append, numberLE_zeros, Nat.mul_zero, Nat.add_zero]

/-- The padding of R104 and R105 adds nothing to the number but where it stands below a little-endian input (P12). -/
theorem paddedValue_eq (o : ByteOrder) (p : PadLE) (width : Nat) (b : List Byte) :
    paddedValue o p width b = intValue o p width b := by
  cases o with
  | big => cases p <;> exact (beNat_eq _).trans (numberBE_zeros_append _ b)
  | little =>
    cases p with
    | left =>
      refine (leNat_eq _).trans ?_
      rw [numberLE_append, numberLE_zeros, List.length_replicate, Nat.zero_add, Nat.mul_comm]
      rfl
    | msb =>
      refine (leNat_eq _).trans ?_
      rw [numberLE_append, numberLE_zeros, Nat.mul_zero, Nat.add_zero]
      rfl

theorem intValue_lt (o : ByteOrder) (p : PadLE) {width : Nat} {b : List Byte} (h : b.length ≤ width) :
    intValue o p width b < 256 ^ width := by
  have hpow : 256 ^ b.length ≤ 256 ^ width := Nat.pow_le_pow_right (by decide) h
  cases o with
  | big => cases p <;> exact (numberBE_lt b).trans_le hpow
  | little =>
    cases p with
    | left =>
      calc numberLE b * 256 ^ (width - b.length)
          < 256 ^ b.length * 256 ^ (width - b.length) := Nat.mul_lt_mul_of_pos_right (numberLE_lt b) (by positivity)
        _ = 256 ^ width := by rw [← Nat.pow_add, Nat.add_sub_cancel' h]
    | msb => exact (numberLE_lt b).trans_le hpow

/-- Bytes of the full width need no padding: the value is the number they were made from. -/
theorem intValue_intBytes (o : ByteOrder) (p : PadLE) (n v : Nat) : intValue o p n (intBytes o n v) = v % 256 ^ n := by
  cases o with
  | big =>
    have hbe : numberBE (leBytes n v).reverse = numberLE (leBytes n v) := by
      change numberLE (leBytes n v).reverse.reverse = _
      rw [List.reverse_reverse]
    cases p <;> exact hbe.trans (numberLE_leBytes n v)
  | little =>
    have hle : numberLE (intBytes .little n v) = v % 256 ^ n := by
      rw [intBytes, inOrder, List.reverse_reverse, numberLE_leBytes]
    cases p with
    | left =>
      change numberLE _ * 256 ^ (n - (intBytes .little n v).length) = _
      rw [hle, intBytes_length, Nat.sub_self, Nat.pow_zero, Nat.mul_one]
    | msb => exact hle

/-! ### B2I and B2L -/

/-- The pseudocode that B2I and B2L share: at most `width` bytes of input, and RES from them. -/
def readIntBody (width : Nat) (value : List Byte → DWord) (s : State) : Except Stop State := do
  needIn s
  raiseIf (s.inLen.toNat > width) .widthOverflow
  let b ← readIn s 0 s.inLen.toNat
  pure (s.setRes (value b))

theorem bodyOf_b2i (o : ByteOrder) (s : State) : bodyOf (.b2i o) s =
    readIntBody 4 (fun b => (BitVec.ofNat 32 (paddedValue o s.cfg.intPadLE 4 b)).signExtend 64) s := rfl

theorem bodyOf_b2l (o : ByteOrder) (s : State) : bodyOf (.b2l o) s =
    readIntBody 8 (fun b => BitVec.ofNat 64 (paddedValue o s.cfg.intPadLE 8 b)) s := rfl

theorem readIntBody_overflow {width : Nat} {value : List Byte → DWord} {s : State} (hin : s.inLen.toNat ≤ s.cfg.inCap)
    (h : width < s.inLen.toNat) : readIntBody width value s = .error (.cause .widthOverflow) := by
  rw [readIntBody, needIn_ok hin, ok_bind, raiseIf_true _ h, error_bind]

theorem readIntBody_ok {width : Nat} {value : List Byte → DWord} {s : State} {b : List Byte} (hin : InseqIs s b)
    (h : b.length ≤ width) : readIntBody width value s = .ok (s.setRes (value b)) := by
  rw [readIntBody, needIn_of_inseqIs hin, ok_bind, raiseIf_false _ (by rw [hin.1]; omega), ok_bind,
    readIn_of_inseqIs hin, ok_bind, pure_eq_ok]

theorem completes_b2i {s : State} {b : List Byte} (o : ByteOrder) (hin : InseqIs s b) (h : b.length ≤ 4) :
    Completes (.b2i o) s 0x05 (SetsRes (signed64 32 (intValue o s.cfg.intPadLE 4 b)) s.buf s) := by
  refine completes_of_body ((bodyOf_b2i o s).trans (readIntBody_ok hin h)) ⟨?_, rfl, rfl, rfl, rfl⟩
  rw [commitCommand_res, State.setRes_res, paddedValue_eq]
  exact signExtend_eq 32 _ (by decide) (intValue_lt o _ h)

theorem completes_b2l {s : State} {b : List Byte} (o : ByteOrder) (hin : InseqIs s b) (h : b.length ≤ 8) :
    Completes (.b2l o) s 0x06 (SetsRes (BitVec.ofNat 64 (intValue o s.cfg.intPadLE 8 b)) s.buf s) := by
  refine completes_of_body ((bodyOf_b2l o s).trans (readIntBody_ok hin h)) ⟨?_, rfl, rfl, rfl, rfl⟩
  rw [commitCommand_res, State.setRes_res, paddedValue_eq]

/-- Settles O30: the two commands share their checks, and the padded bytes spell the number of the claim. -/
theorem bytesToIntegers : Obligations.BytesToIntegers := by
  refine ⟨by decide, fun o s => ⟨fun h => ⟨?_, ?_⟩, fun hin => ⟨fun h => ?_, fun h => ?_⟩,
    fun b hb => ⟨completes_b2i o hb, completes_b2l o hb⟩⟩⟩
  · exact fails_of_body (i := .b2i o) (c := .inLength) (needIn_bind_error h)
  · exact fails_of_body (i := .b2l o) (c := .inLength) (needIn_bind_error h)
  · exact fails_of_body (c := .widthOverflow) ((bodyOf_b2i o s).trans (readIntBody_overflow hin h))
  · exact fails_of_body (c := .widthOverflow) ((bodyOf_b2l o s).trans (readIntBody_overflow hin h))

end Sys2Proof.Machine
end

section
/-! PROOFS. PADP, UNPADP and ASCII (41_hex_int_pad.md R106-R108). -/

namespace Sys2Proof.Machine

open Sys2Proof.Claims

/-! ### PADP -/

/-- The number of padding bytes for a block size (R106). -/
def padCount (blockSize len : Nat) : Nat := blockSize - len % blockSize

/-- The input with its padding. -/
def padded (blockSize : Nat) (b : List Byte) : List Byte :=
  b ++ List.replicate (padCount blockSize b.length) (BitVec.ofNat 8 (padCount blockSize b.length))

theorem padCount_bounds {blockSize : Nat} (len : Nat) (h : 1 ≤ blockSize) :
    1 ≤ padCount blockSize len ∧ padCount blockSize len ≤ blockSize := by
  have hr := Nat.mod_lt len h
  unfold padCount
  omega

/-- The padding completes the last block. -/
theorem add_padCount_mod {blockSize : Nat} (len : Nat) (h : 1 ≤ blockSize) :
    (len + padCount blockSize len) % blockSize = 0 := by
  have hr := Nat.mod_lt len h
  have hsum : len + padCount blockSize len = blockSize * (len / blockSize + 1) := by
    have hdm := Nat.div_add_mod len blockSize
    rw [Nat.mul_succ, padCount]
    omega
  rw [hsum, Nat.mul_mod_right]

theorem bodyOf_padp_badBlockSize {s : State} (hin : s.inLen.toNat ≤ s.cfg.inCap)
    (h : s.arg0.toNat = 0 ∨ 255 < s.arg0.toNat) : bodyOf .padp s = .error (.cause .badBlockSize) := by
  rw [bodyOf, padpBody, needIn_ok hin, ok_bind]
  dsimp only
  rw [raiseIf_true _ (by omega), error_bind]

theorem bodyOf_padp {s : State} {b : List Byte} (hin : InseqIs s b) (h1 : 1 ≤ s.arg0.toNat) (h2 : s.arg0.toNat ≤ 255) :
    bodyOf .padp s = emit (padded s.arg0.toNat b) s := by
  rw [bodyOf, padpBody, needIn_of_inseqIs hin, ok_bind]
  dsimp only
  rw [raiseIf_false _ (by omega), ok_bind, readIn_of_inseqIs hin, ok_bind]
  rfl

theorem yields_padp {s : State} {b : List Byte} (hl : s.cfg.Legal) (hin : InseqIs s b) (h1 : 1 ≤ s.arg0.toNat)
    (h2 : s.arg0.toNat ≤ 255) : Yields .padp s 0x07 (padded s.arg0.toNat b) :=
  yields_of_body hl (bodyOf_padp hin h1 h2)

/-- Settles O31: the number of bytes missing to the next multiple of the block size is the padding. -/
theorem padpAppendsPadding : Obligations.PadpAppendsPadding := by
  refine ⟨by decide, fun s hl => ⟨fun h => fails_of_body (c := .inLength) (needIn_bind_error h),
    fun hin h => fails_of_body (c := .badBlockSize) (bodyOf_padp_badBlockSize hin h), fun b hin h1 h2 => ?_⟩⟩
  obtain ⟨hp1, hp2⟩ := padCount_bounds b.length h1
  exact ⟨padCount s.arg0.toNat b.length, hp1, hp2, add_padCount_mod b.length h1, yields_padp hl hin h1 h2⟩

/-! ### UNPADP -/

theorem bodyOf_unpadp_empty {s : State} (h : s.inLen.toNat = 0) : bodyOf .unpadp s = .error (.cause .emptyInput) := by
  rw [bodyOf, unpadpBody, needIn_ok (by omega), ok_bind]
  dsimp only
  rw [raiseIf_true _ h, error_bind]

/-- The cells that the padding check reads are the last `n` bytes. -/
theorem inCells_trailing {s : State} {b : List Byte} {n : Nat} (hin : InseqIs s b) (h : n ≤ b.length) :
    inCells s (b.length - n) n = (b.drop (b.length - n)).map some := by
  rw [inCells_slice hin _ _ (by omega), List.take_of_length_le (by rw [List.length_drop]; omega)]

section
variable {s : State} {b : List Byte} {x : Byte} (hin : InseqIs s b) (hx : b.getLast? = some x)
include hin hx

/-- UNPADP on an input that is not empty, from the check of its last byte on. -/
theorem bodyOf_unpadp_last : bodyOf .unpadp s = (do
    raiseIf (x.toNat = 0 ∨ x.toNat > b.length) .badPadding
    let _ ← scanIn s (b.length - x.toNat) x.toNat (fun y => y != x) .badPadding
    let r ← readIn s 0 (b.length - x.toNat)
    emit r s) := by
  have hne : b ≠ [] := by
    rintro rfl
    simp at hx
  have hlast : readInByte s (b.length - 1) = .ok x := readInByte_of_inseqIs hin (List.getLast?_eq_getElem? ▸ hx)
  rw [bodyOf, unpadpBody, needIn_of_inseqIs hin, ok_bind, hin.1]
  dsimp only
  rw [raiseIf_false _ (mt List.length_eq_zero_iff.1 hne), ok_bind, hlast, ok_bind]

theorem bodyOf_unpadp_invalid (h : ¬ ValidPadding b x) : bodyOf .unpadp s = .error (.cause .badPadding) := by
  rw [bodyOf_unpadp_last hin hx]
  by_cases hn : x.toNat = 0 ∨ x.toNat > b.length
  · rw [raiseIf_true _ hn, error_bind]
  · have hdiff : ∃ y ∈ b.drop (b.length - x.toNat), (y != x) = true := by
      by_contra hsame
      refine h ⟨by omega, by omega, fun y hy => ?_⟩
      by_contra hyx
      exact hsame ⟨y, hy, bne_iff_ne.2 hyx⟩
    rw [raiseIf_false _ hn, ok_bind, scanIn, inCells_trailing hin (by omega), scanCells_refuse_error hdiff, error_bind]

theorem bodyOf_unpadp_valid (h : ValidPadding b x) : bodyOf .unpadp s = emit (b.take (b.length - x.toNat)) s := by
  obtain ⟨h1, hlen, hsame⟩ := h
  have hpass : ∀ y ∈ b.drop (b.length - x.toNat), (y != x) = false := fun y hy => by rw [hsame y hy, bne_self_eq_false]
  rw [bodyOf_unpadp_last hin hx, raiseIf_false _ (by omega), ok_bind, scanIn, inCells_trailing hin hlen,
    scanCells_refuse_ok hpass, ok_bind, readIn_slice hin 0 _ (by omega), ok_bind, List.drop_zero]

end

/-- Settles O32: the three causes of BAD_PADDING are the two checks of the last byte and the scan of the trailing bytes. -/
theorem unpadpRemovesPadding : Obligations.UnpadpRemovesPadding := by
  refine ⟨by decide, fun s hl => ⟨fun h => fails_of_body (c := .inLength) (needIn_bind_error h),
    fun h => fails_of_body (c := .emptyInput) (bodyOf_unpadp_empty h), fun b x hin hx => ⟨fun h => ?_, fun h => ?_⟩⟩⟩
  · exact fails_of_body (c := .badPadding) (bodyOf_unpadp_invalid hin hx h)
  · exact yields_of_body hl (bodyOf_unpadp_valid hin hx h)

/-! ### ASCII -/

theorem bodyOf_ascii_scan {s : State} {b : List Byte} (hin : InseqIs s b) :
    bodyOf .ascii s = scanCells (refuse (fun x => x > 127) .notAscii) (b.map some) >>= fun r => emit r s := by
  rw [bodyOf, asciiBody, needIn_of_inseqIs hin, ok_bind, scanIn, inCells_of_inseqIs hin]

/-- Settles O33: the scan raises its cause at the first byte above 127 and otherwise returns the input. -/
theorem asciiPassesSevenBitBytes : Obligations.AsciiPassesSevenBitBytes := by
  refine ⟨by decide, fun s hl => ⟨fun h => fails_of_body (c := .inLength) (needIn_bind_error h),
    fun b hin => ⟨fun ⟨x, hx, h⟩ => ?_, fun h => ?_⟩⟩⟩
  · have hbad : ∃ x ∈ b, decide (x > 127) = true := ⟨x, hx, decide_eq_true (BitVec.lt_def.2 h)⟩
    refine fails_of_body (c := .notAscii) ?_
    rw [bodyOf_ascii_scan hin, scanCells_refuse_error hbad, error_bind]
  · have hpass : ∀ x ∈ b, decide (x > 127) = false := fun x hx =>
      decide_eq_false fun hgt => Nat.not_lt.2 (h x hx) (BitVec.lt_def.1 hgt)
    refine yields_of_body hl ?_
    rw [bodyOf_ascii_scan hin, scanCells_refuse_ok hpass, ok_bind]

end Sys2Proof.Machine
end

section
/-! PROOFS. The round trips of the Integer / Hex / Padding unit (41_hex_int_pad.md R109). -/

namespace Sys2Proof.Machine

open Sys2Proof.Claims

/-! ### What the second command of each pair makes of the first one's result -/

theorem isHexDigit_hexDigit {d : Nat} (h : d < 16) : IsHexDigit (hexDigit d) d := by
  rw [IsHexDigit, hexDigit_toNat h]
  split <;> omega

theorem forall₂_hexText (b : List Byte) : List.Forall₂ IsHexDigit (hexText b) (nibbles b) := by
  rw [hexText_eq, List.forall₂_map_left_iff, List.forall₂_same]
  exact fun d hd => isHexDigit_hexDigit (nibbles_lt hd)

/-- `x` is no digit, so a text that HEXENC wrote has no `0x` to strip. -/
theorem not_hasHexPrefix_hexText (u : HexUpper) (b : List Byte) : ¬ HasHexPrefix u (hexText b) := by
  rintro ⟨_, h⟩
  have hdigit : ∀ c, (hexText b)[1]? = some c → ∃ d < 16, hexDigit d = c := fun c hc => by
    rw [hexText_eq] at hc
    obtain ⟨d, hd, rfl⟩ := List.mem_map.1 (List.mem_of_getElem? hc)
    exact ⟨d, nibbles_lt hd, rfl⟩
  rcases h with h | ⟨_, h⟩ <;> exact absurd (hdigit _ h) (by decide)

theorem bodyOf_hexdec_hexText {u : State} {b : List Byte} (h : InseqIs u (hexText b)) :
    bodyOf .hexdec u = emit b u := by
  have hp := stripHexPrefix_neg (not_hasHexPrefix_hexText u.cfg.hex0xUpper b)
  have heven : (hexText b).length % 2 = 0 := by rw [hexText_length]; omega
  rw [bodyOf_hexdec_digits h hp heven (forall₂_hexText b), hexBytes_nibbles]

theorem completes_b2i_intBytes {u : State} {o : ByteOrder} {v : DWord} (h : InseqIs u (intBytes o 4 v.toNat)) :
    Completes (.b2i o) u 0x05 (SetsRes ((v.setWidth 32).signExtend 64) u.buf u) := by
  have hnumber : intValue o u.cfg.intPadLE 4 (intBytes o 4 v.toNat) = (v.setWidth 32).toNat :=
    (intValue_intBytes ..).trans (BitVec.toNat_setWidth 32 v).symm
  have hc := completes_b2i o h (intBytes_length ..).le
  rwa [hnumber, ← signExtend_eq 32 _ (by decide) (BitVec.isLt _), BitVec.ofNat_toNat, BitVec.setWidth_eq] at hc

theorem completes_b2l_intBytes {u : State} {o : ByteOrder} {v : DWord} (h : InseqIs u (intBytes o 8 v.toNat)) :
    Completes (.b2l o) u 0x06 (SetsRes v u.buf u) := by
  have hnumber : intValue o u.cfg.intPadLE 8 (intBytes o 8 v.toNat) = v.toNat :=
    (intValue_intBytes ..).trans (Nat.mod_eq_of_lt v.isLt)
  have hc := completes_b2l o h (intBytes_length ..).le
  rwa [hnumber, BitVec.ofNat_toNat, BitVec.setWidth_eq] at hc

theorem bodyOf_unpadp_padded {u : State} {b : List Byte} {blockSize : Nat} (h1 : 1 ≤ blockSize) (h255 : blockSize ≤ 255)
    (h : InseqIs u (padded blockSize b)) : bodyOf .unpadp u = emit b u := by
  obtain ⟨hp1, hp2⟩ := padCount_bounds b.length h1
  have hx : (BitVec.ofNat 8 (padCount blockSize b.length)).toNat = padCount blockSize b.length :=
    Nat.mod_eq_of_lt (show _ < 256 by omega)
  have hlen : (padded blockSize b).length - padCount blockSize b.length = b.length := by
    rw [padded, List.length_append, List.length_replicate, Nat.add_sub_cancel]
  have hlast : (padded blockSize b).getLast? = some (BitVec.ofNat 8 (padCount blockSize b.length)) := by
    rw [padded, List.getLast?_append_of_ne_nil _ (by simp; omega), List.getLast?_replicate, if_neg (by omega)]
  have hvalid : ValidPadding (padded blockSize b) (BitVec.ofNat 8 (padCount blockSize b.length)) := by
    refine ⟨by omega, by rw [hx, padded, List.length_append, List.length_replicate]; omega, fun y hy => ?_⟩
    rw [hx, hlen, padded, List.drop_left] at hy
    exact List.eq_of_mem_replicate hy
  rw [bodyOf_unpadp_valid h hlast hvalid, hx, hlen, padded, List.take_left]

/-! ### The round trips -/

/-- Settles O34: the host's copy is the second command's input, and there the second command undoes the first. -/
theorem hexIntPadRoundTrips : Obligations.HexIntPadRoundTrips := by
  refine ⟨fun s u b hl hin hcap => ?_, fun o s u hl => ?_, fun o s u hl => ?_, fun s u b hl hin h1 h255 hcap => ?_⟩
  · obtain ⟨t, hx, hcopy⟩ := copy_of_emits ((yields_hexenc hl hin).2 (by rw [hexText_length]; exact hcap))
    refine ⟨t, hx, fun hu => ?_⟩
    obtain ⟨hin', hcfg⟩ := hcopy u hu
    exact (yields_of_body (hcfg ▸ hl) (bodyOf_hexdec_hexText hin')).2 (by rw [hcfg]; omega)
  · obtain ⟨t, hx, hcopy⟩ := copy_of_emits (completes_i2b hl o)
    exact ⟨t, hx, fun hu => completes_b2i_intBytes (hcopy u hu).1⟩
  · obtain ⟨t, hx, hcopy⟩ := copy_of_emits (completes_l2b hl o)
    exact ⟨t, hx, fun hu => completes_b2l_intBytes (hcopy u hu).1⟩
  · have hlen : (padded s.arg0.toNat b).length ≤ s.cfg.outCap := by
      have hp := (padCount_bounds b.length h1).2
      rw [padded, List.length_append, List.length_replicate]
      omega
    obtain ⟨t, hx, hcopy⟩ := copy_of_emits ((yields_padp hl hin h1 h255).2 hlen)
    refine ⟨t, hx, fun hu => ?_⟩
    obtain ⟨hin', hcfg⟩ := hcopy u hu
    exact (yields_of_body (hcfg ▸ hl) (bodyOf_unpadp_padded h1 h255 hin')).2 (by rw [hcfg]; omega)

end Sys2Proof.Machine
end

section
/-! PROOFS. The digits of a number, most significant first, and runs of one leading element: what the two Base58 commands compute
with (42_base58.md R131, R132). -/

namespace Sys2Proof.Machine

/-! ### Digits, most significant first -/

theorem digits_reverse_lt {base n x : Nat} (hb : 1 < base) (h : x ∈ (Nat.digits base n).reverse) : x < base :=
  Nat.digits_lt_base hb (List.mem_reverse.1 h)

theorem digits_reverse_head? (base n : Nat) : (Nat.digits base n).reverse.head? ≠ some 0 := by
  intro h
  rw [List.head?_reverse] at h
  obtain ⟨hne, hlast⟩ := List.mem_getLast?_eq_getLast h
  exact Nat.getLast_digit_ne_zero base (Nat.digits_ne_nil_iff_ne_zero.1 hne) hlast.symm

/-- Digits without a leading zero are the digits of the number they spell. -/
theorem digits_reverse_ofDigits {base : Nat} {d : List Nat} (hb : 1 < base) (hd : ∀ x ∈ d, x < base)
    (h0 : d.head? ≠ some 0) : (Nat.digits base (Nat.ofDigits base d.reverse)).reverse = d := by
  have hlast : ∀ h : d.reverse ≠ [], d.reverse.getLast h ≠ 0 := fun h hz => h0 <| by
    rw [← List.getLast?_reverse, List.getLast?_eq_some_getLast h, hz]
  rw [Nat.digits_ofDigits base hb _ (fun x hx => hd x (List.mem_reverse.1 hx)) hlast, List.reverse_reverse]

/-! ### The minimal bytes of a number -/

theorem minimalBytes_map_toNat (n : Nat) : (minimalBytes n).map BitVec.toNat = (Nat.digits 256 n).reverse := by
  have hid : ∀ d ∈ (Nat.digits 256 n).reverse, (BitVec.toNat ∘ BitVec.ofNat 8) d = id d := fun d hd =>
    Nat.mod_eq_of_lt (digits_reverse_lt (by decide) hd)
  rw [minimalBytes, List.map_map, List.map_congr_left hid, List.map_id]

theorem numberBE_minimalBytes (n : Nat) : numberBE (minimalBytes n) = n := by
  rw [numberBE, List.map_reverse, minimalBytes_map_toNat, List.reverse_reverse, Nat.ofDigits_digits]

theorem minimalBytes_head? (n : Nat) : (minimalBytes n).head? ≠ some 0 := by
  intro h
  refine digits_reverse_head? 256 n ?_
  rw [← minimalBytes_map_toNat, List.head?_map, h]
  rfl

/-- Bytes without a leading zero are the minimal bytes of the number they spell. -/
theorem minimalBytes_numberBE {r : List Byte} (h : r.head? ≠ some 0) : minimalBytes (numberBE r) = r := by
  have h0 : (r.map BitVec.toNat).head? ≠ some 0 := by
    cases r with
    | nil => nofun
    | cons x r => exact fun hx => h (congrArg some (BitVec.eq_of_toNat_eq (Option.some.inj hx)))
  have hlt : ∀ x ∈ r.map BitVec.toNat, x < 256 := by
    rintro _ hx
    obtain ⟨y, _, rfl⟩ := List.mem_map.1 hx
    exact y.isLt
  refine List.map_injective_iff.2 (fun _ _ => BitVec.eq_of_toNat_eq) ?_
  rw [minimalBytes_map_toNat, numberBE, List.map_reverse, digits_reverse_ofDigits (by decide) hlt h0]

/-! ### The run of one leading element -/

theorem leadingCount_replicate_append {α : Type} [DecidableEq α] {x : α} {r : List α} (z : Nat)
    (h : r.head? ≠ some x) : leadingCount x (List.replicate z x ++ r) = z := by
  induction z with
  | zero =>
    cases r with
    | nil => rfl
    | cons y r => exact if_neg fun hy => h (congrArg some hy)
  | succ z ih => exact (if_pos rfl).trans (congrArg (· + 1) ih)

theorem exists_replicate_append {α : Type} [DecidableEq α] (x : α) (l : List α) :
    ∃ z r, l = List.replicate z x ++ r ∧ r.head? ≠ some x := by
  induction l with
  | nil => exact ⟨0, [], rfl, nofun⟩
  | cons y l ih =>
    by_cases hy : y = x
    · obtain ⟨z, r, rfl, hr⟩ := ih
      exact ⟨z + 1, r, hy ▸ rfl, hr⟩
    · exact ⟨0, y :: l, rfl, fun h => hy (Option.some.inj h)⟩

end Sys2Proof.Machine
end

section
/-! PROOFS. B58ENC and B58DEC: the alphabet, the text of given bytes, and the bytes of a given text (42_base58.md R130-R132). -/

namespace Sys2Proof.Machine

/-! ### The alphabet (R130) -/

theorem Config.Legal.alphabet {c : Config} (h : c.Legal) : c.AlphabetLegal := by
  obtain ⟨_, _, _, ha, _⟩ := h
  exact ha

section
variable {c : Config} (hl : c.AlphabetLegal)
include hl

theorem b58Symbol_zero : b58Symbol c 0 = 0x31 := by
  obtain ⟨_, _, _, hhead⟩ := hl
  rw [b58Symbol, List.getD_eq_getElem?_getD, ← List.head?_eq_getElem?, hhead, Option.getD_some]

/-- `b58idx` undoes the alphabet, whose symbols are distinct. -/
theorem b58idx_b58Symbol {k : Nat} (h : k < 58) : b58idx c (b58Symbol c k) = some k := by
  obtain ⟨hlen, hnodup, _⟩ := hl
  have hk : k < c.b58Alphabet.length := hlen ▸ h
  rw [b58Symbol, List.getD_eq_getElem _ _ hk]
  exact List.idxOf?_eq_some_iff.2 ⟨hk, rfl, fun j hj heq => hj.ne (hnodup.getElem_inj_iff.1 heq)⟩

theorem b58Symbol_eq_one {k : Nat} (h : k < 58) (h1 : b58Symbol c k = 0x31) : k = 0 := by
  have hk := b58idx_b58Symbol hl h
  rw [h1, ← b58Symbol_zero hl, b58idx_b58Symbol hl (by decide)] at hk
  exact (Option.some.inj hk).symm

/-- The first character after the run of `'1'` is the first digit's, which is not 0. -/
theorem map_b58Symbol_head? {d : List Nat} (hd : ∀ x ∈ d, x < 58) (h0 : d.head? ≠ some 0) :
    (d.map (b58Symbol c)).head? ≠ some 0x31 := by
  cases d with
  | nil => nofun
  | cons k d =>
    intro h
    exact h0 (congrArg some (b58Symbol_eq_one hl (hd k List.mem_cons_self) (Option.some.inj h)))

/-- A text over the alphabet spells digits. -/
theorem exists_digits_of_alphabet {r : List Byte} (h : ∀ x ∈ r, x ∈ c.b58Alphabet) :
    ∃ d : List Nat, (∀ k ∈ d, k < 58) ∧ r = d.map (b58Symbol c) := by
  obtain ⟨hlen, _⟩ := hl
  refine ⟨r.map c.b58Alphabet.idxOf, fun k hk => ?_, ?_⟩
  · obtain ⟨x, hx, rfl⟩ := List.mem_map.1 hk
    exact hlen ▸ List.idxOf_lt_length_of_mem (h x hx)
  · have hid : ∀ x ∈ r, (b58Symbol c ∘ c.b58Alphabet.idxOf) x = id x := fun x hx => by
      have hlt := List.idxOf_lt_length_of_mem (h x hx)
      exact (List.getD_eq_getElem _ _ hlt).trans (List.getElem_idxOf hlt)
    rw [List.map_map, List.map_congr_left hid, List.map_id]

theorem indicesOf_b58Symbol {d : List Nat} (hd : ∀ x ∈ d, x < 58) :
    indicesOf (b58idx c) (d.map (b58Symbol c)) = some d :=
  indicesOf_some (List.forall₂_map_left_iff.2 (List.forall₂_same.2 fun k hk => b58idx_b58Symbol hl (hd k hk)))

end

theorem b58idx_isNone_iff {c : Config} {x : Byte} : (b58idx c x).isNone = true ↔ x ∉ c.b58Alphabet := by
  rw [Option.isNone_iff_eq_none, b58idx, List.idxOf?_eq_none_iff]

/-! ### B58ENC -/

theorem b58Text_replicate_append (c : Config) (z : Nat) {r : List Byte} (h : r.head? ≠ some 0) :
    b58Text c (List.replicate z 0 ++ r)
      = List.replicate z 0x31 ++ (Nat.digits 58 (numberBE r)).reverse.map (b58Symbol c) := by
  rw [b58Text, leadingCount_replicate_append z h, beNat_eq, List.drop_left' List.length_replicate]

theorem bodyOf_b58enc {s : State} {b : List Byte} (h : InseqIs s b) : bodyOf .b58enc s = emit (b58Text s.cfg b) s := by
  rw [bodyOf, b58encBody, readInseq_of_inseqIs h, ok_bind]

/-- Settles O35: the digits are the model's, most significant first; the run of zero bytes ends where `r` begins. -/
theorem b58encWritesBase58 : Obligations.B58encWritesBase58 := by
  refine ⟨by decide, fun s hl => ⟨fun h => fails_of_body (c := .inLength) (readInseq_bind_error h), fun z r hin hr => ?_⟩⟩
  refine ⟨(Nat.digits 58 (numberBE r)).reverse, fun _ => digits_reverse_lt (by decide),
    digits_reverse_head? 58 _, by rw [List.reverse_reverse, Nat.ofDigits_digits], ?_⟩
  exact yields_of_body hl ((bodyOf_b58enc hin).trans (congrArg (emit · s) (b58Text_replicate_append s.cfg z hr)))

/-! ### B58DEC -/

theorem b58Value_eq (d : List Nat) : b58Value d = Nat.ofDigits 58 d.reverse := by
  simp [b58Value, Nat.ofDigits_eq_foldr, List.foldr_reverse, Nat.add_comm]

section
variable {s : State} {z : Nat} {r : List Byte} (hin : InseqIs s (List.replicate z 0x31 ++ r)) (hr : r.head? ≠ some 0x31)
include hin hr

/-- B58DEC from the end of the leading run on. -/
theorem bodyOf_b58dec_rest : bodyOf .b58dec s = (do
    let t ← scanCells (refuse (fun x => (b58idx s.cfg x).isNone) .badChar) (r.map some)
    let v ← orRaise (indicesOf (b58idx s.cfg) t) .badChar
    emit (List.replicate z 0 ++ minimalBytes (b58Value v)) s) := by
  have hr' : (r.map some).head? ≠ some (some 0x31) := by
    rw [List.head?_map]
    exact fun h => hr (Option.map_injective (Option.some_injective _) h)
  rw [bodyOf, b58decBody, needIn_of_inseqIs hin, ok_bind, inCells_of_inseqIs hin, List.map_append, List.map_replicate]
  dsimp only
  rw [leadingCount_replicate_append z hr', List.drop_left' List.length_replicate]

theorem bodyOf_b58dec_badChar (h : ∃ c ∈ r, c ∉ s.cfg.b58Alphabet) :
    bodyOf .b58dec s = .error (.cause .badChar) := by
  obtain ⟨c, hc, hbad⟩ := h
  rw [bodyOf_b58dec_rest hin hr, scanCells_refuse_error ⟨c, hc, b58idx_isNone_iff.2 hbad⟩, error_bind]

theorem bodyOf_b58dec_digits (hl : s.cfg.AlphabetLegal) {d : List Nat} (hd : ∀ x ∈ d, x < 58)
    (hrd : r = d.map (b58Symbol s.cfg)) :
    bodyOf .b58dec s = emit (List.replicate z 0 ++ minimalBytes (Nat.ofDigits 58 d.reverse)) s := by
  have hpass : ∀ x ∈ r, (b58idx s.cfg x).isNone = false := by
    subst hrd
    intro x hx
    obtain ⟨k, hk, rfl⟩ := List.mem_map.1 hx
    rw [b58idx_b58Symbol hl (hd k hk), Option.isNone_some]
  rw [bodyOf_b58dec_rest hin hr, scanCells_refuse_ok hpass, ok_bind, hrd, indicesOf_b58Symbol hl hd, orRaise_some,
    ok_bind, b58Value_eq]

end

/-- Settles O36: the scan refuses a character without an index, and the digits' number is written in minimal bytes. -/
theorem b58decReadsBase58 : Obligations.B58decReadsBase58 := by
  refine ⟨by decide, fun s hl => ⟨fun h => fails_of_body (c := .inLength) (needIn_bind_error h), fun z r hin hr =>
    ⟨fun h => fails_of_body (c := .badChar) (bodyOf_b58dec_badChar hin hr h), fun d hd hrd => ?_⟩⟩⟩
  exact ⟨minimalBytes (Nat.ofDigits 58 d.reverse), minimalBytes_head? _, numberBE_minimalBytes _,
    yields_of_body hl (bodyOf_b58dec_digits hin hr (Config.Legal.alphabet hl) hd hrd)⟩

end Sys2Proof.Machine
end

section
/-! PROOFS. The round trips of the Base58 unit (42_base58.md R133). -/

namespace Sys2Proof.Machine

/-- An emission that succeeded fitted OUT, and the host's copy of it is the input of the next command. -/
theorem inseqIs_of_emitted {i : Instr} {s t u : State} {b : List Byte} (hl : s.cfg.Legal) (hb : bodyOf i s = emit b s)
    (hx : exec i s = .next t) (he : statusErr t.status = 0) (hu : CopiedOut t u) : InseqIs u b ∧ u.cfg = s.cfg := by
  obtain ⟨v, hv, _⟩ := exec_of_statusErr_zero hx he
  obtain ⟨hfit, _⟩ := emit_eq_ok (hb.symm.trans hv)
  obtain ⟨t', hx', hcopy⟩ := copy_of_emits ((yields_of_body hl hb).2 hfit)
  obtain rfl := Host.Outcome.next.inj (hx'.symm.trans hx)
  exact hcopy u hu

/-- B58DEC undoes the text of any bytes. -/
theorem bodyOf_b58dec_b58Text {u : State} {b : List Byte} (hl : u.cfg.AlphabetLegal) (hin : InseqIs u (b58Text u.cfg b)) :
    bodyOf .b58dec u = emit b u := by
  obtain ⟨z, r, rfl, hr⟩ := exists_replicate_append 0 b
  have hd : ∀ x ∈ (Nat.digits 58 (numberBE r)).reverse, x < 58 := fun _ =>
    digits_reverse_lt (by decide)
  rw [b58Text_replicate_append u.cfg z hr] at hin
  rw [bodyOf_b58dec_digits hin (map_b58Symbol_head? hl hd (digits_reverse_head? 58 _)) hl hd rfl, List.reverse_reverse,
    Nat.ofDigits_digits, minimalBytes_numberBE hr]

/-- B58DEC writes, from a text over the alphabet, the bytes whose text it is. -/
theorem bodyOf_b58dec_alphabet {s : State} {x : List Byte} (hl : s.cfg.AlphabetLegal) (hin : InseqIs s x)
    (hx : ∀ c ∈ x, c ∈ s.cfg.b58Alphabet) : ∃ b, bodyOf .b58dec s = emit b s ∧ b58Text s.cfg b = x := by
  obtain ⟨z, r, rfl, hr⟩ := exists_replicate_append 0x31 x
  obtain ⟨d, hd, rfl⟩ := exists_digits_of_alphabet hl fun c hc => hx c (List.mem_append_right _ hc)
  have h0 : d.head? ≠ some 0 := fun h => hr <| by
    rw [List.head?_map, h, Option.map_some, b58Symbol_zero hl]
  refine ⟨_, bodyOf_b58dec_digits hin hr hl hd rfl, ?_⟩
  rw [b58Text_replicate_append s.cfg z (minimalBytes_head? _), numberBE_minimalBytes,
    digits_reverse_ofDigits (by decide) hd h0]

theorem b58Text_zeros (c : Config) (n : Nat) : b58Text c (List.replicate n 0) = List.replicate n 0x31 := by
  simpa [numberBE] using b58Text_replicate_append c n (r := []) nofun

/-- Settles O37: each command undoes the other on what the host copies, and a run of zero bytes is the text of its own length. -/
theorem base58RoundTrips : Obligations.Base58RoundTrips := by
  refine ⟨fun s t u b hl hin hcap hx hst hu => ?_, fun s n hl hin hcap => ?_, fun s n hl hin hcap => ?_,
    fun s t u x hl hin hcap hover hx hst hu => ?_⟩
  · obtain ⟨hin', hcfg⟩ := inseqIs_of_emitted hl (bodyOf_b58enc hin) hx (hst ▸ by decide) hu
    rw [← hcfg] at hl hcap hin'
    exact (yields_of_body hl (bodyOf_b58dec_b58Text (Config.Legal.alphabet hl) hin')).2 hcap
  · have hbody := bodyOf_b58enc hin
    rw [b58Text_zeros] at hbody
    exact (yields_of_body hl hbody).2 (by rwa [List.length_replicate])
  · rw [← b58Text_zeros s.cfg] at hin
    exact (yields_of_body hl (bodyOf_b58dec_b58Text (Config.Legal.alphabet hl) hin)).2 (by rwa [List.length_replicate])
  · obtain ⟨b, hbody, rfl⟩ := bodyOf_b58dec_alphabet (Config.Legal.alphabet hl) hin hover
    obtain ⟨hin', hcfg⟩ := inseqIs_of_emitted hl hbody hx (hst ▸ by decide) hu
    rw [← hcfg] at hl hcap ⊢
    exact (yields_of_body hl (bodyOf_b58enc hin')).2 hcap

end Sys2Proof.Machine
end

section
/-! PROOFS. B64ENC and B64UENC: the two alphabets, the 6-bit values of given bytes, and the texts that spell them (43_base64.md
R140-R142). -/

namespace Sys2Proof.Machine

open Sys2Proof.Claims

/-! ### The two alphabets (R140) -/

/-- `STD64` lists the characters by index. -/
theorem std64_eq : std64 = (List.range 64).map (b64Char 0x2B 0x2F) := by decide

theorem b64Symbol_eq (v : BitVec 6) : b64Symbol v = b64Char 0x2B 0x2F v.toNat := by
  rw [b64Symbol, std64_eq, List.getD_eq_getElem _ _ (by simpa using v.isLt), List.getElem_map, List.getElem_range]

theorem toUrlSafe_b64Char {v : Nat} (h : v < 64) : toUrlSafe (b64Char 0x2B 0x2F v) = b64Char 0x2D 0x5F v := by
  revert v
  decide

theorem b64Char_urlSafe_ne {v : Nat} (h : v < 64) :
    b64Char 0x2D 0x5F v ≠ 0x2B ∧ b64Char 0x2D 0x5F v ≠ 0x2F ∧ b64Char 0x2D 0x5F v ≠ 0x3D := by
  revert v
  decide

/-! ### The 6-bit values of given bytes -/

/-- The 24 bits of a group of three bytes. -/
def groupValue (x0 x1 x2 : Byte) : Nat := x0.toNat * 65536 + x1.toNat * 256 + x2.toNat

/-- The four 6-bit values of a group. -/
def groupSextets (x0 x1 x2 : Byte) : List Nat :=
  [groupValue x0 x1 x2 / 2 ^ 18 % 64, groupValue x0 x1 x2 / 2 ^ 12 % 64, groupValue x0 x1 x2 / 2 ^ 6 % 64,
    groupValue x0 x1 x2 % 64]

/-- The 6-bit values that the text of R141 spells: a short group has one value more than bytes. -/
def sextets : List Byte → List Nat
  | [] => []
  | [x0] => (groupSextets x0 0 0).take 2
  | [x0, x1] => (groupSextets x0 x1 0).take 3
  | x0 :: x1 :: x2 :: rest => groupSextets x0 x1 x2 ++ sextets rest

theorem append3_toNat (x0 x1 x2 : Byte) : (x0 ++ x1 ++ x2).toNat = groupValue x0 x1 x2 := by
  rw [BitVec.toNat_append, BitVec.toNat_append, shiftLeft_or _ 8 x1 x1.isLt, shiftLeft_or _ 8 x2 x2.isLt, groupValue]
  omega

theorem b64Group_eq (x0 x1 x2 : Byte) : b64Group x0 x1 x2 = (groupSextets x0 x1 x2).map (b64Char 0x2B 0x2F) := by
  simp only [b64Group, b64Symbol_eq, BitVec.extractLsb'_toNat, append3_toNat, Nat.shiftRight_eq_div_pow,
    Nat.pow_zero, Nat.div_one]
  rfl

theorem b64Text_eq : ∀ b : List Byte, b64Text b = (sextets b).map (b64Char 0x2B 0x2F)
  | [] => rfl
  | [x0] => by rw [b64Text, sextets, b64Group_eq, List.map_take]
  | [x0, x1] => by rw [b64Text, sextets, b64Group_eq, List.map_take]
  | x0 :: x1 :: x2 :: rest => by rw [b64Text, sextets, b64Group_eq, b64Text_eq rest, List.map_append]

theorem groupSextets_lt {x0 x1 x2 : Byte} {v : Nat} (h : v ∈ groupSextets x0 x1 x2) : v < 64 := by
  simp only [groupSextets, List.mem_cons, List.not_mem_nil, or_false] at h
  omega

theorem sextets_lt : ∀ (b : List Byte) {v : Nat}, v ∈ sextets b → v < 64
  | [], _, h => nomatch h
  | [_], _, h => groupSextets_lt (List.mem_of_mem_take h)
  | [_, _], _, h => groupSextets_lt (List.mem_of_mem_take h)
  | _ :: _ :: _ :: rest, _, h => (List.mem_append.1 h).elim groupSextets_lt (sextets_lt rest)

theorem sextets_length : ∀ b : List Byte, (sextets b).length = b64TextLength b.length
  | [] => rfl
  | [_] => show 2 = b64TextLength 1 from rfl
  | [_, _] => show 3 = b64TextLength 2 from rfl
  | _ :: _ :: _ :: rest => by
    change (sextets rest).length + 4 = b64TextLength (rest.length + 3)
    rw [sextets_length rest, b64TextLength, b64TextLength, Nat.add_div_right _ (by decide), Nat.add_mod_right]
    omega

theorem groupSextets_getElem? (x0 x1 x2 : Byte) {i : Nat} (h : i < 4) :
    (groupSextets x0 x1 x2)[i]? = some (groupValue x0 x1 x2 / 64 ^ (3 - i) % 64) := by
  match i, h with
  | 0, _ => rfl
  | 1, _ => rfl
  | 2, _ => rfl
  | 3, _ => rw [Nat.sub_self, Nat.pow_zero, Nat.div_one]; rfl

/-- Value `i` of group `g`, where the sequence has one. -/
theorem sextets_getElem? : ∀ (b : List Byte) {g i : Nat}, 4 * g + i < (sextets b).length → i < 4 →
    (sextets b)[4 * g + i]? =
      some (groupValue (b.getD (3 * g) 0) (b.getD (3 * g + 1) 0) (b.getD (3 * g + 2) 0) / 64 ^ (3 - i) % 64)
  | [], _, _, h, _ => absurd h (Nat.not_lt_zero _)
  | [x0], g, i, h, hi => by
    have h2 : 4 * g + i < 2 := h
    obtain rfl : g = 0 := by omega
    rw [Nat.mul_zero, Nat.zero_add] at h2
    rw [Nat.mul_zero, Nat.zero_add, sextets, List.getElem?_take_of_lt h2, groupSextets_getElem? _ _ _ hi]
    rfl
  | [x0, x1], g, i, h, hi => by
    have h3 : 4 * g + i < 3 := h
    obtain rfl : g = 0 := by omega
    rw [Nat.mul_zero, Nat.zero_add] at h3
    rw [Nat.mul_zero, Nat.zero_add, sextets, List.getElem?_take_of_lt h3, groupSextets_getElem? _ _ _ hi]
    rfl
  | x0 :: x1 :: x2 :: rest, 0, i, _, hi => by
    rw [Nat.mul_zero, Nat.zero_add, sextets, List.getElem?_append_left hi, groupSextets_getElem? _ _ _ hi]
    rfl
  | x0 :: x1 :: x2 :: rest, g + 1, i, h, hi => by
    have hidx : 4 * (g + 1) + i = 4 * g + i + 4 := by omega
    rw [hidx] at h ⊢
    exact sextets_getElem? rest (Nat.lt_of_add_lt_add_right h) hi

/-! ### The texts -/

/-- Spelling the values by either alphabet gives the text of the claims. -/
theorem isB64Text_map_sextets (c62 c63 : Byte) (b : List Byte) :
    IsB64Text c62 c63 b ((sextets b).map (b64Char c62 c63)) := by
  refine ⟨by rw [List.length_map, sextets_length], fun g i h hi => ?_⟩
  rw [List.length_map] at h
  rw [List.getElem?_map, sextets_getElem? b h hi]
  rfl

theorem toUrlSafe_b64Text (b : List Byte) : (b64Text b).map toUrlSafe = (sextets b).map (b64Char 0x2D 0x5F) := by
  rw [b64Text_eq, List.map_map]
  exact List.map_congr_left fun v hv => toUrlSafe_b64Char (sextets_lt b hv)

theorem urlSafeText_ne {b : List Byte} {c : Byte} (h : c ∈ (sextets b).map (b64Char 0x2D 0x5F)) :
    c ≠ 0x2B ∧ c ≠ 0x2F ∧ c ≠ 0x3D := by
  obtain ⟨v, hv, rfl⟩ := List.mem_map.1 h
  exact b64Char_urlSafe_ne (sextets_lt b hv)

theorem dropTrailingPad_of_not_mem {t : List Byte} (h : 0x3D ∉ t) : dropTrailingPad t = t :=
  List.rdropWhile_eq_self_iff.2 fun ht heq => h (eq_of_beq heq ▸ List.getLast_mem ht)

theorem bodyOf_b64enc {s : State} {b : List Byte} (h : InseqIs s b) :
    bodyOf .b64enc s = emit ((sextets b).map (b64Char 0x2B 0x2F)) s := by
  rw [bodyOf, b64encBody, readInseq_of_inseqIs h, ok_bind, b64Text_eq]

/-- The text has no `=` to remove. -/
theorem bodyOf_b64uenc {s : State} {b : List Byte} (h : InseqIs s b) :
    bodyOf .b64uenc s = emit ((sextets b).map (b64Char 0x2D 0x5F)) s := by
  have hpad : 0x3D ∉ (sextets b).map (b64Char 0x2D 0x5F) := fun hc => by
    obtain ⟨_, _, hne⟩ := urlSafeText_ne hc
    exact hne rfl
  rw [bodyOf, b64uencBody, readInseq_of_inseqIs h, ok_bind, toUrlSafe_b64Text, dropTrailingPad_of_not_mem hpad]

/-- Settles O38: the machine's characters spell the 6-bit values of each group. -/
theorem b64encWritesBase64 : Obligations.B64encWritesBase64 := by
  refine ⟨by decide, fun s hl => ⟨fun h => fails_of_body (c := .inLength) (readInseq_bind_error h), fun b hin => ?_⟩⟩
  exact ⟨_, isB64Text_map_sextets _ _ b, yields_of_body hl (bodyOf_b64enc hin)⟩

/-- Settles O39: the replacement spells the same values by the other alphabet. -/
theorem b64uencWritesUrlSafeBase64 : Obligations.B64uencWritesUrlSafeBase64 := by
  refine ⟨by decide, fun s hl => ⟨fun h => fails_of_body (c := .inLength) (readInseq_bind_error h), fun b hin => ?_⟩⟩
  exact ⟨_, isB64Text_map_sextets _ _ b, fun c hc => urlSafeText_ne hc, yields_of_body hl (bodyOf_b64uenc hin)⟩

end Sys2Proof.Machine
end

section
/-! PROOFS. B64DEC: the characters of either alphabet, and the bytes of given indices (43_base64.md R143). -/

namespace Sys2Proof.Machine

open Sys2Proof.Claims

/-! ### The characters of either alphabet -/

theorem b64idx_b64Char {v : Nat} (h : v < 64) : b64idx (b64Char 0x2B 0x2F v) = some v := by
  revert v
  decide

theorem b64idx_eq_some_iff {c : Byte} {v : Nat} : b64idx c = some v ↔ v < 64 ∧ c = b64Char 0x2B 0x2F v := by
  constructor
  · intro h
    obtain ⟨hv, hc, _⟩ := List.idxOf?_eq_some_iff.1 h
    simp only [std64_eq, List.length_map, List.length_range, List.getElem_map, List.getElem_range] at hv hc
    exact ⟨hv, hc.symm⟩
  · rintro ⟨hv, rfl⟩
    exact b64idx_b64Char hv

theorem fromUrlSafe_b64Char_std {v : Nat} (h : v < 64) : fromUrlSafe (b64Char 0x2B 0x2F v) = b64Char 0x2B 0x2F v := by
  revert v
  decide

theorem fromUrlSafe_b64Char_urlSafe {v : Nat} (h : v < 64) :
    fromUrlSafe (b64Char 0x2D 0x5F v) = b64Char 0x2B 0x2F v := by
  revert v
  decide

theorem eq_fromUrlSafe_or (c : Byte) : c = fromUrlSafe c ∨ c = toUrlSafe (fromUrlSafe c) := by
  unfold fromUrlSafe
  split
  · next h => exact .inr h
  · split
    · next h => exact .inr h
    · exact .inl rfl

/-- B64DEC looks a character up after the replacement, which accepts both alphabets. -/
theorem b64idx_fromUrlSafe_iff {c : Byte} {v : Nat} : b64idx (fromUrlSafe c) = some v ↔ IsB64Char c v := by
  rw [b64idx_eq_some_iff]
  constructor
  · rintro ⟨hv, hc⟩
    refine ⟨hv, ?_⟩
    rw [← toUrlSafe_b64Char hv, ← hc]
    exact eq_fromUrlSafe_or c
  · rintro ⟨hv, rfl | rfl⟩
    · exact ⟨hv, fromUrlSafe_b64Char_std hv⟩
    · exact ⟨hv, fromUrlSafe_b64Char_urlSafe hv⟩

theorem indicesOf_fromUrlSafe_some {t : List Byte} {v : List Nat} (h : List.Forall₂ IsB64Char t v) :
    indicesOf b64idx (t.map fromUrlSafe) = some v :=
  indicesOf_some (List.forall₂_map_left_iff.2 (h.imp fun _ _ => b64idx_fromUrlSafe_iff.2))

theorem indicesOf_fromUrlSafe_none {t : List Byte} (h : ∃ c ∈ t, ∀ v, ¬ IsB64Char c v) :
    indicesOf b64idx (t.map fromUrlSafe) = none := by
  obtain ⟨c, hc, hv⟩ := h
  refine indicesOf_none ⟨fromUrlSafe c, List.mem_map_of_mem hc, ?_⟩
  exact Option.eq_none_iff_forall_ne_some.2 fun v h => hv v (b64idx_fromUrlSafe_iff.1 h)

theorem isB64Char_lt_of_forall₂ {t : List Byte} {v : List Nat} (h : List.Forall₂ IsB64Char t v) : ∀ k ∈ v, k < 64 := by
  induction h with
  | nil => nofun
  | cons hck _ ih => exact List.forall_mem_cons.2 ⟨hck.1, ih⟩

/-! ### The bytes of given indices -/

/-- The 24 bits of a group of four indices. -/
def joinedSextets (v0 v1 v2 v3 : Nat) : Nat := v0 * 2 ^ 18 + v1 * 2 ^ 12 + v2 * 2 ^ 6 + v3

/-- Neighbouring bit fields of a byte join as numbers do. -/
theorem shiftLeft_or_byte {a b : Byte} {k n : Nat} (hb : b.toNat < 2 ^ k) (h : a.toNat * 2 ^ k + b.toNat = n % 256) :
    (a <<< k) ||| b = BitVec.ofNat 8 n := by
  have ha : (a <<< k).toNat = a.toNat <<< k := by
    rw [BitVec.toNat_shiftLeft, Nat.shiftLeft_eq]
    omega
  apply BitVec.eq_of_toNat_eq
  rw [BitVec.toNat_or, ha, shiftLeft_or _ k b hb, h, BitVec.toNat_ofNat]

/-- The machine's three bytes are those of the group's 24 bits. -/
theorem b64Bytes3_eq {v0 v1 v2 v3 : Nat} (h0 : v0 < 64) (h1 : v1 < 64) (h2 : v2 < 64) (h3 : v3 < 64) :
    b64Bytes3 v0 v1 v2 v3 = [BitVec.ofNat 8 (joinedSextets v0 v1 v2 v3 / 65536),
      BitVec.ofNat 8 (joinedSextets v0 v1 v2 v3 / 256), BitVec.ofNat 8 (joinedSextets v0 v1 v2 v3)] := by
  have hlow4 (x : Byte) : (x &&& 0xF).toNat = x.toNat % 16 := (BitVec.toNat_and ..).trans (Nat.and_two_pow_sub_one_eq_mod _ 4)
  have hlow2 (x : Byte) : (x &&& 0x3).toNat = x.toNat % 4 := (BitVec.toNat_and ..).trans (Nat.and_two_pow_sub_one_eq_mod _ 2)
  refine congrArg₂ List.cons (shiftLeft_or_byte ?_ ?_) (congrArg₂ List.cons (shiftLeft_or_byte ?_ ?_)
    (congrArg (List.cons · []) (shiftLeft_or_byte ?_ ?_))) <;>
  · simp only [BitVec.toNat_ushiftRight, hlow4, hlow2, BitVec.toNat_ofNat, Nat.shiftRight_eq_div_pow, joinedSextets]
    omega

theorem b64Bytes3_getElem? {v0 v1 v2 v3 i : Nat} (h0 : v0 < 64) (h1 : v1 < 64) (h2 : v2 < 64) (h3 : v3 < 64) (h : i < 3) :
    (b64Bytes3 v0 v1 v2 v3)[i]? = some (BitVec.ofNat 8 (joinedSextets v0 v1 v2 v3 / 256 ^ (2 - i))) := by
  rw [b64Bytes3_eq h0 h1 h2 h3]
  match i, h with
  | 0, _ => rfl
  | 1, _ => rfl
  | 2, _ => rw [Nat.sub_self, Nat.pow_zero, Nat.div_one]; rfl

theorem b64Bytes_length : ∀ v : List Nat, (b64Bytes v).length = b64ByteLength v.length
  | [] => rfl
  | [_] => show 1 = b64ByteLength 1 from rfl
  | [_, _] => show 1 = b64ByteLength 2 from rfl
  | [_, _, _] => show 2 = b64ByteLength 3 from rfl
  | _ :: _ :: _ :: _ :: v => by
    change (b64Bytes v).length + 3 = b64ByteLength (v.length + 4)
    rw [b64Bytes_length v, b64ByteLength, b64ByteLength, Nat.add_div_right _ (by decide), Nat.add_mod_right]
    omega

/-- Byte `i` of group `g`, where the indices give one. -/
theorem b64Bytes_getElem? : ∀ (v : List Nat) {g i : Nat}, (∀ k ∈ v, k < 64) → 3 * g + i < (b64Bytes v).length → i < 3 →
    (b64Bytes v)[3 * g + i]? = some (BitVec.ofNat 8 (joinedSextets (v.getD (4 * g) 0) (v.getD (4 * g + 1) 0)
      (v.getD (4 * g + 2) 0) (v.getD (4 * g + 3) 0) / 256 ^ (2 - i)))
  | [], _, _, _, h, _ => absurd h (Nat.not_lt_zero _)
  | [v0], g, i, hv, h, hi => by
    have hlen : 3 * g + i < 1 := h
    obtain ⟨rfl, rfl⟩ : g = 0 ∧ i = 0 := by omega
    obtain ⟨h0, _⟩ := List.forall_mem_cons.1 hv
    exact b64Bytes3_getElem? h0 (Nat.zero_lt_succ 63) (Nat.zero_lt_succ 63) (Nat.zero_lt_succ 63) hi
  | [v0, v1], g, i, hv, h, hi => by
    have hlen : 3 * g + i < 1 := h
    obtain ⟨rfl, rfl⟩ : g = 0 ∧ i = 0 := by omega
    simp only [List.forall_mem_cons] at hv
    obtain ⟨h0, h1, _⟩ := hv
    exact b64Bytes3_getElem? h0 h1 (Nat.zero_lt_succ 63) (Nat.zero_lt_succ 63) hi
  | [v0, v1, v2], g, i, hv, h, hi => by
    have hlen : 3 * g + i < 2 := h
    obtain rfl : g = 0 := by omega
    simp only [List.forall_mem_cons] at hv
    obtain ⟨h0, h1, h2, _⟩ := hv
    rw [Nat.mul_zero, Nat.zero_add] at hlen ⊢
    rw [b64Bytes, List.getElem?_take_of_lt hlen]
    exact b64Bytes3_getElem? h0 h1 h2 (Nat.zero_lt_succ 63) hi
  | v0 :: v1 :: v2 :: v3 :: v, 0, i, hv, _, hi => by
    simp only [List.forall_mem_cons] at hv
    obtain ⟨h0, h1, h2, h3, _⟩ := hv
    rw [Nat.mul_zero, Nat.zero_add, b64Bytes, List.getElem?_append_left hi]
    exact b64Bytes3_getElem? h0 h1 h2 h3 hi
  | v0 :: v1 :: v2 :: v3 :: v, g + 1, i, hv, h, hi => by
    simp only [List.forall_mem_cons] at hv
    obtain ⟨_, _, _, _, hv⟩ := hv
    have hidx : 3 * (g + 1) + i = 3 * g + i + 3 := by omega
    rw [hidx] at h ⊢
    exact b64Bytes_getElem? v hv (Nat.lt_of_add_lt_add_right h) hi

theorem isB64Bytes_b64Bytes {v : List Nat} (h : ∀ k ∈ v, k < 64) : IsB64Bytes v (b64Bytes v) :=
  ⟨b64Bytes_length v, fun _ _ => b64Bytes_getElem? v h⟩

/-! ### B64DEC -/

section
variable {s : State} {t0 t : List Byte} (hin : InseqIs s t0) (ht : t = t0.filter (fun c => c != 0x3D))
include hin ht

theorem bodyOf_b64dec_badChar (h : ∃ c ∈ t, ∀ v, ¬ IsB64Char c v) : bodyOf .b64dec s = .error (.cause .badChar) := by
  rw [bodyOf, b64decBody, readInseq_of_inseqIs hin, ok_bind, ← ht]
  dsimp only
  rw [indicesOf_fromUrlSafe_none h, orRaise_none, error_bind]

/-- B64DEC on a text over the alphabets, from the check of its last group on. -/
theorem bodyOf_b64dec_indices {v : List Nat} (hv : List.Forall₂ IsB64Char t v) : bodyOf .b64dec s = (do
    raiseIf (v.length % 4 = 1 ∧ s.cfg.b64Tail1 = .reject) .b64Tail
    emit (b64Bytes v) s) := by
  rw [bodyOf, b64decBody, readInseq_of_inseqIs hin, ok_bind, ← ht]
  dsimp only
  rw [indicesOf_fromUrlSafe_some hv, orRaise_some, ok_bind]

end

/-- Settles O40: the two checks in the pseudocode's order, and the bytes of the groups' 24 bits. -/
theorem b64decReadsBase64 : Obligations.B64decReadsBase64 := by
  refine ⟨by decide, fun s hl => ⟨fun h => fails_of_body (c := .inLength) (readInseq_bind_error h), fun t0 t hin ht =>
    ⟨fun h => fails_of_body (c := .badChar) (bodyOf_b64dec_badChar hin ht h), fun v hv => ?_⟩⟩⟩
  have hbody := bodyOf_b64dec_indices hin ht hv
  refine ⟨fun h1 hp => fails_of_body (c := .b64Tail) ?_, fun h =>
    ⟨b64Bytes v, isB64Bytes_b64Bytes (isB64Char_lt_of_forall₂ hv), yields_of_body hl ?_⟩⟩
  · rw [hbody, raiseIf_true _ ⟨h1, hp⟩, error_bind]
  · rw [hbody, raiseIf_false _ h, ok_bind]

end Sys2Proof.Machine
end

section
/-! PROOFS. The round trips of the Base64 unit (43_base64.md R144). -/

namespace Sys2Proof.Machine

open Sys2Proof.Claims

/-! ### The bytes of the values of given bytes -/

theorem b64Bytes3_groupSextets (x0 x1 x2 : Byte) :
    b64Bytes3 (groupValue x0 x1 x2 / 2 ^ 18 % 64) (groupValue x0 x1 x2 / 2 ^ 12 % 64) (groupValue x0 x1 x2 / 2 ^ 6 % 64)
      (groupValue x0 x1 x2 % 64) = [x0, x1, x2] := by
  have hx0 := x0.isLt
  have hx1 := x1.isLt
  have hx2 := x2.isLt
  have hmod (n : Nat) : n % 64 < 64 := Nat.mod_lt n (by decide)
  have hbyte {n : Nat} {x : Byte} (h : n % 256 = x.toNat) : BitVec.ofNat 8 n = x := BitVec.eq_of_toNat_eq h
  have hjoin : joinedSextets (groupValue x0 x1 x2 / 2 ^ 18 % 64) (groupValue x0 x1 x2 / 2 ^ 12 % 64)
      (groupValue x0 x1 x2 / 2 ^ 6 % 64) (groupValue x0 x1 x2 % 64) = groupValue x0 x1 x2 := by
    simp only [joinedSextets, groupValue]
    omega
  rw [b64Bytes3_eq (hmod _) (hmod _) (hmod _) (hmod _), hjoin, groupValue, hbyte (x := x0) (by omega),
    hbyte (x := x1) (by omega), hbyte (x := x2) (by omega)]

/-- The value left out for a missing byte is 0, the value of an absent character. -/
theorem groupSextets_low_eq_zero (x0 x1 : Byte) :
    groupValue x0 x1 0 % 64 = 0 ∧ groupValue x0 0 0 / 2 ^ 6 % 64 = 0 := by
  simp only [groupValue, show (0 : Byte).toNat = 0 from rfl]
  omega

theorem b64Bytes_sextets : ∀ b : List Byte, b64Bytes (sextets b) = b
  | [] => rfl
  | [x0] => by
    have h := b64Bytes3_groupSextets x0 0 0
    rw [(groupSextets_low_eq_zero x0 0).1, (groupSextets_low_eq_zero x0 0).2] at h
    exact congrArg (List.take 1) h
  | [x0, x1] => by
    have h := b64Bytes3_groupSextets x0 x1 0
    rw [(groupSextets_low_eq_zero x0 x1).1] at h
    exact congrArg (List.take 2) h
  | x0 :: x1 :: x2 :: rest => congrArg₂ List.append (b64Bytes3_groupSextets x0 x1 x2) (b64Bytes_sextets rest)

/-! ### What B64DEC makes of an encoder's text -/

theorem isB64Char_ne_pad {c : Byte} {v : Nat} (h : IsB64Char c v) : c ≠ 0x3D := by
  obtain ⟨hv, rfl | rfl⟩ := h
  · revert v
    decide
  · obtain ⟨_, _, hpad⟩ := b64Char_urlSafe_ne hv
    exact hpad

theorem ne_pad_of_forall₂ {t : List Byte} {v : List Nat} (h : List.Forall₂ IsB64Char t v) : ∀ c ∈ t, c ≠ 0x3D := by
  induction h with
  | nil => nofun
  | cons hc _ ih => exact List.forall_mem_cons.2 ⟨isB64Char_ne_pad hc, ih⟩

theorem filter_pad_of_forall₂ {t : List Byte} {v : List Nat} (h : List.Forall₂ IsB64Char t v) :
    t.filter (fun c => c != 0x3D) = t :=
  List.filter_eq_self.2 fun c hc => bne_iff_ne.2 (ne_pad_of_forall₂ h c hc)

/-- A text that spells the values of any bytes, in characters of either alphabet, decodes to the bytes: it is never 1 mod 4
long. -/
theorem bodyOf_b64dec_sextets {u : State} {b x : List Byte} (hin : InseqIs u x)
    (hx : List.Forall₂ IsB64Char x (sextets b)) : bodyOf .b64dec u = emit b u := by
  have htail : (sextets b).length % 4 ≠ 1 := by
    rw [sextets_length, b64TextLength]
    split <;> omega
  rw [bodyOf_b64dec_indices hin (filter_pad_of_forall₂ hx).symm hx, raiseIf_false _ fun h => htail h.1, ok_bind,
    b64Bytes_sextets]

theorem forall₂_map_sextets {f : Nat → Byte} (h : ∀ v < 64, IsB64Char (f v) v) (b : List Byte) :
    List.Forall₂ IsB64Char ((sextets b).map f) (sextets b) :=
  List.forall₂_map_left_iff.2 (List.forall₂_same.2 fun v hv => h v (sextets_lt b hv))

/-- Both encoders write the values of the input in characters of one alphabet. -/
theorem bodyOf_b64Encoder {i : Instr} {s : State} {b : List Byte} (hi : i = .b64enc ∨ i = .b64uenc) (hin : InseqIs s b) :
    ∃ x, bodyOf i s = emit x s ∧ List.Forall₂ IsB64Char x (sextets b) := by
  rcases hi with rfl | rfl
  · exact ⟨_, bodyOf_b64enc hin, forall₂_map_sextets (fun _ hv => ⟨hv, .inl rfl⟩) b⟩
  · exact ⟨_, bodyOf_b64uenc hin, forall₂_map_sextets (fun _ hv => ⟨hv, .inr rfl⟩) b⟩

/-- Settles O41: the host's copy of either text is an input that spells the values of the bytes. -/
theorem base64RoundTrips : Obligations.Base64RoundTrips := by
  intro s t u b i hl hin hcap hi hx hst hu
  obtain ⟨x, hbody, hchars⟩ := bodyOf_b64Encoder hi hin
  have he : statusErr t.status = 0 := by
    rw [hst]
    rcases hi with rfl | rfl <;> decide
  obtain ⟨hin', hcfg⟩ := inseqIs_of_emitted hl hbody hx he hu
  rw [← hcfg] at hl hcap
  exact (yields_of_body hl (bodyOf_b64dec_sextets hin' hchars)).2 hcap

end Sys2Proof.Machine
end

section
/-! PROOFS. TO5 and FROM5: the groups of bits of a number, and the regrouping loop's result as such groups (44_bech32.md R155,
R156). -/

namespace Sys2Proof.Machine

open Sys2Proof.Claims

/-! ### The groups of bits of a number -/

/-- The `n` lowest groups of `w` bits of `N`, most significant group first. -/
def bitGroups (w n N : Nat) : List Byte := (List.range n).map fun i => BitVec.ofNat 8 (N / 2 ^ (w * (n - 1 - i)) % 2 ^ w)

@[simp] theorem bitGroups_length (w n N : Nat) : (bitGroups w n N).length = n := by simp [bitGroups]

theorem bitGroups_getElem? {n i : Nat} (w N : Nat) (h : i < n) :
    (bitGroups w n N)[i]? = some (BitVec.ofNat 8 (N / 2 ^ (w * (n - 1 - i)) % 2 ^ w)) := by simp [bitGroups, h]

/-- The last group is the low `w` bits, and the groups before it are those of the bits above. -/
theorem bitGroups_succ (w n N : Nat) :
    bitGroups w (n + 1) N = bitGroups w n (N / 2 ^ w) ++ [BitVec.ofNat 8 (N % 2 ^ w)] := by
  have hinit : ∀ i ∈ List.range n, BitVec.ofNat 8 (N / 2 ^ (w * (n + 1 - 1 - i)) % 2 ^ w)
      = BitVec.ofNat 8 (N / 2 ^ w / 2 ^ (w * (n - 1 - i)) % 2 ^ w) := fun i hi => by
    have hi := List.mem_range.1 hi
    rw [Nat.div_div_eq_div_mul, ← Nat.pow_add, show n + 1 - 1 - i = 1 + (n - 1 - i) by omega, Nat.mul_add, Nat.mul_one]
  rw [bitGroups, List.range_succ, List.map_append, List.map_congr_left hinit, List.map_singleton, Nat.add_sub_cancel,
    Nat.sub_self, Nat.mul_zero, Nat.pow_zero, Nat.div_one, bitGroups]

section
variable {w : Nat} (hw8 : w ≤ 8)
include hw8

theorem ofNat_mod_two_pow_toNat (N : Nat) : (BitVec.ofNat 8 (N % 2 ^ w)).toNat = N % 2 ^ w :=
  Nat.mod_eq_of_lt ((Nat.mod_lt N (Nat.two_pow_pos w)).trans_le (Nat.pow_le_pow_right (by decide) hw8))

theorem bitGroups_lt {n N : Nat} {x : Byte} (h : x ∈ bitGroups w n N) : x.toNat < 2 ^ w := by
  obtain ⟨i, _, rfl⟩ := List.mem_map.1 h
  rw [ofNat_mod_two_pow_toNat hw8]
  exact Nat.mod_lt _ (Nat.two_pow_pos w)

/-- The groups spell the low `w * n` bits. -/
theorem digitsNumber_bitGroups (n N : Nat) : digitsNumber w (bitGroups w n N) = N % 2 ^ (w * n) := by
  induction n generalizing N with
  | zero => exact (Nat.mod_one N).symm
  | succ n ih =>
    have hsnoc (l : List Byte) (x : Byte) : digitsNumber w (l ++ [x]) = x.toNat + 2 ^ w * digitsNumber w l := by
      rw [digitsNumber, List.reverse_concat, List.map_cons, Nat.ofDigits_cons, digitsNumber]
    rw [bitGroups_succ, hsnoc, ih, ofNat_mod_two_pow_toNat hw8, Nat.mul_succ, Nat.pow_add, Nat.mul_comm (2 ^ (w * n)),
      Nat.mod_mul]

end

/-- Values of `w` bits are determined by how many they are and the number they spell. -/
theorem digitsNumber_inj {w : Nat} (hw : 0 < w) {l m : List Byte} (hlen : l.length = m.length)
    (hl : ∀ x ∈ l, x.toNat < 2 ^ w) (hm : ∀ x ∈ m, x.toNat < 2 ^ w) (h : digitsNumber w l = digitsNumber w m) : l = m := by
  have hdigits {k : List Byte} (hk : ∀ x ∈ k, x.toNat < 2 ^ w) : ∀ v ∈ k.reverse.map BitVec.toNat, v < 2 ^ w := fun v hv => by
    obtain ⟨x, hx, rfl⟩ := List.mem_map.1 hv
    exact hk x (List.mem_reverse.1 hx)
  have hmap := Nat.ofDigits_inj_of_len_eq (Nat.one_lt_two_pow hw.ne') (by simpa using hlen) (hdigits hl) (hdigits hm) h
  exact List.reverse_injective (List.map_injective_iff.2 (fun _ _ => BitVec.eq_of_toNat_eq) hmap)

/-- Values of `w` bits are the groups of the number they spell. -/
theorem bitGroups_digitsNumber {w : Nat} (hw : 0 < w) (hw8 : w ≤ 8) {l : List Byte} (hl : ∀ x ∈ l, x.toNat < 2 ^ w) :
    bitGroups w l.length (digitsNumber w l) = l := by
  refine digitsNumber_inj hw (bitGroups_length ..) (fun _ => bitGroups_lt hw8) hl ?_
  rw [digitsNumber_bitGroups hw8, Nat.mod_eq_of_lt (digitsNumber_lt w hw l hl)]

/-! ### The regrouping loop -/

/-- The loop cuts whole groups off the top of the values' bits and leaves the rest. -/
theorem regroup_eq {v w : Nat} (hv : 0 < v) (hw : 0 < w) {l : List Byte} (hl : ∀ x ∈ l, x.toNat < 2 ^ v) :
    regroup v w 0 0 l = (bitGroups w (v * l.length / w) (digitsNumber v l / 2 ^ (v * l.length % w)), digitsNumber v l,
      v * l.length % w) := by
  obtain ⟨hacc, hbits, hlen, hget⟩ := regroup_spec v w hv hw l 0 0 hl hw
  simp only [Nat.zero_mul, Nat.zero_add] at hacc hbits hlen hget
  refine Prod.ext (List.ext_getElem? fun i => ?_) (Prod.ext hacc hbits)
  by_cases hi : i < v * l.length / w
  · have hsplit := Nat.div_add_mod (v * l.length) w
    have hexp : v * l.length - w * (i + 1) = v * l.length % w + w * (v * l.length / w - 1 - i) := by
      obtain ⟨j, hj⟩ := Nat.exists_eq_add_of_lt hi
      rw [show v * l.length / w - 1 - i = j by omega]
      rw [hj, show i + j + 1 = i + 1 + j by omega, Nat.mul_add] at hsplit
      omega
    rw [hget i hi, bitGroups_getElem? w _ hi, Nat.div_div_eq_div_mul, ← Nat.pow_add, hexp]
  · rw [List.getElem?_eq_none (by omega), List.getElem?_eq_none (by rw [bitGroups_length]; omega)]

/-! ### TO5 -/

/-- The number of 5-bit values of `n` bytes (R155). -/
def to5Length (n : Nat) : Nat := (8 * n + 4) / 5

/-- The 5-bit values of bytes: the groups of their bits, zero-filled at the end. -/
def to5Values (b : List Byte) : List Byte :=
  bitGroups 5 (to5Length b.length) (numberBE b * 2 ^ (5 * to5Length b.length - 8 * b.length))

@[simp] theorem to5Values_length (b : List Byte) : (to5Values b).length = to5Length b.length := bitGroups_length ..

theorem bodyOf_to5 {s : State} {b : List Byte} (h : InseqIs s b) : bodyOf .to5 s = emit (to5Values b) s := by
  rw [bodyOf, to5Body, readInseq_of_inseqIs h, ok_bind, regroup_eq (by decide) (by decide) fun x _ => x.isLt]
  refine congrArg (emit · s) ?_
  change bitGroups 5 _ (numberBE b / _) ++ (if _ then [BitVec.ofNat 8 ((numberBE b <<< _) % 2 ^ 5)] else []) = to5Values b
  rw [to5Values, to5Length]
  by_cases hr : 8 * b.length % 5 > 0
  · have hfill : 2 ^ 5 = 2 ^ (8 * b.length % 5) * 2 ^ (5 - 8 * b.length % 5) := by
      rw [← Nat.pow_add, Nat.add_sub_cancel' (Nat.mod_lt _ (by decide)).le]
    have hhigh : numberBE b * 2 ^ (5 - 8 * b.length % 5) / 2 ^ 5 = numberBE b / 2 ^ (8 * b.length % 5) := by
      rw [hfill, Nat.mul_div_mul_right _ _ (Nat.two_pow_pos _)]
    rw [if_pos hr, show (8 * b.length + 4) / 5 = 8 * b.length / 5 + 1 by omega, bitGroups_succ, Nat.shiftLeft_eq,
      show 5 * (8 * b.length / 5 + 1) - 8 * b.length = 5 - 8 * b.length % 5 by omega, hhigh]
  · rw [if_neg hr, List.append_nil, show (8 * b.length + 4) / 5 = 8 * b.length / 5 by omega,
      show 5 * (8 * b.length / 5) - 8 * b.length = 0 by omega, show 8 * b.length % 5 = 0 by omega, Nat.pow_zero,
      Nat.div_one, Nat.mul_one]

/-- Settles O45: the loop's whole groups and the filled last one are the groups of the bytes' number, shifted up by the fill. -/
theorem to5Regroups : Obligations.To5Regroups := by
  refine ⟨by decide, fun s hl => ⟨fun h => fails_of_body (c := .inLength) (readInseq_bind_error h), fun b hin => ?_⟩⟩
  refine ⟨to5Values b, to5Values_length b, fun i hi => ?_, yields_of_body hl (bodyOf_to5 hin)⟩
  rw [to5Values_length] at hi ⊢
  rw [to5Values, bitGroups_getElem? 5 _ hi, Nat.pow_mul]
  rfl

/-! ### FROM5 -/

/-- The bytes of 5-bit values: the whole groups of 8 of their bits (R156). -/
def from5Bytes (v : List Byte) : List Byte :=
  bitGroups 8 (5 * v.length / 8) (digitsNumber 5 v / 2 ^ (5 * v.length % 8))

theorem from5Bytes_length (v : List Byte) : (from5Bytes v).length = 5 * v.length / 8 := bitGroups_length ..

theorem from5Bytes_getElem? {v : List Byte} {i : Nat} (h : i < 5 * v.length / 8) :
    (from5Bytes v)[i]? = some (BitVec.ofNat 8 (digitsNumber 5 v / 2 ^ (5 * v.length - 8 * (i + 1)))) := by
  have hexp : 5 * v.length % 8 + 8 * (5 * v.length / 8 - 1 - i) = 5 * v.length - 8 * (i + 1) := by omega
  rw [from5Bytes, bitGroups_getElem? 8 _ h, Nat.div_div_eq_div_mul, ← Nat.pow_add, hexp]
  exact congrArg some (BitVec.eq_of_toNat_eq (Nat.mod_mod ..))

/-- A 5-bit value passes the check for DATA_VALUE. -/
theorem decide_gt_31_eq_false {x : Byte} (h : x.toNat ≤ 31) : decide (x > 31) = false :=
  decide_eq_false fun hgt => Nat.not_lt.2 h (BitVec.lt_def.1 hgt)

section
variable {s : State} {v : List Byte} (hin : InseqIs s v)
include hin

theorem bodyOf_from5_scan : bodyOf .from5 s =
    scanCells (refuse (fun x => x > 31) .dataValue) (v.map some) >>= fun v =>
      raiseIf ((regroup 5 8 0 0 v).2.2 ≥ 5) .bad5bitPadding >>= fun _ => emit (regroup 5 8 0 0 v).1 s := by
  rw [bodyOf, from5Body, needIn_of_inseqIs hin, ok_bind, scanIn, inCells_of_inseqIs hin]

theorem bodyOf_from5_dataValue (h : ∃ x ∈ v, 31 < x.toNat) : bodyOf .from5 s = .error (.cause .dataValue) := by
  have hbad : ∃ x ∈ v, decide (x > 31) = true := h.imp fun _ ⟨hx, hgt⟩ =>
    ⟨hx, decide_eq_true (BitVec.lt_def.2 hgt)⟩
  rw [bodyOf_from5_scan hin, scanCells_refuse_error hbad, error_bind]

/-- FROM5 on 5-bit values, from the check of the leftover bits on. -/
theorem bodyOf_from5_values (h : ∀ x ∈ v, x.toNat ≤ 31) : bodyOf .from5 s = (do
    raiseIf (5 * v.length % 8 ≥ 5) .bad5bitPadding
    emit (from5Bytes v) s) := by
  rw [bodyOf_from5_scan hin, scanCells_refuse_ok fun x hx => decide_gt_31_eq_false (h x hx), ok_bind,
    regroup_eq (by decide) (by decide) fun x hx => Nat.lt_succ_of_le (h x hx)]
  rfl

theorem bodyOf_from5_badPadding (h : ∀ x ∈ v, x.toNat ≤ 31) (hp : 5 ≤ 5 * v.length % 8) :
    bodyOf .from5 s = .error (.cause .bad5bitPadding) := by
  rw [bodyOf_from5_values hin h, raiseIf_true _ hp, error_bind]

theorem bodyOf_from5 (h : ∀ x ∈ v, x.toNat ≤ 31) (hp : 5 * v.length % 8 < 5) :
    bodyOf .from5 s = emit (from5Bytes v) s := by
  rw [bodyOf_from5_values hin h, raiseIf_false _ (by omega), ok_bind]

end

/-- Settles O46: the scan, then the check of the bits left over, then the whole groups of 8 bits. -/
theorem from5Regroups : Obligations.From5Regroups := by
  refine ⟨by decide, fun s hl => ⟨fun h => fails_of_body (c := .inLength) (needIn_bind_error h), fun v hin => ⟨fun h => ?_,
    fun h => ⟨fun hp => ?_, fun hp => ⟨from5Bytes v, from5Bytes_length v, fun i hi => ?_, ?_⟩⟩⟩⟩⟩
  · exact fails_of_body (c := .dataValue) (bodyOf_from5_dataValue hin h)
  · exact fails_of_body (c := .bad5bitPadding) (bodyOf_from5_badPadding hin h hp)
  · exact from5Bytes_getElem? (from5Bytes_length v ▸ hi)
  · exact yields_of_body hl (bodyOf_from5 hin h hp)

end Sys2Proof.Machine
end

section
/-! PROOFS. The Bech32 checksum: the six appended values bring the residue to 1, for every generator table and initial value
(44_bech32.md R150-R152, R157 (a)). -/

namespace Sys2Proof.Machine

/-! ### One value into the accumulator (R150) -/

theorem foldl_ite_xor {n : Nat} (p : Nat → Bool) (g : Nat → BitVec n) (l : List Nat) (a b : BitVec n) :
    l.foldl (fun a i => if p i then a ^^^ g i else a) (a ^^^ b)
      = l.foldl (fun a i => if p i then a ^^^ g i else a) a ^^^ b := by
  induction l generalizing a with
  | nil => rfl
  | cons i l ih =>
    rw [List.foldl_cons, List.foldl_cons, ← ih]
    split
    · rw [BitVec.xor_assoc, BitVec.xor_comm b, ← BitVec.xor_assoc]
    · rfl

/-- Which generators are added depends on the top five bits alone. -/
theorem xorGenerators_xor (gen : List (BitVec 30)) (top a b : BitVec 30) :
    xorGenerators gen top (a ^^^ b) = xorGenerators gen top a ^^^ b := foldl_ite_xor _ _ _ a b

/-- The bits that the mask clears are those that the shift drops. -/
theorem and_low_shiftLeft (c : BitVec 30) : (c &&& 0x1FFFFFF) <<< 5 = c <<< 5 := by
  have hlow : (c &&& 0x1FFFFFF).toNat = c.toNat % 2 ^ 25 :=
    (BitVec.toNat_and ..).trans (Nat.and_two_pow_sub_one_eq_mod _ 25)
  apply BitVec.eq_of_toNat_eq
  rw [BitVec.toNat_shiftLeft, BitVec.toNat_shiftLeft, hlow, Nat.shiftLeft_eq, Nat.shiftLeft_eq]
  omega

theorem polymodStep_eq (gen : List (BitVec 30)) (c : BitVec 30) (v : Byte) :
    polymodStep gen c v = xorGenerators gen (c >>> 25) (c <<< 5 ^^^ v.setWidth 30) := by
  rw [polymodStep, and_low_shiftLeft]

/-! ### The groups of a word, appended -/

/-- The 5-bit group of `m` that starts at bit `5k`. -/
def groupAt (m : BitVec 30) (k : Nat) : Byte := (m.extractLsb' (5 * k) 5).setWidth 8

theorem groupAt_le (m : BitVec 30) (k : Nat) : (groupAt m k).toNat ≤ 31 := by
  have h := (m.extractLsb' (5 * k) 5).isLt
  rw [groupAt, BitVec.toNat_setWidth]
  omega

/-- A group follows the groups above it. -/
theorem ushiftRight_succ_shiftLeft_xor (m : BitVec 30) (k : Nat) :
    (m >>> (5 * (k + 1))) <<< 5 ^^^ (groupAt m k).setWidth 30 = m >>> (5 * k) := by
  ext i hi
  by_cases h : i < 5
  · simp [groupAt, h]
  · simp [groupAt, h, show 5 * (k + 1) + (i - 5) = 5 * k + i by omega]

/-- The groups of `m` taken so far stand below the accumulator's top five bits, so they bring in no generator. -/
theorem polymodStep_xor_groupAt (gen : List (BitVec 30)) (c m : BitVec 30) (k : Nat) :
    polymodStep gen (c ^^^ m >>> (5 * (k + 1))) (groupAt m k) = polymodStep gen c 0 ^^^ m >>> (5 * k) := by
  have htop : (c ^^^ m >>> (5 * (k + 1))) >>> 25 = c >>> 25 := by
    rw [BitVec.ushiftRight_xor_distrib, ← BitVec.shiftRight_add, BitVec.ushiftRight_eq_zero (x := m) (by omega),
      BitVec.xor_zero]
  have hzero : (0 : Byte).setWidth 30 = 0#30 := rfl
  rw [polymodStep_eq, polymodStep_eq, htop, hzero, BitVec.xor_zero, BitVec.shiftLeft_xor_distrib, BitVec.xor_assoc,
    ushiftRight_succ_shiftLeft_xor, xorGenerators_xor]

theorem foldl_polymodStep_groups (gen : List (BitVec 30)) (m : BitVec 30) (n : Nat) (c : BitVec 30) :
    ((List.range n).reverse.map (groupAt m)).foldl (polymodStep gen) (c ^^^ m >>> (5 * n))
      = (List.replicate n 0).foldl (polymodStep gen) c ^^^ m := by
  induction n generalizing c with
  | zero => rfl
  | succ n ih =>
    rw [List.range_succ, List.reverse_concat, List.map_cons, List.foldl_cons, polymodStep_xor_groupAt, ih]
    rfl

/-- Where six zeros leave a residue, the six groups of `m` leave that residue with `m` added. -/
theorem polymod_append_groups (c : Config) (vals : List Byte) (m : BitVec 30) :
    polymod c (vals ++ (List.range 6).reverse.map (groupAt m)) = polymod c (vals ++ List.replicate 6 0) ^^^ m := by
  rw [polymod, polymod, List.foldl_append, List.foldl_append, ← foldl_polymodStep_groups,
    BitVec.ushiftRight_eq_zero (by decide), BitVec.xor_zero]

/-! ### The checksum (R152) -/

theorem createChecksum_eq (c : Config) (h d : List Byte) : createChecksum c h d =
    (List.range 6).reverse.map (groupAt (polymod c (hrpExpand (lower h) ++ d ++ List.replicate 6 0) ^^^ 1)) := rfl

@[simp] theorem createChecksum_length (c : Config) (h d : List Byte) : (createChecksum c h d).length = 6 := rfl

theorem createChecksum_le {c : Config} {h d : List Byte} {x : Byte} (hx : x ∈ createChecksum c h d) : x.toNat ≤ 31 := by
  rw [createChecksum_eq] at hx
  obtain ⟨k, _, rfl⟩ := List.mem_map.1 hx
  exact groupAt_le _ k

theorem verifyChecksum_createChecksum (c : Config) (h d : List Byte) :
    verifyChecksum c h (d ++ createChecksum c h d) = true := by
  rw [verifyChecksum, beq_iff_eq, ← List.append_assoc, createChecksum_eq, polymod_append_groups, ← BitVec.xor_assoc,
    BitVec.xor_self, BitVec.zero_xor]

end Sys2Proof.Machine
end

section
/-! PROOFS. B32ENC and B32DEC on a valid prefix and 5-bit values: the alphabet, the prefix in lower case, the text of given
values, and the values of a given text (44_bech32.md R152-R154). -/

namespace Sys2Proof.Machine

open Sys2Proof.Claims

/-! ### The alphabet -/

theorem b32idx_b32Symbol {v : Byte} (h : v.toNat ≤ 31) : b32idx (b32Symbol v) = some v.toNat := by
  revert v
  decide

/-- No symbol is upper case, and none is the separator. -/
theorem b32Symbol_lower_ne {v : Byte} (h : v.toNat ≤ 31) :
    lowerByte (b32Symbol v) = b32Symbol v ∧ b32Symbol v ≠ 0x31 := by
  revert v
  decide

/-- The symbols of 5-bit values. -/
def b32Symbols (v : List Byte) : List Byte := v.map b32Symbol

@[simp] theorem b32Symbols_length (v : List Byte) : (b32Symbols v).length = v.length := List.length_map ..

section
variable {v : List Byte} (hv : ∀ x ∈ v, x.toNat ≤ 31)
include hv

theorem indicesOf_b32Symbols : indicesOf b32idx (b32Symbols v) = some (v.map BitVec.toNat) :=
  indicesOf_some (List.forall₂_map_left_iff.2 (List.forall₂_map_right_iff.2
    (List.forall₂_same.2 fun x hx => b32idx_b32Symbol (hv x hx))))

theorem lower_b32Symbols : lower (b32Symbols v) = b32Symbols v := by
  rw [lower, b32Symbols, List.map_map]
  exact List.map_congr_left fun x hx => (b32Symbol_lower_ne (hv x hx)).1

theorem not_mem_b32Symbols : 0x31 ∉ b32Symbols v := fun h => by
  obtain ⟨x, hx, heq⟩ := List.mem_map.1 h
  exact (b32Symbol_lower_ne (hv x hx)).2 heq

end

/-! ### The prefix -/

theorem hrpCharBad_eq_false_iff {x : Byte} : hrpCharBad x = false ↔ PrefixByte x := by
  simp only [hrpCharBad, PrefixByte, Bool.or_eq_false_iff, decide_eq_false_iff_not, beq_eq_false_iff_ne, ne_eq,
    BitVec.not_lt, and_assoc]
  rfl

theorem hrpCharBad_lowerByte {x : Byte} (h : hrpCharBad x = false) : hrpCharBad (lowerByte x) = false := by
  revert x
  decide

theorem lowerByte_lowerByte (x : Byte) : lowerByte (lowerByte x) = lowerByte x := by
  revert x
  decide

theorem lower_lower (h : List Byte) : lower (lower h) = lower h := by
  rw [lower, lower, List.map_map]
  exact List.map_congr_left fun x _ => lowerByte_lowerByte x

/-- A checksum speaks of the prefix in lower case. -/
theorem verifyChecksum_lower (c : Config) (h v : List Byte) : verifyChecksum c (lower h) v = verifyChecksum c h v := by
  rw [verifyChecksum, lower_lower, verifyChecksum]

/-! ### B32ENC -/

/-- The text of a prefix and values (R153). -/
def b32Text (c : Config) (h d : List Byte) : List Byte := lower h ++ 0x31 :: b32Symbols (d ++ createChecksum c h d)

theorem bodyOf_b32enc {s : State} {h d : List Byte} (hin : InseqIs s (h ++ d)) (harg : s.arg0.toNat = h.length)
    (h1 : 1 ≤ h.length) (h83 : h.length ≤ 83) (hh : ∀ x ∈ h, PrefixByte x) (hd : ∀ x ∈ d, x.toNat ≤ 31) :
    bodyOf .b32enc s = emit (b32Text s.cfg h d) s := by
  have hlen : s.inLen.toNat = h.length + d.length := hin.1.trans List.length_append
  have hpre : inCells s 0 h.length = h.map some := by
    rw [inCells_slice hin _ _ (by simp), List.drop_zero, List.take_left]
  have hdata : inCells s h.length d.length = d.map some := by
    rw [inCells_slice hin _ _ (by simp), List.drop_left, List.take_length]
  rw [bodyOf, b32encBody, needIn_of_inseqIs hin, ok_bind]
  dsimp only
  rw [harg, hlen, raiseIf_false _ (by omega), ok_bind, raiseIf_false _ (by omega), ok_bind, Nat.add_sub_cancel_left,
    scanIn, hpre, scanCells_refuse_ok fun x hx => hrpCharBad_eq_false_iff.2 (hh x hx), ok_bind, scanIn, hdata,
    scanCells_refuse_ok fun x hx => decide_gt_31_eq_false (hd x hx), ok_bind, b32Text, b32Symbols,
    List.map_append, List.append_assoc, List.append_assoc]
  rfl

/-! ### B32DEC -/

/-- B32DEC on a valid prefix and the symbols of values that end in the prefix's checksum. -/
theorem bodyOf_b32dec {s : State} {h v : List Byte} (hin : InseqIs s (h ++ 0x31 :: b32Symbols v)) (h1 : 1 ≤ h.length)
    (h83 : h.length ≤ 83) (hh : ∀ x ∈ h, hrpCharBad x = false) (hv : ∀ x ∈ v, x.toNat ≤ 31) (h6 : 6 ≤ v.length)
    (hsum : verifyChecksum s.cfg h v = true) : bodyOf .b32dec s =
      emit (lower h ++ v.take (v.length - 6)) s >>= fun t => pure (t.setOutSplit (BitVec.ofNat 32 h.length)) := by
  have hany : ¬ h.any hrpCharBad = true := by simpa using hh
  have hdrop : (h ++ 0x31 :: b32Symbols v).drop (h.length + 1) = b32Symbols v := by
    rw [← List.drop_drop, List.drop_left]
    rfl
  have hcase : (if s.cfg.bech32DataCase = .fold then lower (b32Symbols v) else b32Symbols v) = b32Symbols v := by
    rw [lower_b32Symbols hv, ite_self]
  have hvals : (v.map BitVec.toNat).map (BitVec.ofNat 8) = v := by
    simp [Function.comp_def]
  rw [bodyOf, b32decBody, readInseq_of_inseqIs hin, ok_bind, lastIndexOf_append_cons (not_mem_b32Symbols hv), orRaise_some,
    ok_bind, List.take_left, hdrop]
  dsimp only
  rw [raiseIf_false _ (by omega), ok_bind, raiseIf_false _ hany, ok_bind, raiseIf_false _ (by rw [b32Symbols_length]; omega),
    ok_bind, hcase, indicesOf_b32Symbols hv, orRaise_some, ok_bind, hvals, hsum, raiseIf_false _ (by decide), ok_bind]

/-- A command whose pseudocode ends in an emission that fits and a write of OUT_SPLIT. -/
theorem completes_emit_outSplit {i : Instr} {s : State} {b : List Byte} {n : Word} (hl : s.cfg.Legal)
    (hbody : bodyOf i s = emit b s >>= fun t => pure (t.setOutSplit n)) (hb : b.length ≤ s.cfg.outCap) :
    Completes i s i.opcode.toNat (EmitsWith b n s.buf s) := by
  have hcap := Config.Legal.outCap_lt hl
  rw [emit_ok hb, ok_bind, pure_eq_ok] at hbody
  exact completes_of_body hbody ⟨outIs_setOut s (by omega), fun _ => lookup_setOut_above s (BitVec.ofNat 32 b.length),
    rfl, rfl, rfl⟩

end Sys2Proof.Machine
end

section
/-! PROOFS. The round trips of the Bech32 unit (44_bech32.md R157). -/

namespace Sys2Proof.Machine

open Sys2Proof.Claims

/-- An emission that succeeded fitted OUT, and OUT holds it. -/
theorem outIs_of_emitted {i : Instr} {s t : State} {b : List Byte} (hl : s.cfg.Legal) (hb : bodyOf i s = emit b s)
    (hx : exec i s = .next t) (he : statusErr t.status = 0) : b.length ≤ s.cfg.outCap ∧ OutIs t b := by
  obtain ⟨v, hv, rfl⟩ := exec_of_statusErr_zero hx he
  obtain ⟨hfit, rfl⟩ := emit_eq_ok (hb.symm.trans hv)
  have hcap := Config.Legal.outCap_lt hl
  exact ⟨hfit, outIs_setOut s (by omega)⟩

/-! ### B32DEC on the text of B32ENC -/

theorem bodyOf_b32dec_b32Text {u : State} {h d : List Byte} (hin : InseqIs u (b32Text u.cfg h d)) (h1 : 1 ≤ h.length)
    (h83 : h.length ≤ 83) (hh : ∀ x ∈ h, PrefixByte x) (hd : ∀ x ∈ d, x.toNat ≤ 31) : bodyOf .b32dec u =
      emit (lower h ++ d) u >>= fun t => pure (t.setOutSplit (BitVec.ofNat 32 h.length)) := by
  have hh' : ∀ x ∈ lower h, hrpCharBad x = false := fun x hx => by
    obtain ⟨y, hy, rfl⟩ := List.mem_map.1 hx
    exact hrpCharBad_lowerByte (hrpCharBad_eq_false_iff.2 (hh y hy))
  have hv : ∀ x ∈ d ++ createChecksum u.cfg h d, x.toNat ≤ 31 := fun x hx =>
    (List.mem_append.1 hx).elim (hd x) createChecksum_le
  have hsum : verifyChecksum u.cfg (lower h) (d ++ createChecksum u.cfg h d) = true := by
    rw [verifyChecksum_lower, verifyChecksum_createChecksum]
  have hdata : (d ++ createChecksum u.cfg h d).take ((d ++ createChecksum u.cfg h d).length - 6) = d := by
    rw [List.length_append, createChecksum_length, Nat.add_sub_cancel, List.take_left]
  rw [bodyOf_b32dec hin (by rwa [lower_length]) (by rwa [lower_length]) hh' hv (by simp) hsum, hdata, lower_lower,
    lower_length]

theorem b32Text_length (c : Config) (h d : List Byte) : (b32Text c h d).length = h.length + d.length + 7 := by
  simp only [b32Text, List.length_append, List.length_cons, lower_length, b32Symbols_length, createChecksum_length]
  omega

/-! ### FROM5 and TO5 on each other's values -/

/-- The zero fill of the last group (R155). -/
theorem to5Length_fill (n : Nat) : 8 * n ≤ 5 * to5Length n ∧ 5 * to5Length n < 8 * n + 5 := by
  unfold to5Length
  omega

/-- The bits left over from the values are the fill. -/
theorem to5Length_leftover (n : Nat) : 5 * to5Length n % 8 = 5 * to5Length n - 8 * n := by
  have hfill := to5Length_fill n
  omega

/-- The values spell the bytes' number and the fill. -/
theorem digitsNumber_to5Values (b : List Byte) :
    digitsNumber 5 (to5Values b) = numberBE b * 2 ^ (5 * to5Length b.length - 8 * b.length) := by
  have hlt : numberBE b < 2 ^ (8 * b.length) := (numberBE_lt b).trans_eq (Nat.pow_mul 2 8 b.length).symm
  rw [to5Values, digitsNumber_bitGroups (by decide), Nat.mod_eq_of_lt]
  calc numberBE b * 2 ^ (5 * to5Length b.length - 8 * b.length)
      < 2 ^ (8 * b.length) * 2 ^ (5 * to5Length b.length - 8 * b.length) :=
        Nat.mul_lt_mul_of_pos_right hlt (Nat.two_pow_pos _)
    _ = 2 ^ (5 * to5Length b.length) := by rw [← Nat.pow_add, Nat.add_sub_cancel' (to5Length_fill b.length).1]

theorem from5Bytes_to5Values (b : List Byte) : from5Bytes (to5Values b) = b := by
  obtain ⟨hle, hlt⟩ := to5Length_fill b.length
  rw [from5Bytes, digitsNumber_to5Values, to5Values_length, to5Length_leftover,
    show 5 * to5Length b.length / 8 = b.length by omega, Nat.mul_div_cancel _ (Nat.two_pow_pos _)]
  exact bitGroups_digitsNumber (w := 8) (by decide) le_rfl fun x _ => x.isLt

theorem bodyOf_from5_to5Values {u : State} {b : List Byte} (hin : InseqIs u (to5Values b)) : bodyOf .from5 u = emit b u := by
  obtain ⟨hle, hlt⟩ := to5Length_fill b.length
  have hvals : ∀ x ∈ to5Values b, x.toNat ≤ 31 := fun _ hx => Nat.le_of_lt_succ (bitGroups_lt (w := 5) (by decide) hx)
  rw [bodyOf_from5 hin hvals (by rw [to5Values_length, to5Length_leftover]; omega), from5Bytes_to5Values]

/-! ### The round trips -/

/-- Settles O47: the host's copy is the next command's input, and there the next command undoes the last. -/
theorem bech32RoundTrips : Obligations.Bech32RoundTrips := by
  refine ⟨fun s t u h d hl hin harg h1 h83 hh hd hx hst hu => ?_, fun s t u b hl hin hx hst hu => ?_⟩
  · have hbody := bodyOf_b32enc hin harg h1 h83 hh hd
    have he : statusErr t.status = 0 := hst ▸ by decide
    obtain ⟨hfit, _⟩ := outIs_of_emitted hl hbody hx he
    obtain ⟨hin', hcfg⟩ := inseqIs_of_emitted hl hbody hx he hu
    rw [b32Text_length] at hfit
    rw [← hcfg] at hl hfit hin'
    refine ⟨BitVec.ofNat 32 h.length, Nat.mod_eq_of_lt (by omega), ?_⟩
    exact completes_emit_outSplit hl (bodyOf_b32dec_b32Text hin' h1 h83 hh hd) (by simp; omega)
  · have hbody := bodyOf_to5 hin
    have he : statusErr t.status = 0 := hst ▸ by decide
    obtain ⟨hfit, hout⟩ := outIs_of_emitted hl hbody hx he
    obtain ⟨hin', hcfg⟩ := inseqIs_of_emitted hl hbody hx he hu
    have hlen : b.length ≤ s.cfg.outCap := by
      have hfill := (to5Length_fill b.length).1
      rw [to5Values_length] at hfit
      omega
    rw [← hcfg] at hl hfit hlen
    have hfrom : Completes .from5 u 0x33 (Emits b u) := (yields_of_body hl (bodyOf_from5_to5Values hin')).2 hlen
    refine ⟨hfrom, fun w v hw hv => ⟨to5Values b, hout, ?_⟩⟩
    obtain ⟨w', hw', hcopy⟩ := copy_of_emits hfrom
    obtain rfl := Host.Outcome.next.inj (hw'.symm.trans hw)
    obtain ⟨hin'', hcfg'⟩ := hcopy v hv
    rw [← hcfg'] at hl hfit
    exact (yields_of_body hl (bodyOf_to5 hin'')).2 hfit

end Sys2Proof.Machine
end

section
/-! PROOFS. The life cycle of the Byte Buffer and its byte cursor (45_byte_buffer.md R173-R178). -/

namespace Sys2Proof.Machine

open Sys2Proof.Claims

/-! ### The parts of the invariant that the unit needs -/

theorem Config.Legal.bbMaxCap_le {c : Config} (h : c.Legal) : c.bbMaxCap ≤ 2 ^ 28 := by
  have ⟨_, _, ⟨_, hmax⟩, _⟩ := h
  exact hmax

section
variable {s : State} (h : s.Inv)
include h

theorem State.Inv.legal : s.cfg.Legal := by
  obtain ⟨hl, _⟩ := h
  exact hl

theorem State.Inv.bbMaxCap_le : s.cfg.bbMaxCap ≤ 2 ^ 28 := Config.Legal.bbMaxCap_le h.legal

theorem State.Inv.buf_inv : s.buf.Inv s.cfg.bbMaxCap := by
  obtain ⟨_, _, _, _, hb, _⟩ := h
  exact hb

theorem State.Inv.cap_le : s.buf.cap.toNat ≤ s.cfg.bbMaxCap := by
  obtain ⟨_, hcap, _⟩ := h.buf_inv
  exact hcap

end

/-! ### STORE as a sequence of bytes -/

theorem storeSlice_getElem? (m : Memory) (lo : Nat) {n k : Nat} (h : k < n) :
    (m.storeSlice lo n)[k]? = some (m.storeGet (lo + k)) := by
  rw [List.getElem?_eq_getElem (by simpa using h), Memory.storeSlice_getElem]

/-- Bytes that agree with STORE from `lo` on are a slice of it. -/
theorem eq_storeSlice {m : Memory} {lo : Nat} {l : List Byte}
    (h : ∀ k < l.length, l[k]? = some (m.storeGet (lo + k))) : l = m.storeSlice lo l.length := by
  refine List.ext_getElem? fun k => ?_
  by_cases hk : k < l.length
  · rw [h k hk, storeSlice_getElem? m lo hk]
  · rw [List.getElem?_eq_none (by omega), List.getElem?_eq_none (by rw [Memory.storeSlice_length]; omega)]

/-- An empty memory reads as zeros (R173). -/
theorem storeIs_zeros {b : Buffer} {n : Nat} (hs : b.store = []) (hc : b.cap.toNat = n) :
    StoreIs b (List.replicate n 0) := by
  refine ⟨by rw [hc, List.length_replicate], fun k hk => ?_⟩
  rw [List.length_replicate] at hk
  rw [hs, List.getElem?_replicate_of_lt hk]
  rfl

/-- Bytes written over an empty memory from index 0 are what it holds (R174). -/
theorem storeIs_bytes {b : Buffer} {l : List Byte} (hs : b.store = Memory.storePutRun [] 0 l)
    (hc : b.cap.toNat = l.length) : StoreIs b l := by
  refine ⟨hc, fun k hk => ?_⟩
  rw [hs, Memory.storeGet_storePutRun _ _ _ _ rfl, if_pos (by omega), Nat.sub_zero, List.getD_eq_getElem _ _ hk,
    List.getElem?_eq_getElem hk]

/-! ### BBNEW and BBCOPY -/

theorem bodyOf_bbnew_exhausted {s : State} (h : s.cfg.bbMaxCap < s.arg0.toNat) :
    bodyOf .bbnew s = .error (.cause .capacityExhausted) := by
  rw [bodyOf, bbnewBody]
  dsimp only
  rw [raiseIf_true _ h, error_bind]

theorem bodyOf_bbnew {s : State} (h : s.arg0.toNat ≤ s.cfg.bbMaxCap) :
    bodyOf .bbnew s = .ok (s.setBuf { Buffer.empty with cap := BitVec.ofNat 32 s.arg0.toNat }) := by
  rw [bodyOf, bbnewBody]
  dsimp only
  rw [raiseIf_false _ (by omega), ok_bind, pure_eq_ok]

theorem bodyOf_bbcopy_exhausted {s : State} (hin : s.inLen.toNat ≤ s.cfg.inCap) (h : s.cfg.bbMaxCap < s.inLen.toNat) :
    bodyOf .bbcopy s = .error (.cause .capacityExhausted) := by
  rw [bodyOf, bbcopyBody, needIn_ok hin, ok_bind, raiseIf_true _ h, error_bind]

theorem bodyOf_bbcopy {s : State} {b : List Byte} (hin : InseqIs s b) (h : b.length ≤ s.cfg.bbMaxCap) :
    bodyOf .bbcopy s = .ok (s.setBuf { Buffer.empty with store := Memory.storePutRun [] 0 b, cap := s.inLen }) := by
  rw [bodyOf, bbcopyBody, needIn_of_inseqIs hin, ok_bind, raiseIf_false _ (by rw [hin.1]; omega), ok_bind,
    readIn_of_inseqIs hin, ok_bind, pure_eq_ok]

theorem onlyBuffer_setBuf (op : Byte) (s : State) (b : Buffer) : OnlyBuffer s (commitCommand op (s.setBuf b)) :=
  ⟨rfl, rfl, rfl, rfl⟩

/-- Settles O48: each of the three commands replaces the buffer by the empty one with a new STORE. -/
theorem bufferConstruction : Obligations.BufferConstruction := by
  refine ⟨by decide, fun s hl => ⟨fun h => ?_, fun h => ?_, fun h => ?_, fun hin h => ?_, fun b hin h => ?_, ?_⟩⟩
  · exact fails_of_body (c := .capacityExhausted) (bodyOf_bbnew_exhausted h)
  · have hmax := Config.Legal.bbMaxCap_le hl
    have hcap : (BitVec.ofNat 32 s.arg0.toNat).toNat = s.arg0.toNat := Nat.mod_eq_of_lt (by omega)
    exact completes_of_body (bodyOf_bbnew h) ⟨onlyBuffer_setBuf .., storeIs_zeros rfl hcap, rfl, rfl, rfl⟩
  · exact fails_of_body (i := .bbcopy) (c := .inLength) (needIn_bind_error h)
  · exact fails_of_body (c := .capacityExhausted) (bodyOf_bbcopy_exhausted hin h)
  · exact completes_of_body (bodyOf_bbcopy hin h) ⟨onlyBuffer_setBuf .., storeIs_bytes rfl hin.1, rfl, rfl, rfl⟩
  · exact completes_of_body (i := .bbreset) rfl ⟨onlyBuffer_setBuf .., storeIs_zeros (n := 0) rfl rfl, rfl, rfl, rfl⟩

/-! ### BBGETPOS, BBSETPOS and BBTOOUT -/

theorem bodyOf_bbsetpos_range {s : State} (h : s.buf.cap.toNat < s.arg0.toNat) :
    bodyOf .bbsetpos s = .error (.cause .positionRange) := by
  rw [bodyOf, bbsetposBody]
  dsimp only
  rw [raiseIf_true _ h, error_bind]

theorem bodyOf_bbsetpos {s : State} (h : s.arg0.toNat ≤ s.buf.cap.toNat) :
    bodyOf .bbsetpos s = .ok (s.setBuf { s.buf with pos := BitVec.ofNat 32 s.arg0.toNat }) := by
  rw [bodyOf, bbsetposBody]
  dsimp only
  rw [raiseIf_false _ (by omega), ok_bind, pure_eq_ok]

/-- Settles O49: BBGETPOS and BBSETPOS move one register, and BBTOOUT is the emission of a slice of STORE. -/
theorem bufferCursor : Obligations.BufferCursor := by
  refine ⟨by decide, fun s hinv => ⟨⟨s.buf.pos.zeroExtend 64, BitVec.toNat_setWidth_of_le (by decide), ?_⟩, fun h => ?_,
    fun h => ⟨BitVec.ofNat 32 s.arg0.toNat, Nat.mod_eq_of_lt (h.trans_lt s.buf.cap.isLt), ?_⟩, fun l hlen hl => ?_⟩⟩
  · exact completes_of_body (i := .bbgetpos) rfl ⟨rfl, rfl, rfl, rfl, rfl⟩
  · exact fails_of_body (c := .positionRange) (bodyOf_bbsetpos_range h)
  · exact completes_of_body (bodyOf_bbsetpos h) ⟨onlyBuffer_setBuf .., rfl⟩
  · have hslice : l = s.buf.store.storeSlice 0 s.buf.pos.toNat := by
      rw [← hlen]
      exact eq_storeSlice fun k hk => by rw [Nat.zero_add, hl k hk]
    exact yields_of_body hinv.legal (by rw [hslice, bodyOf])

end Sys2Proof.Machine
end

section
/-! PROOFS. The reads of the Byte Buffer (45_byte_buffer.md R179-R186). -/

namespace Sys2Proof.Machine

open Sys2Proof.Claims

/-! ### Fixed-width reads -/

section
variable {n : Nat} {widen : List Byte → DWord} {s : State}

theorem readToRes_error (h : s.buf.cap.toNat < s.buf.pos.toNat + n) :
    readToRes n widen s = .error (.cause .readPastEnd) := by
  rw [readToRes, readN_error h, error_bind]

theorem readToRes_ok (h : s.buf.pos.toNat + n ≤ s.buf.cap.toNat) :
    readToRes n widen s = .ok ((s.setBuf { s.buf with pos := BitVec.ofNat 32 (s.buf.pos.toNat + n) }).setRes
      (widen (s.buf.store.storeSlice s.buf.pos.toNat n))) := by
  rw [readToRes, readN_ok h, ok_bind]
  rfl

end

/-- A command whose pseudocode is `ReadN(n)` and RES from the number that the bytes spell. -/
theorem readsFixed_of_body {i : Instr} {n : Nat} {widen : List Byte → DWord} {res : Nat → DWord}
    (hi : encode i = BitVec.ofNat 32 i.opcode.toNat) (hbody : ∀ s, bodyOf i s = readToRes n widen s)
    (hres : ∀ b, b.length = n → widen b = res (numberBE b)) : ReadsFixed i i.opcode.toNat n res := by
  refine ⟨hi, fun s _ => ⟨fun h => ?_, fun h => ⟨BitVec.ofNat 32 (s.buf.pos.toNat + n),
    Nat.mod_eq_of_lt (h.trans_lt s.buf.cap.isLt), ?_⟩⟩⟩
  · exact fails_of_body (c := .readPastEnd) ((hbody s).trans (readToRes_error h))
  · refine completes_of_body ((hbody s).trans (readToRes_ok h)) ⟨?_, rfl, rfl, rfl, rfl⟩
    exact hres _ (Memory.storeSlice_length ..)

theorem beNat_lt {b : List Byte} {n : Nat} (h : b.length = n) : beNat b < 256 ^ n := by
  rw [beNat_eq, ← h]
  exact numberBE_lt b

/-- The signed reads: `w` is the width in bits of the `n` bytes read. -/
theorem signExtend_beNat {b : List Byte} (w n : Nat) (hw : 0 < w) (hn : 256 ^ n = 2 ^ w) (h : b.length = n) :
    (BitVec.ofNat w (beNat b)).signExtend 64 = signed64 w (numberBE b) := by
  rw [signExtend_eq w _ hw (hn ▸ beNat_lt h), beNat_eq]

theorem zeroExtend_beNat {b : List Byte} (h : b.length = 2) :
    (BitVec.ofNat 16 (beNat b)).zeroExtend 64 = BitVec.ofNat 64 (numberBE b) := by
  have hlt := beNat_lt h
  apply BitVec.eq_of_toNat_eq
  rw [BitVec.toNat_setWidth_of_le (by decide), BitVec.toNat_ofNat, BitVec.toNat_ofNat, ← beNat_eq]
  omega

/-- Settles O50: the five reads differ in their width and in how they extend the number. -/
theorem fixedWidthReads : Obligations.FixedWidthReads := by
  refine ⟨?_, ?_, ?_, ?_, ?_⟩
  · exact readsFixed_of_body (i := .bbrd8) (by decide) (fun _ => rfl) fun _ => signExtend_beNat 8 1 (by decide) (by decide)
  · exact readsFixed_of_body (i := .bbrd16) (by decide) (fun _ => rfl) fun _ => signExtend_beNat 16 2 (by decide) (by decide)
  · exact readsFixed_of_body (i := .bbrdu16) (by decide) (fun _ => rfl) fun _ => zeroExtend_beNat
  · exact readsFixed_of_body (i := .bbrd32) (by decide) (fun _ => rfl) fun _ => signExtend_beNat 32 4 (by decide) (by decide)
  · exact readsFixed_of_body (i := .bbrd64) (by decide) (fun _ => rfl) fun b _ => congrArg _ (beNat_eq b)

/-! ### BBRDSTR -/

theorem findTerminator_eq_none {b : Buffer}
    (h : ∀ k, b.pos.toNat ≤ k → k < b.cap.toNat → b.store.storeGet k ≠ 10) : findTerminator b = none := by
  refine List.find?_range_eq_none.2 fun j hj => ?_
  have hne := h (b.pos.toNat + j) (by omega) (by omega)
  simpa using hne

theorem findTerminator_eq_some {b : Buffer} {n : Nat} (hn : b.pos.toNat + n < b.cap.toNat)
    (hat : b.store.storeGet (b.pos.toNat + n) = 10) (hbefore : ∀ j < n, b.store.storeGet (b.pos.toNat + j) ≠ 10) :
    findTerminator b = some n := by
  refine List.find?_range_eq_some.2 ⟨beq_iff_eq.2 hat, List.mem_range.2 (by omega), fun j hj => ?_⟩
  have hne := hbefore j hj
  simpa using hne

theorem bodyOf_bbrdstr_noTerminator {s : State} (h : findTerminator s.buf = none) :
    bodyOf .bbrdstr s = .error (.cause .noTerminator) := by
  rw [bodyOf, bbrdstrBody, h, orRaise_none, error_bind]

section
variable {s : State} {n : Nat} (hfind : findTerminator s.buf = some n)
include hfind

theorem bodyOf_bbrdstr_overflow (h : s.cfg.outCap < n) : bodyOf .bbrdstr s = .error (.cause .outOverflow) := by
  rw [bodyOf, bbrdstrBody, hfind, orRaise_some, ok_bind, emit_overflow (by rwa [Memory.storeSlice_length]), error_bind]

theorem bodyOf_bbrdstr (h : n ≤ s.cfg.outCap) : bodyOf .bbrdstr s =
    .ok ((s.setOut (s.outWin.insertRun 0 (s.buf.store.storeSlice s.buf.pos.toNat n)) (BitVec.ofNat 32 n)).setBuf
      { s.buf with pos := BitVec.ofNat 32 (s.buf.pos.toNat + n + 1) }) := by
  rw [bodyOf, bbrdstrBody, hfind, orRaise_some, ok_bind, emit_ok (by rwa [Memory.storeSlice_length]), ok_bind, pure_eq_ok,
    Memory.storeSlice_length]
  rfl

theorem completes_bbrdstr (hl : s.cfg.Legal) (h : n ≤ s.cfg.outCap) : Completes .bbrdstr s 0x4D
    (EmitsWith (s.buf.store.storeSlice s.buf.pos.toNat n) s.outSplit
      { s.buf with pos := BitVec.ofNat 32 (s.buf.pos.toNat + n + 1) } s) := by
  have hlen := Memory.storeSlice_length s.buf.store s.buf.pos.toNat n
  have hcap := Config.Legal.outCap_lt hl
  refine completes_of_body (bodyOf_bbrdstr hfind h) ⟨?_, fun k hk => ?_, rfl, rfl, rfl⟩
  · have hout := outIs_setOut s (b := s.buf.store.storeSlice s.buf.pos.toNat n) (by omega)
    rwa [hlen] at hout
  · exact lookup_setOut_above s (BitVec.ofNat 32 n) hk

end

/-- Settles O51: the search finds the first newline, and the bytes before it are emitted. -/
theorem readStringStopsAtNewline : Obligations.ReadStringStopsAtNewline := by
  refine ⟨by decide, fun s hinv => ⟨fun h => ?_, fun n hn hat hbefore => ?_⟩⟩
  · exact fails_of_body (c := .noTerminator) (bodyOf_bbrdstr_noTerminator (findTerminator_eq_none h))
  · have hfind := findTerminator_eq_some hn hat hbefore
    refine ⟨fun h => fails_of_body (c := .outOverflow) (bodyOf_bbrdstr_overflow hfind h), fun h =>
      ⟨BitVec.ofNat 32 (s.buf.pos.toNat + n + 1), Nat.mod_eq_of_lt (Nat.lt_of_le_of_lt hn s.buf.cap.isLt), ?_⟩⟩
    exact completes_bbrdstr hfind hinv.legal h

/-! ### BBRDBYTES -/

section
variable {s : State} {off n : Nat} (hoff : off = s.arg0.toNat) (hn : n = s.arg1.toNat)
include hoff hn

theorem bodyOf_bbrdbytes_small (h : s.cfg.outCap < off + n) :
    bodyOf .bbrdbytes s = .error (.cause .destTooSmall) := by
  subst hoff hn
  rw [bodyOf, bbrdbytesBody]
  dsimp only
  rw [raiseIf_true _ h, error_bind]

theorem bodyOf_bbrdbytes_pastEnd (hfit : off + n ≤ s.cfg.outCap) (h : s.buf.cap.toNat < s.buf.pos.toNat + n) :
    bodyOf .bbrdbytes s = .error (.cause .readPastEnd) := by
  subst hoff hn
  rw [bodyOf, bbrdbytesBody]
  dsimp only
  rw [raiseIf_false _ (by omega), ok_bind, readN_error h, error_bind]

theorem bodyOf_bbrdbytes (hfit : off + n ≤ s.cfg.outCap) (h : s.buf.pos.toNat + n ≤ s.buf.cap.toNat) :
    bodyOf .bbrdbytes s = .ok ((s.setBuf { s.buf with pos := BitVec.ofNat 32 (s.buf.pos.toNat + n) }).setOut
      (s.outWin.insertRun off (s.buf.store.storeSlice s.buf.pos.toNat n))
      (if n > 0 then BitVec.ofNat 32 (max s.outLen.toNat (off + n)) else s.outLen)) := by
  subst hoff hn
  rw [bodyOf, bbrdbytesBody]
  dsimp only
  rw [raiseIf_false _ (by omega), ok_bind, readN_ok h, ok_bind, pure_eq_ok]

end

/-- A slice of STORE written into OUT: its bytes stand there, and every other byte is kept. -/
theorem lookup_insertRun_storeSlice (w m : Memory) (off lo n k : Nat) :
    (w.insertRun off (m.storeSlice lo n)).lookup k
      = if off ≤ k ∧ k < off + n then some (m.storeGet (lo + (k - off))) else w.lookup k := by
  rw [Memory.lookup_insertRun, Memory.storeSlice_length]
  split
  · next h => exact storeSlice_getElem? m lo (by omega)
  · rfl

/-- Settles O52: the checks in order, then one run written into OUT. -/
theorem readBytesIntoOut : Obligations.ReadBytesIntoOut := by
  refine ⟨by decide, fun s ⟨hl, _, _, hout, _⟩ off n hoff hn => ⟨fun h => ?_, fun hfit => ⟨fun h => ?_, fun h => ?_⟩⟩⟩
  · exact fails_of_body (c := .destTooSmall) (bodyOf_bbrdbytes_small hoff hn h)
  · exact fails_of_body (c := .readPastEnd) (bodyOf_bbrdbytes_pastEnd hoff hn hfit h)
  · have hcap := Config.Legal.outCap_lt hl
    refine completes_of_body (bodyOf_bbrdbytes hoff hn hfit h) ⟨rfl, rfl,
      ⟨BitVec.ofNat 32 (s.buf.pos.toNat + n), Nat.mod_eq_of_lt (h.trans_lt s.buf.cap.isLt), rfl⟩, ?_,
      fun k => lookup_insertRun_storeSlice ..⟩
    rw [commitCommand_outLen, State.setOut_outLen]
    split
    · exact Nat.mod_eq_of_lt (by omega)
    · rfl

end Sys2Proof.Machine
end

section
/-! PROOFS. The byte writes of the Byte Buffer (45_byte_buffer.md R171, R172, R187-R193). -/

namespace Sys2Proof.Machine

open Sys2Proof.Claims

/-! ### What every write begins with -/

theorem checkMode_bind_error {kind : WriteMode} {s : State} {k : Unit → Except Stop State} (h : ModeConflict kind s) :
    (checkMode kind s >>= k) = .error (.cause .modeConflict) := by rw [checkMode_error h, error_bind]

/-- Under the buffer's invariant growth fails exactly beyond the ceiling (R171). -/
theorem ensureCapacity_exhausted {need : Nat} {s : State} (hb : s.buf.Inv s.cfg.bbMaxCap)
    (h : s.cfg.bbMaxCap < s.buf.pos.toNat + need) : ensureCapacity need s = .error (.cause .capacityExhausted) := by
  obtain ⟨_, hcap, _⟩ := hb
  exact ensureCapacity_error h (by omega)

theorem writeN_exhausted {l : List Byte} {s : State} (hb : s.buf.Inv s.cfg.bbMaxCap)
    (h : s.cfg.bbMaxCap < s.buf.pos.toNat + l.length) : writeN l s = .error (.cause .capacityExhausted) := by
  rw [writeN, ensureCapacity_exhausted hb h, error_bind]

/-! ### Fixed-width writes -/

theorem byteWrite_exhausted {l : List Byte} {s : State} (hm : ¬ ModeConflict .byte s) (hb : s.buf.Inv s.cfg.bbMaxCap)
    (h : s.cfg.bbMaxCap < s.buf.pos.toNat + l.length) : byteWrite l s = .error (.cause .capacityExhausted) := by
  rw [byteWrite, checkMode_ok hm, ok_bind, writeN_exhausted hb h, error_bind]

/-- A command that ends in one byte write of `l` that fits. -/
theorem completes_written {i : Instr} {s : State} {l : List Byte} (hinv : s.Inv)
    (hbody : bodyOf i s = .ok (s.setBuf (s.buf.written s.cfg.bbMaxCap l)))
    (hf : s.buf.pos.toNat + l.length ≤ s.cfg.bbMaxCap) :
    Completes i s i.opcode.toNat fun t => OnlyBuffer s t ∧
      BytesWritten l (grownCap s.cfg.bbMaxCap s.buf.cap.toNat (s.buf.pos.toNat + l.length)) s.buf t.buf :=
  completes_of_body hbody ⟨onlyBuffer_setBuf .., Buffer.bytesWritten l hinv.bbMaxCap_le hinv.buf_inv hf⟩

/-- Bytes that spell the `n` low bytes of a number, most significant first, are `intBytes` of it. -/
theorem eq_intBytes_big {l : List Byte} {n v : Nat} (hlen : l.length = n)
    (h : ∀ j < n, l[j]? = some (BitVec.ofNat 8 (v / 256 ^ (n - 1 - j)))) : l = intBytes .big n v := by
  refine List.ext_getElem? fun j => ?_
  by_cases hj : j < n
  · exact (h j hj).trans (intBytes_getElem? .big v hj).symm
  · rw [List.getElem?_eq_none (by omega), List.getElem?_eq_none (by rw [intBytes_length]; omega)]

theorem intBytes_mod (o : ByteOrder) (n v : Nat) : intBytes o n (v % 256 ^ n) = intBytes o n v := by
  rw [intBytes, leBytes_mod, intBytes]

theorem numberBE_intBytes_big (n v : Nat) : numberBE (intBytes .big n v) = v % 256 ^ n :=
  intValue_intBytes .big .left n v

theorem be16_eq (v : BitVec 16) : be16 v = intBytes .big 2 v.toNat := by
  simp only [be16, extractByte_eq]
  rfl

theorem bodyOf_bbwr8 (s : State) : bodyOf .bbwr8 s = byteWrite (intBytes .big 1 s.arg0.toNat) s := by
  have hbyte : s.arg0b8 = BitVec.ofNat 8 (s.arg0.toNat / 2 ^ 0) := extractByte_eq ..
  rw [bodyOf, hbyte]
  rfl

theorem bodyOf_bbwr16 (s : State) : bodyOf .bbwr16 s = byteWrite (intBytes .big 2 s.arg0.toNat) s := by
  have hlow : s.arg0b16.toNat = s.arg0.toNat % 256 ^ 2 := BitVec.extractLsb'_toNat ..
  rw [bodyOf, be16_eq, hlow, intBytes_mod]

theorem bodyOf_bbwr32 (s : State) : bodyOf .bbwr32 s = byteWrite (intBytes .big 4 s.arg0.toNat) s := by
  have hlow : s.arg0b32.toNat = s.arg0.toNat % 256 ^ 4 := BitVec.extractLsb'_toNat ..
  rw [bodyOf, be32_eq, hlow, leBytes_mod]
  rfl

theorem bodyOf_bbwr64 (s : State) : bodyOf .bbwr64 s = byteWrite (intBytes .big 8 s.arg0.toNat) s := by
  rw [bodyOf, be64_eq]
  rfl

/-- A command whose pseudocode is a byte write of the `n` low bytes of ARG0. -/
theorem writesFixed_of_body {i : Instr} {n : Nat} (hi : encode i = BitVec.ofNat 32 i.opcode.toNat)
    (hbody : ∀ s, bodyOf i s = byteWrite (intBytes .big n s.arg0.toNat) s) : WritesFixed i i.opcode.toNat n := by
  refine ⟨hi, fun s hinv l hlen hl => ⟨fun hm => ?_, fun hm => ⟨fun h => ?_, fun h => ?_⟩⟩⟩
  · exact fails_of_body (c := .modeConflict) ((hbody s).trans (checkMode_bind_error hm))
  · refine fails_of_body (c := .capacityExhausted) ((hbody s).trans (byteWrite_exhausted hm hinv.buf_inv ?_))
    rwa [intBytes_length]
  · obtain rfl := eq_intBytes_big hlen hl
    have hf : Fits s (intBytes .big n s.arg0.toNat).length := (fits_iff hinv.buf_inv).2 (by rwa [hlen])
    have hdone := completes_written hinv ((hbody s).trans (byteWrite_ok hm hf)) (by rwa [hlen])
    rwa [hlen] at hdone

/-- Settles O53: the four writes differ in their width alone. -/
theorem fixedWidthWrites : Obligations.FixedWidthWrites :=
  ⟨writesFixed_of_body (i := .bbwr8) (by decide) bodyOf_bbwr8, writesFixed_of_body (i := .bbwr16) (by decide) bodyOf_bbwr16,
    writesFixed_of_body (i := .bbwr32) (by decide) bodyOf_bbwr32, writesFixed_of_body (i := .bbwr64) (by decide) bodyOf_bbwr64⟩

/-! ### BBWRBYTES -/

theorem bodyOf_bbwrbytes_inLength {s : State} (hm : ¬ ModeConflict .byte s) (h : s.cfg.inCap < s.inLen.toNat) :
    bodyOf .bbwrbytes s = .error (.cause .inLength) := by
  rw [bodyOf, bbwrbytesBody, checkMode_ok hm, ok_bind, needIn_error h, error_bind]

section
variable {s : State} {off n : Nat} (hoff : off = s.arg0.toNat) (hn : n = s.arg1.toNat) (hm : ¬ ModeConflict .byte s)
  (hin : s.inLen.toNat ≤ s.cfg.inCap)
include hoff hn hm hin

theorem bodyOf_bbwrbytes_source (h : s.inLen.toNat < off + n) : bodyOf .bbwrbytes s = .error (.cause .sourceRange) := by
  subst hoff hn
  rw [bodyOf, bbwrbytesBody, checkMode_ok hm, ok_bind, needIn_ok hin, ok_bind]
  dsimp only
  rw [raiseIf_true _ h, error_bind]

theorem bodyOf_bbwrbytes_exhausted (hsrc : off + n ≤ s.inLen.toNat) (hb : s.buf.Inv s.cfg.bbMaxCap)
    (h : s.cfg.bbMaxCap < s.buf.pos.toNat + n) : bodyOf .bbwrbytes s = .error (.cause .capacityExhausted) := by
  subst hoff hn
  rw [bodyOf, bbwrbytesBody, checkMode_ok hm, ok_bind, needIn_ok hin, ok_bind]
  dsimp only
  rw [raiseIf_false _ (by omega), ok_bind, ensureCapacity_exhausted hb h, error_bind]

theorem bodyOf_bbwrbytes {b : List Byte} (hsrc : off + n ≤ s.inLen.toNat) (hb : s.buf.Inv s.cfg.bbMaxCap)
    (h : s.buf.pos.toNat + n ≤ s.cfg.bbMaxCap) (hlen : b.length = n) (hwin : ∀ k < n, s.inWin.lookup (off + k) = b[k]?) :
    bodyOf .bbwrbytes s = .ok (s.setBuf (s.buf.written s.cfg.bbMaxCap b)) := by
  have hread : readIn s off n = .ok b := by
    subst hlen
    exact readIn_eq hwin
  subst hoff hn
  exact bbwrbytesBody_ok hm hin hsrc hread ((fits_iff hb).2 (by rwa [hlen]))

end

/-- Settles O55: four checks in order, then the byte write that the fixed-width writes perform. -/
theorem writeBytesCopiesInput : Obligations.WriteBytesCopiesInput := by
  refine ⟨by decide, fun s hinv off n hoff hn => ⟨fun hm => ?_, fun hm => ⟨fun h => ?_, fun hin => ⟨fun h => ?_,
    fun hsrc => ⟨fun h => ?_, fun h b hlen hwin => ?_⟩⟩⟩⟩⟩
  · exact fails_of_body (i := .bbwrbytes) (c := .modeConflict) (checkMode_bind_error hm)
  · exact fails_of_body (c := .inLength) (bodyOf_bbwrbytes_inLength hm h)
  · exact fails_of_body (c := .sourceRange) (bodyOf_bbwrbytes_source hoff hn hm hin h)
  · exact fails_of_body (c := .capacityExhausted) (bodyOf_bbwrbytes_exhausted hoff hn hm hin hsrc hinv.buf_inv h)
  · have hbody := bodyOf_bbwrbytes hoff hn hm hin hsrc hinv.buf_inv h hlen hwin
    rw [← hlen] at h ⊢
    exact completes_written hinv hbody h

/-! ### BBWRSTR -/

/-- Two byte writes, one after the other, are one write of both texts into the last capacity. -/
theorem bytesWritten_append {b c d : Buffer} {l r : List Byte} {n m : Nat} (h1 : BytesWritten l n b c)
    (h2 : BytesWritten r m c d) (hl : b.pos.toNat + l.length ≤ n) (hb : b.cap.toNat ≤ n) :
    BytesWritten (l ++ r) m b d := by
  obtain ⟨hcap1, hpos1, hbit1, hmode1, hstore1⟩ := h1
  obtain ⟨hcap2, hpos2, hbit2, hmode2, hstore2⟩ := h2
  refine ⟨hcap2, by rw [hpos2, hpos1, List.length_append, Nat.add_assoc], hbit2.trans hbit1, ?_, fun k hk => ?_⟩
  · rw [hmode2, hmode1]
    cases b.mode <;> rfl
  · rw [hstore2 k hk, hcap1, hpos1, List.length_append]
    by_cases hr : b.pos.toNat + l.length ≤ k ∧ k < b.pos.toNat + l.length + r.length
    · rw [if_pos hr, if_pos (by omega), List.getD_append_right _ _ _ _ (by omega), Nat.sub_add_eq]
    · rw [if_neg hr]
      by_cases hn : k < n
      · rw [if_pos hn, hstore1 k hn]
        by_cases hkl : b.pos.toNat ≤ k ∧ k < b.pos.toNat + l.length
        · rw [if_pos hkl, if_pos (by omega), List.getD_append _ _ _ _ (by omega)]
        · rw [if_neg hkl]
          exact (if_neg (by omega)).symm
      · rw [if_neg hn, if_neg (by omega), if_neg (by omega)]

/-- SetMode before a byte write changes nothing: the write ends in the same one. -/
theorem written_moded (b : Buffer) (m : Nat) (l : List Byte) : (b.moded .byte).written m l = b.written m l := by
  have hmode : ((b.moded .byte).written m l).mode = (b.written m l).mode := by
    change (if (if b.mode = .none then WriteMode.byte else b.mode) = .none then .byte
      else if b.mode = .none then .byte else b.mode) = if b.mode = .none then .byte else b.mode
    cases b.mode <;> rfl
  exact congrArg (fun k => { b.written m l with mode := k }) hmode

/-- BBWRSTR is the byte write of the text and then that of the terminator. -/
theorem writtenString_eq (b : Buffer) (m : Nat) (l : List Byte) :
    b.writtenString m l = (b.written m l).written m [10] := (written_moded _ m [10]).symm

theorem bytesWritten_writtenString {b : Buffer} {m : Nat} {l : List Byte} (hm : m ≤ 2 ^ 28) (hb : b.Inv m)
    (hf : b.pos.toNat + l.length + 1 ≤ m) :
    BytesWritten (l ++ [10]) (grownCap m (grownCap m b.cap.toNat (b.pos.toNat + l.length)) (b.pos.toNat + l.length + 1)) b
      (b.writtenString m l) := by
  have htext := Buffer.bytesWritten l hm hb (by omega)
  have ⟨hcap, hpos, _⟩ := htext
  have ⟨_, hceil, _⟩ := hb
  have hend := Buffer.bytesWritten [10] hm (Buffer.inv_written l hm hb (by omega)) (by rw [hpos]; exact hf)
  rw [hcap, hpos] at hend
  rw [writtenString_eq]
  exact bytesWritten_append htext hend (stop_le_grownCap (by omega)) (le_grownCap hceil)

/-- The buffer of `s` after BBWRSTR's first growth and the text, before the terminator (R192). -/
def textPut (s : State) (b : List Byte) : Buffer :=
  (s.buf.grown s.cfg.bbMaxCap (s.buf.pos.toNat + b.length)).put b

/-- It differs from the buffer after a byte write of the text in its mode alone. -/
theorem inv_textPut {s : State} {b : List Byte} (hinv : s.Inv) (hf : s.buf.pos.toNat + b.length ≤ s.cfg.bbMaxCap) :
    (textPut s b).Inv s.cfg.bbMaxCap ∧ (textPut s b).pos.toNat = s.buf.pos.toNat + b.length := by
  have hmax := hinv.bbMaxCap_le
  have hb : (s.buf.written s.cfg.bbMaxCap b).Inv s.cfg.bbMaxCap := Buffer.inv_written b hmax hinv.buf_inv hf
  obtain ⟨_, hpos, _⟩ := Buffer.bytesWritten b hmax hinv.buf_inv hf
  exact ⟨hb, hpos⟩

section
variable {s : State} (hm : ¬ ModeConflict .byte s)
include hm

theorem bodyOf_bbwrstr_inLength (h : s.cfg.inCap < s.inLen.toNat) : bodyOf .bbwrstr s = .error (.cause .inLength) := by
  rw [bodyOf, bbwrstrBody, checkMode_ok hm, ok_bind, needIn_error h, error_bind]

variable {b : List Byte} (hinv : s.Inv) (hin : InseqIs s b)
include hinv hin

/-- BBWRSTR fails where the text, or the terminator after it, is beyond the ceiling. -/
theorem bodyOf_bbwrstr_exhausted (h : s.cfg.bbMaxCap < s.buf.pos.toNat + b.length + 1) :
    bodyOf .bbwrstr s = .error (.cause .capacityExhausted) := by
  rw [bodyOf, bbwrstrBody, checkMode_ok hm, ok_bind, needIn_of_inseqIs hin, ok_bind]
  by_cases hf : s.buf.pos.toNat + b.length ≤ s.cfg.bbMaxCap
  · obtain ⟨hb, hpos⟩ := inv_textPut hinv hf
    rw [ensureCapacity_grown ((fits_iff hinv.buf_inv).2 (by rwa [hin.1])), ok_bind, readIn_of_inseqIs hin, ok_bind,
      putAtCursor_eq, State.setBuf_setBuf, State.setBuf_buf, hin.1]
    have hend : writeN [10] (s.setBuf (textPut s b)) = .error (.cause .capacityExhausted) :=
      writeN_exhausted hb (h.trans_eq (congrArg (· + 1) hpos.symm))
    rw [← textPut, hend, error_bind]
  · rw [ensureCapacity_exhausted hinv.buf_inv (by rw [hin.1]; omega), error_bind]

theorem bodyOf_bbwrstr (h : s.buf.pos.toNat + b.length + 1 ≤ s.cfg.bbMaxCap) :
    bodyOf .bbwrstr s = .ok (s.setBuf (s.buf.writtenString s.cfg.bbMaxCap b)) := by
  refine bbwrstrBody_ok hm (inseqIs_le hin) (readIn_of_inseqIs hin) ((fits_iff hinv.buf_inv).2 (by omega)) (.inl ?_)
  obtain ⟨_, hpos⟩ := inv_textPut hinv (b := b) (by omega)
  exact (congrArg (· + 1) hpos).trans_le h

end

/-- Settles O54: the text and the terminator are two byte writes, one after the other. -/
theorem writeStringAppendsNewline : Obligations.WriteStringAppendsNewline := by
  refine ⟨by decide, fun s hinv => ⟨fun hm => ?_, fun hm => ⟨fun h => ?_, fun b hin => ⟨fun h => ?_, fun h => ?_⟩⟩⟩⟩
  · exact fails_of_body (i := .bbwrstr) (c := .modeConflict) (checkMode_bind_error hm)
  · exact fails_of_body (c := .inLength) (bodyOf_bbwrstr_inLength hm h)
  · exact fails_of_body (c := .capacityExhausted) (bodyOf_bbwrstr_exhausted hm hinv hin h)
  · exact completes_of_body (bodyOf_bbwrstr hm hinv hin h)
      ⟨onlyBuffer_setBuf .., bytesWritten_writtenString hinv.bbMaxCap_le hinv.buf_inv h⟩

end Sys2Proof.Machine
end

section
/-! PROOFS. BBWRBITS (45_byte_buffer.md R194). -/

namespace Sys2Proof.Machine

open Sys2Proof.Claims

/-! ### The bits of STORE -/

/-- STORE at and beyond its capacity has no bit set. -/
theorem ite_lt_storeBit {m : Memory} {cap : Nat} (h : m.storeWf cap = true) (q : Nat) :
    (if q < 8 * cap then storeBit m q else false) = storeBit m q := by
  split
  · rfl
  · rw [storeBit, Memory.storeGet_of_le h (by omega)]
    exact BitVec.getLsbD_zero.symm

theorem fieldBits_getD {nb j : Nat} (v : Nat) (h : j < nb) : (fieldBits nb v).getD j false = v.testBit (nb - 1 - j) := by
  rw [fieldBits, List.getD_eq_getElem _ _ (by simpa using h), List.getElem_map, List.getElem_range]

/-- A field of at most 32 bits lies in the low half of ARG1. -/
theorem testBit_arg1b32 (s : State) {k : Nat} (h : k < 32) : s.arg1b32.toNat.testBit k = s.arg1.getLsbD k := by
  rw [BitVec.testBit_toNat, State.arg1b32, BitVec.getLsbD_extractLsb', decide_eq_true h, Bool.true_and, Nat.zero_add]

/-- What a field's bit leaves where `old` stood (R194). -/
def mergedBit : BitMerge → Bool → Bool → Bool
  | .replace, _, field => field
  | .or, old, field => old || field

theorem mergedBit_false (m : BitMerge) (field : Bool) : mergedBit m false field = field := by
  cases m
  · rfl
  · exact Bool.false_or field

/-- Each bit of STORE after BBWRBITS (R194). -/
theorem storeBit_writtenBits {s : State} (hb : s.buf.Inv s.cfg.bbMaxCap) {nb : Nat} (h32 : nb ≤ 32) (q : Nat) :
    storeBit (s.buf.writtenBits s.cfg.bbMaxCap s.cfg.bbBitMerge nb s.arg1b32.toNat).store q
      = if s.buf.bitpos.toNat ≤ q ∧ q < s.buf.bitpos.toNat + nb
        then mergedBit s.cfg.bbBitMerge (storeBit s.buf.store q) (s.arg1.getLsbD (nb - 1 - (q - s.buf.bitpos.toNat)))
        else storeBit s.buf.store q := by
  obtain ⟨_, _, _, hwf⟩ := hb
  obtain ⟨hsorted, _⟩ := Memory.storeWf_iff.1 hwf
  rw [Buffer.writtenBits, Buffer.moded_store, Buffer.putField_store, Buffer.grown_store, Buffer.grown_bitpos,
    storeBit_putBits _ _ _ _ _ hsorted, fieldBits_length]
  split
  · next hq =>
    rw [fieldBits_getD _ (by omega), testBit_arg1b32 s (by omega)]
    cases s.cfg.bbBitMerge <;> rfl
  · rfl

/-! ### The command -/

section
variable {s : State} {nb : Nat} (hnb : nb = s.arg0.toNat) (hm : ¬ ModeConflict .bit s)
include hnb hm

theorem bodyOf_bbwrbits_width (h : nb = 0 ∨ 32 < nb) : bodyOf .bbwrbits s = .error (.cause .bitWidth) := by
  subst hnb
  rw [bodyOf, bbwrbitsBody, checkMode_ok hm, ok_bind]
  dsimp only
  rw [raiseIf_true _ (by omega), error_bind]

variable (hinv : s.Inv) (h1 : 1 ≤ nb) (h32 : nb ≤ 32)
include hinv h1 h32

theorem bodyOf_bbwrbits_exhausted (h : s.cfg.bbMaxCap < s.buf.pos.toNat + (nb + 7) / 8) :
    bodyOf .bbwrbits s = .error (.cause .capacityExhausted) := by
  subst hnb
  rw [bodyOf, bbwrbitsBody, checkMode_ok hm, ok_bind]
  dsimp only
  rw [raiseIf_false _ (by omega), ok_bind, ensureCapacity_exhausted hinv.buf_inv h, error_bind]

variable {cap : Nat} (hcap : cap = grownCap s.cfg.bbMaxCap s.buf.cap.toNat (s.buf.pos.toNat + (nb + 7) / 8))
  (hf : s.buf.pos.toNat + (nb + 7) / 8 ≤ s.cfg.bbMaxCap)
include hcap hf

theorem bodyOf_bbwrbits_overrun (h : 8 * cap < s.buf.bitpos.toNat + nb) :
    bodyOf .bbwrbits s = .error (.cause .bitOverrun) := by
  have hb := hinv.buf_inv
  have hgrown := Buffer.grown_cap_toNat (n := s.buf.pos.toNat + (nb + 7) / 8) hinv.bbMaxCap_le hinv.cap_le
  rw [← hcap] at hgrown
  subst hnb
  rw [bodyOf, bbwrbitsBody, checkMode_ok hm, ok_bind]
  dsimp only
  rw [raiseIf_false _ (by omega), ok_bind, ensureCapacity_grown ((fits_iff hb).2 hf), ok_bind, State.setBuf_buf,
    Buffer.grown_bitpos, hgrown, raiseIf_true _ (by omega), error_bind]

theorem completes_bbwrbits (h : s.buf.bitpos.toNat + nb ≤ 8 * cap) : Completes .bbwrbits s 0x56 fun t =>
    OnlyBuffer s t ∧ t.buf.cap.toNat = cap ∧ t.buf.pos = s.buf.pos ∧ t.buf.bitpos.toNat = s.buf.bitpos.toNat + nb ∧
      t.buf.mode = (if s.buf.mode = .none then .bit else s.buf.mode) ∧
      t.buf.store = (s.buf.writtenBits s.cfg.bbMaxCap s.cfg.bbBitMerge nb s.arg1b32.toNat).store := by
  have hb := hinv.buf_inv
  have hmax := hinv.bbMaxCap_le
  have hgrown := Buffer.grown_cap_toNat (n := s.buf.pos.toNat + (nb + 7) / 8) hmax hinv.cap_le
  have hceil := grownCap_le_max (n := s.buf.pos.toNat + (nb + 7) / 8) hinv.cap_le
  rw [← hcap] at hgrown hceil
  have hend : (BitVec.ofNat 32 (s.buf.bitpos.toNat + nb)).toNat = s.buf.bitpos.toNat + nb := Nat.mod_eq_of_lt (by omega)
  refine completes_of_body (bbwrbitsBody_ok hnb.symm hm h1 h32 ((fits_iff hb).2 hf) (by omega))
    ⟨onlyBuffer_setBuf .., hgrown, rfl, ?_, rfl, rfl⟩
  simpa [Buffer.writtenBits] using hend

end

/-- Settles O56: the checks in order, then each bit of STORE is the field's or the one that stood there. -/
theorem writeBitsPacksField : Obligations.WriteBitsPacksField := by
  refine ⟨by decide, fun s hinv nb q0 cap hnb hq0 hcap => ⟨fun hm => ?_, fun hm => ⟨fun h => ?_, fun h1 h32 => ⟨fun h => ?_,
    fun hf => ⟨fun h => ?_, fun h => ?_⟩⟩⟩⟩⟩
  · exact fails_of_body (i := .bbwrbits) (c := .modeConflict) (checkMode_bind_error hm)
  · exact fails_of_body (c := .bitWidth) (bodyOf_bbwrbits_width hnb hm h)
  · exact fails_of_body (c := .capacityExhausted) (bodyOf_bbwrbits_exhausted hnb hm hinv h1 h32 h)
  · rw [hq0] at h
    exact fails_of_body (c := .bitOverrun) (bodyOf_bbwrbits_overrun hnb hm hinv h1 h32 hcap hf h)
  · subst hq0
    obtain ⟨t, hx, hst, hops, honly, hc, hpos, hbit, hmode, hstore⟩ := completes_bbwrbits hnb hm hinv h1 h32 hcap hf h
    refine ⟨t, hx, hst, hops, honly, hc, hpos, hbit, hmode, fun q _ => ?_⟩
    have ⟨_, _, _, hwf⟩ := hinv.buf_inv
    dsimp only
    rw [hstore, storeBit_writtenBits hinv.buf_inv h32, ite_lt_storeBit hwf]
    cases s.cfg.bbBitMerge <;> rfl

end Sys2Proof.Machine
end

section
/-! PROOFS. What is written to a reset buffer reads back (45_byte_buffer.md R195 (a) and (b)). -/

namespace Sys2Proof.Machine

open Sys2Proof.Claims

theorem not_modeConflict_of_empty {kind : WriteMode} {s : State} (he : s.buf = Buffer.empty) : ¬ ModeConflict kind s :=
  fun ⟨_, hmode, _⟩ => hmode (by rw [he]; rfl)

/-! ### Fixed-width writes and reads -/

/-- The bytes `l` stand at the start of STORE. -/
def BeginsWith (b : Buffer) (l : List Byte) : Prop := l.length ≤ b.cap.toNat ∧ b.store.storeSlice 0 l.length = l

/-- A byte write to the empty buffer puts its bytes at the start. -/
theorem beginsWith_of_bytesWritten {b : Buffer} {l : List Byte} {n : Nat} (h : BytesWritten l n Buffer.empty b)
    (hl : l.length ≤ n) : BeginsWith b l := by
  obtain ⟨hcap, _, _, _, hstore⟩ := h
  refine ⟨hcap ▸ hl, (eq_storeSlice fun k hk => ?_).symm⟩
  have hpos : Buffer.empty.pos.toNat = 0 := rfl
  rw [hpos] at hstore
  rw [Nat.zero_add, hstore k (by omega), if_pos (by omega), Nat.sub_zero, List.getD_eq_getElem _ _ hk,
    List.getElem?_eq_getElem hk]

/-- An empty buffer takes every fixed-width write. -/
theorem exec_write_empty {wr : Instr} {n : Nat} {s : State} (hn : n ≤ 8)
    (hwr : ∀ s, bodyOf wr s = byteWrite (intBytes .big n s.arg0.toNat) s) (hinv : s.Inv) (he : s.buf = Buffer.empty) :
    ∃ t, exec wr s = .next t ∧ BeginsWith t.buf (intBytes .big n s.arg0.toNat) := by
  have ⟨_, _, ⟨h8, _⟩, _⟩ := hinv.legal
  have hpos : s.buf.pos.toNat = 0 := by rw [he]; rfl
  have hm : ¬ ModeConflict .byte s := not_modeConflict_of_empty he
  have hf : s.buf.pos.toNat + (intBytes .big n s.arg0.toNat).length ≤ s.cfg.bbMaxCap := by rw [hpos, intBytes_length]; omega
  obtain ⟨t, hx, _, _, _, hw⟩ :=
    completes_written hinv ((hwr s).trans (byteWrite_ok hm ((fits_iff hinv.buf_inv).2 hf))) hf
  have hle := stop_le_grownCap (c := s.buf.cap.toNat) hf
  rw [he] at hw hle
  exact ⟨t, hx, beginsWith_of_bytesWritten hw (by omega)⟩

/-- BBSETPOS 0 moves the cursor to the start and keeps the bytes. -/
theorem exec_bbsetpos_zero {u v : State} (h0 : u.arg0 = 0) (hx : exec .bbsetpos u = .next v) :
    v.buf = { u.buf with pos := 0 } := by
  have harg : u.arg0.toNat = 0 := by rw [h0]; rfl
  rw [exec_eq, bodyOf_bbsetpos (by omega), runCommand_ok, harg] at hx
  exact congrArg State.buf (Host.Outcome.next.inj hx).symm

/-- A fixed-width read at the start of a buffer that begins with its bytes. -/
theorem exec_read_start {rd : Instr} {n : Nat} {widen : List Byte → DWord} {v : State} {l : List Byte} (hlen : l.length = n)
    (hrd : ∀ s, bodyOf rd s = readToRes n widen s) (hpos : v.buf.pos = 0) (hb : BeginsWith v.buf l) :
    ∃ r, exec rd v = .next r ∧ r.res = widen l := by
  obtain ⟨hcap, hslice⟩ := hb
  have hpos : v.buf.pos.toNat = 0 := by rw [hpos]; rfl
  rw [exec_eq, hrd, readToRes_ok (by omega), hpos, ← hlen, hslice]
  exact ⟨_, runCommand_ok .., rfl⟩

theorem bodyOf_bbrdu16 (s : State) :
    bodyOf .bbrdu16 s = readToRes 2 (fun b => (BitVec.ofNat 16 (beNat b)).zeroExtend 64) s := rfl

/-- A write of the `n` low bytes of ARG0 to the empty buffer, BBSETPOS 0 and the matching signed read; two bytes are read by
BBRDU16 too. -/
theorem roundTrip_fixed {s u v : State} {wr rd : Instr} {n w : Nat} {widen : List Byte → DWord} (hn : n ≤ 8)
    (hw : 256 ^ n = 2 ^ w) (h16 : w = 16 → n = 2) (hwr : ∀ s, bodyOf wr s = byteWrite (intBytes .big n s.arg0.toNat) s)
    (hrd : ∀ s, bodyOf rd s = readToRes n widen s) (hwiden : ∀ b, b.length = n → widen b = signed64 w (numberBE b))
    (hinv : s.Inv) (he : s.buf = Buffer.empty) :
    ∃ t, exec wr s = .next t ∧
      (u.cfg = t.cfg → u.buf = t.buf → u.arg0 = 0 → exec .bbsetpos u = .next v →
        ∃ r, exec rd v = .next r ∧ r.res = signed64 w (s.arg0.toNat % 2 ^ w)
          ∧ (w = 16 → ∃ r', exec .bbrdu16 v = .next r' ∧ r'.res.toNat = s.arg0.toNat % 2 ^ 16)) := by
  obtain ⟨t, hx, ht⟩ := exec_write_empty hn hwr hinv he
  refine ⟨t, hx, fun _ hbuf h0 hset => ?_⟩
  have hv := exec_bbsetpos_zero h0 hset
  have hpos : v.buf.pos = 0 := by rw [hv]
  have hbytes : BeginsWith v.buf (intBytes .big n s.arg0.toNat) := by rw [hv, hbuf]; exact ht
  obtain ⟨r, hr, hres⟩ := exec_read_start (intBytes_length ..) hrd hpos hbytes
  refine ⟨r, hr, by rw [hres, hwiden _ (intBytes_length ..), numberBE_intBytes_big, hw], fun hw16 => ?_⟩
  obtain rfl := h16 hw16
  obtain ⟨r', hr', hres'⟩ := exec_read_start (intBytes_length ..) bodyOf_bbrdu16 hpos hbytes
  refine ⟨r', hr', ?_⟩
  rw [hres', zeroExtend_beNat (intBytes_length ..), numberBE_intBytes_big, BitVec.toNat_ofNat]
  omega

/-! ### One bit field -/

theorem roundTrip_bits {s t : State} {nb : Nat} (hinv : s.Inv) (he : s.buf = Buffer.empty) (hnb : nb = s.arg0.toNat)
    (h1 : 1 ≤ nb) (h32 : nb ≤ 32) (hx : exec .bbwrbits s = .next t) :
    t.status = okWord 0x56 ∧ t.buf.cap.toNat = (nb + 7) / 8 ∧ t.buf.bitpos.toNat = nb ∧ t.buf.pos = 0
      ∧ ∀ q < 8 * ((nb + 7) / 8), storeBit t.buf.store q = if q < nb then s.arg1.getLsbD (nb - 1 - q) else false := by
  have ⟨_, _, ⟨h8, _⟩, _⟩ := hinv.legal
  have hpos : s.buf.pos.toNat = 0 := by rw [he]; rfl
  have hbit : s.buf.bitpos.toNat = 0 := by rw [he]; rfl
  have hcap0 : s.buf.cap.toNat = 0 := by rw [he]; rfl
  have hm : ¬ ModeConflict .bit s := not_modeConflict_of_empty he
  have hcap : (nb + 7) / 8 = grownCap s.cfg.bbMaxCap s.buf.cap.toNat (s.buf.pos.toNat + (nb + 7) / 8) := by
    rw [hcap0, hpos, grownCap, if_pos (by omega)]
    omega
  obtain ⟨t', hx', hst, _, _, hc, hp, hbp, _, hstore⟩ :=
    completes_bbwrbits hnb hm hinv h1 h32 hcap (by omega) (by omega)
  obtain rfl := Host.Outcome.next.inj (hx'.symm.trans hx)
  refine ⟨hst, hc, by omega, by rw [hp, he]; rfl, fun q _ => ?_⟩
  have hold : storeBit s.buf.store q = false := by
    rw [he]
    exact BitVec.getLsbD_zero
  rw [hstore, storeBit_writtenBits hinv.buf_inv h32, hold, mergedBit_false, hbit, Nat.zero_add, Nat.sub_zero]
  by_cases hlt : q < nb
  · rw [if_pos ⟨Nat.zero_le q, hlt⟩, if_pos hlt]
  · rw [if_neg (by omega), if_neg hlt]

/-- Settles O57: on the empty buffer the write's bytes are the ones the matching read reads, and a bit field's are the only bits
set. -/
theorem bufferRoundTrips : Obligations.BufferRoundTrips := by
  refine ⟨fun s u v wr rd w hmem hinv he => ?_, fun s t nb hinv he hnb h1 h32 hx => roundTrip_bits hinv he hnb h1 h32 hx⟩
  simp only [List.mem_cons, List.not_mem_nil, or_false, Prod.mk.injEq] at hmem
  obtain ⟨rfl, rfl, rfl⟩ | ⟨rfl, rfl, rfl⟩ | ⟨rfl, rfl, rfl⟩ | ⟨rfl, rfl, rfl⟩ := hmem
  · exact roundTrip_fixed (by decide) (by decide) (by decide) bodyOf_bbwr8 (fun _ => rfl)
      (fun _ => signExtend_beNat 8 1 (by decide) (by decide)) hinv he
  · exact roundTrip_fixed (by decide) (by decide) (by decide) bodyOf_bbwr16 (fun _ => rfl)
      (fun _ => signExtend_beNat 16 2 (by decide) (by decide)) hinv he
  · exact roundTrip_fixed (by decide) (by decide) (by decide) bodyOf_bbwr32 (fun _ => rfl)
      (fun _ => signExtend_beNat 32 4 (by decide) (by decide)) hinv he
  · exact roundTrip_fixed (by decide) (by decide) (by decide) bodyOf_bbwr64 (fun _ => rfl)
      (fun _ h => (BitVec.signExtend_eq _).symm.trans (signExtend_beNat 64 8 (by decide) (by decide) h)) hinv he

end Sys2Proof.Machine
end

section
/-! PROOFS. What a failing command leaves, and the opcode that STATUS then reports (60_exceptions.md R220, R221). -/

namespace Sys2Proof

/-! ### LAST_OP: a decoded command's opcode is field OP of its word -/

/-- The commands a row of the opcode map selects between by E. -/
def OpcodeRow.commands : OpcodeRow → List Instr
  | .plain _ i => [i]
  | .flagged _ little big => [little, big]

theorem mem_commands_of_decodeRow {e : BitVec 1} {rsv : BitVec 23} {r : OpcodeRow} {i : Instr}
    (h : decodeRow e rsv r = .ok i) : i ∈ r.commands := by
  cases r with
  | plain op j =>
    simp only [decodeRow] at h
    split at h
    · cases h
    · exact List.mem_singleton.2 (Except.ok.inj h).symm
  | flagged op little big =>
    simp only [decodeRow] at h
    split at h
    · cases h
    · obtain rfl := Except.ok.inj h
      cases orderOfE e <;> simp [OpcodeRow.commands]

/-- The decoder's map and `Instr.opcode` give each command the same opcode (R75). -/
theorem opcode_of_mem_commands {r : OpcodeRow} (hr : r ∈ opcodeMap) {i : Instr} (hi : i ∈ r.commands) :
    i.opcode = r.op := by
  revert i r
  decide

theorem opcode_of_decode {w : Word} {i : Instr} (h : decode w = .ok i) : i.opcode = wordOp w := by
  rw [decode] at h
  split at h
  · cases h
  · next r hr =>
    have hop : r.op = wordOp w := eq_of_beq (List.find?_some hr :)
    exact (opcode_of_mem_commands (List.mem_of_find?_eq_some hr) (mem_commands_of_decodeRow h)).trans hop

end Sys2Proof

namespace Sys2Proof.Machine

/-! ### The word a failure leaves -/

theorem cause_mem_statusPairs (c : Cause) : (c.errClass.code, c.code) ∈ statusPairs := by
  cases c <;> decide

theorem errClass_code_ne_zero (c : ErrClass) : c.code ≠ 0 := by
  cases c <;> decide

/-- Taking an error replaces STATUS by the failure word of a pair of R220's table other than NONE. -/
theorem failCommand_pair (op : Byte) (c : Cause) (s : State) :
    ∃ p ∈ statusPairs, p.1 ≠ 0 ∧ failCommand op c s = s.setStatus (failWord op.toNat p.1.toNat p.2.toNat) :=
  ⟨_, cause_mem_statusPairs c, errClass_code_ne_zero _, by rw [failCommand_eq, failStatus_eq]⟩

/-! ### ERR tells that an error was taken -/

theorem exec_of_statusErr_one {i : Instr} {s t : State} (h : exec i s = .next t) (he : statusErr t.status = 1) :
    ∃ c, t = failCommand i.opcode c s := by
  rcases exec_next h with ⟨u, _, rfl⟩ | hc
  · rw [commitCommand_status, statusErr_okStatus] at he
    exact absurd he (by decide)
  · exact hc

/-- Whether the decoder or the command raised the error, LAST_OP is the low byte of the word. -/
theorem performCommand_of_statusErr_one {s t : State} (h : performCommand s = .next t) (he : statusErr t.status = 1) :
    ∃ c, t = failCommand (wordOp s.cmd) c s := by
  cases hd : decode s.cmd with
  | ok i => exact opcode_of_decode hd ▸ exec_of_statusErr_one (performCommand_decoded hd ▸ h) he
  | error e =>
    rw [performCommand_illegal hd] at h
    exact ⟨_, (Host.Outcome.next.inj h).symm⟩

theorem wordOp_setWidth_toNat (v : DWord) : (wordOp (v.setWidth 32)).toNat = v.toNat % 256 := by
  rw [wordOp_toNat, BitVec.toNat_setWidth]
  omega

/-- Settles O21: ERR is 1 only after `failCommand`, which sets STATUS and nothing else. -/
theorem failureChangesOnlyStatus : Obligations.FailureChangesOnlyStatus := by
  refine ⟨fun i s t h he => ?_, fun s t v rest hb h he => ?_⟩
  · obtain ⟨c, rfl⟩ := exec_of_statusErr_one h he
    obtain ⟨p, hp, hne, hword⟩ := failCommand_pair i.opcode c s
    exact ⟨rfl, p, hp, hne, congrArg State.status hword⟩
  · rw [step_write_cmd hb] at h
    obtain ⟨c, rfl⟩ := performCommand_of_statusErr_one h he
    rw [State.setCmd_cmd, ← wordOp_setWidth_toNat]
    exact failCommand_pair _ c _

end Sys2Proof.Machine
end

section
/-! PROOFS. The shapes of access that the host contract admits, and the answer to every other (20_memory.md R51-R54,
70_reset_and_hazards.md R256). -/

namespace Sys2Proof.Machine

open Sys2Proof.Claims

/-! ### What an admitted shape reaches -/

/-- The registers of the contract are the rows of the map, each with its own offset and width. -/
theorem registerRow_inContract (c : Config) {row : RegRow} (h : row ∈ regMap) : InContract c row.off row.bytes :=
  .inl (List.mem_map_of_mem (f := fun r : RegRow => (r.off, r.bytes)) h)

/-- Each kind of access that the contract lists has its target. -/
theorem exists_target_of_inContract {c : Config} {off n : Nat} (hl : c.Legal) (h : InContract c off n) :
    ∃ t, target c off n = some t := by
  rcases h with hreg | ⟨rfl, hlo, hhi⟩ | ⟨rfl, hlo, hhi⟩ | ⟨hr, hn⟩
  · have hrows : (off, n) ∈ regMap.map fun r => (r.off, r.bytes) := hreg
    obtain ⟨row, hrow, heq⟩ := List.mem_map.1 hrows
    obtain ⟨rfl, rfl⟩ := Prod.mk.inj heq
    exact ⟨_, target_row c hrow⟩
  · obtain ⟨k, rfl⟩ := Nat.exists_eq_add_of_le hlo
    exact ⟨_, target_inByte hl (by omega)⟩
  · obtain ⟨k, rfl⟩ := Nat.exists_eq_add_of_le hlo
    exact ⟨_, target_outByte hl (by omega)⟩
  · exact ⟨_, target_reserved hr hn⟩

/-! ### Only admitted shapes have a target -/

/-- The rows of R51 leave no gap but 0x03C-0x03F. -/
theorem exists_row_of_registerOffset {off : Nat} (h : RegisterOffset off) :
    ∃ row ∈ regMap, row.off ≤ off ∧ off < row.off + row.bytes := by
  have hrows : ∀ k < 0x50, RegisterOffset k → ∃ row ∈ regMap, row.off ≤ k ∧ k < row.off + row.bytes := by decide
  exact hrows off (by omega) h

theorem not_registerOffset_of_find_none {off : Nat}
    (h : regMap.find? (fun r => decide (r.off ≤ off ∧ off < r.off + r.bytes)) = none) : ¬ RegisterOffset off := fun hoff => by
  obtain ⟨row, hrow, hin⟩ := exists_row_of_registerOffset hoff
  exact List.find?_eq_none.1 h row hrow (decide_eq_true hin)

/-- The branches of `target` are the kinds of access that the contract lists. -/
theorem inContract_of_target {c : Config} {off n : Nat} {t : Target} (ho : off < 0x40000) (ht : target c off n = some t) :
    InContract c off n := by
  unfold target at ht
  split at ht
  · next row hfind =>
    split_ifs at ht with hwhole
    obtain ⟨rfl, rfl⟩ := hwhole
    exact registerRow_inContract c (List.mem_of_find?_eq_some hfind)
  · next hfind =>
    split_ifs at ht with hin hone hout hone hshape
    · exact .inr (.inl ⟨hone, hin⟩)
    · exact .inr (.inr (.inl ⟨hone, hout⟩))
    · exact .inr (.inr (.inr ⟨⟨ho, not_registerOffset_of_find_none hfind, hin, hout⟩, hshape⟩))

theorem target_eq_none_of_not_inContract {c : Config} {off n : Nat} (ho : off < 0x40000) (h : ¬ InContract c off n) :
    target c off n = none :=
  Option.eq_none_iff_forall_ne_some.2 fun _ ht => h (inContract_of_target ho ht)

/-! ### Commands are never refused -/

theorem runCommand_ne_refused (i : Instr) (s : State) (e : Except Stop State) (r : Refusal) :
    runCommand i s e ≠ .refused r := by
  match e with
  | .ok _ => exact nofun
  | .error (.cause _) => exact nofun
  | .error .unwritten => exact nofun

theorem performCommand_ne_refused (s : State) (r : Refusal) : performCommand s ≠ .refused r := by
  cases hd : decode s.cmd with
  | ok i =>
    rw [performCommand_decoded hd, exec_eq]
    exact runCommand_ne_refused i s _ r
  | error e =>
    rw [performCommand_illegal hd]
    exact nofun

theorem performWrite_ne_refused {s : State} {off n : Nat} {t : Target} (ho : off < 0x40000)
    (ht : target s.cfg off n = some t) (v : DWord) (r : Refusal) :
    performWrite (s.cfg.kecBase + off) n v s ≠ .refused r := by
  by_cases hc : t = .reg .cmd
  · simp only [performWrite, offsetOf_base _ ho, ht, if_pos hc]
    exact performCommand_ne_refused _ r
  · rw [performWrite_some ho ht hc]
    exact nofun

/-- Settles O13: an access has a target exactly when its shape is in the contract, and with a target it is performed. -/
theorem accessContract : Obligations.AccessContract := by
  refine fun s off n v rest hl ho => ⟨fun hout => ?_, fun hin => ?_⟩
  · have ht := target_eq_none_of_not_inContract ho hout
    refine ⟨fun hb => ?_, fun hb => ?_⟩
    · rw [step_bus hb]
      exact performRead_none (s := s.setBus rest) ho ht
    · rw [step_bus hb]
      exact performWrite_none (s := s.setBus rest) ho ht
  · obtain ⟨t, ht⟩ := exists_target_of_inContract hl hin
    refine ⟨fun hb => ⟨_, step_read hb ho ht⟩, fun hb r => ?_⟩
    rw [step_bus hb]
    exact performWrite_ne_refused (s := s.setBus rest) ho ht v r

end Sys2Proof.Machine
end

section
/-! PROOFS. Decoder and encoder undo each other: a word decodes to a command exactly when it is the command's word (30_encoding.md
R70-R75). -/

namespace Sys2Proof

/-! ### The fields of a command's word -/

theorem word_eq_fields (w : Word) : w = wordRsv w ++ wordE w ++ wordOp w := by
  apply BitVec.eq_of_toNat_eq
  rw [BitVec.toNat_append, BitVec.toNat_append, ← Nat.shiftLeft_add_eq_or_of_lt (wordE w).isLt,
    ← Nat.shiftLeft_add_eq_or_of_lt (wordOp w).isLt, wordRsv_toNat, wordE_toNat, wordOp_toNat]
  simp only [Nat.shiftLeft_eq]
  omega

theorem fields_append (rsv : BitVec 23) (e : BitVec 1) (op : Byte) :
    wordRsv (rsv ++ e ++ op) = rsv ∧ wordE (rsv ++ e ++ op) = e ∧ wordOp (rsv ++ e ++ op) = op := by
  have hnat : (rsv ++ e ++ op).toNat = (rsv.toNat * 2 + e.toNat) * 256 + op.toNat := by
    rw [BitVec.toNat_append, BitVec.toNat_append, ← Nat.shiftLeft_add_eq_or_of_lt e.isLt,
      ← Nat.shiftLeft_add_eq_or_of_lt op.isLt]
    simp only [Nat.shiftLeft_eq]
  have he := e.isLt
  have hop := op.isLt
  refine ⟨BitVec.eq_of_toNat_eq ?_, BitVec.eq_of_toNat_eq ?_, BitVec.eq_of_toNat_eq ?_⟩
  · rw [wordRsv_toNat, hnat]; omega
  · rw [wordE_toNat, hnat]; omega
  · rw [wordOp_toNat, hnat]; omega

@[simp] theorem wordRsv_encode (i : Instr) : wordRsv (encode i) = 0 := by
  obtain ⟨hrsv, _, _⟩ := fields_append 0 i.flag i.opcode
  exact hrsv

@[simp] theorem wordE_encode (i : Instr) : wordE (encode i) = i.flag := by
  obtain ⟨_, he, _⟩ := fields_append 0 i.flag i.opcode
  exact he

@[simp] theorem wordOp_encode (i : Instr) : wordOp (encode i) = i.opcode := by
  obtain ⟨_, _, hop⟩ := fields_append 0 i.flag i.opcode
  exact hop

theorem eq_encode_of_fields {w : Word} {i : Instr} (hrsv : wordRsv w = 0) (he : wordE w = i.flag)
    (hop : wordOp w = i.opcode) : w = encode i := by
  rw [word_eq_fields w, hrsv, he, hop, encode]

/-! ### The rows of the opcode map -/

/-- A row's opcode selects no other row. -/
theorem opcodeMap_find_row {r : OpcodeRow} (h : r ∈ opcodeMap) : opcodeMap.find? (fun x => x.op == r.op) = some r := by
  revert r
  decide

/-- No command is missing from the map. -/
theorem exists_row_of_instr (i : Instr) : ∃ r ∈ opcodeMap, i ∈ r.commands := by
  cases i with
  | i2b o | l2b o | b2i o | b2l o => cases o <;> decide
  | _ => decide

/-- The flags of a row's commands, in the order in which E selects them. -/
theorem flags_of_row {r : OpcodeRow} (h : r ∈ opcodeMap) :
    r.commands.map Instr.flag = if r.takesFlag = true then [0, 1] else [0] := by
  revert r
  decide

/-- A row selects each of its commands by the command's flag. -/
theorem decodeRow_of_mem_commands {r : OpcodeRow} (hr : r ∈ opcodeMap) {i : Instr} (hi : i ∈ r.commands) :
    decodeRow i.flag 0 r = .ok i := by
  revert i r
  decide

/-- What a row accepts has RSV = 0 and, in E, the flag of the command that it selects. -/
theorem fields_of_decodeRow {e : BitVec 1} {rsv : BitVec 23} {r : OpcodeRow} {i : Instr} (hr : r ∈ opcodeMap)
    (h : decodeRow e rsv r = .ok i) : rsv = 0 ∧ e = i.flag := by
  have hflags := flags_of_row hr
  cases r with
  | plain op j =>
    have hj : j.flag = 0 := by simpa [OpcodeRow.commands, OpcodeRow.takesFlag] using hflags
    simp only [decodeRow] at h
    split at h
    · cases h
    · next haccept =>
      obtain ⟨hrsv, he⟩ := not_or.1 haccept
      obtain rfl := Except.ok.inj h
      exact ⟨not_not.1 hrsv, ((BitVec.eq_zero_or_eq_one e).resolve_right he).trans hj.symm⟩
  | flagged op little big =>
    have ⟨hl, hb⟩ : little.flag = 0 ∧ big.flag = 1 := by simpa [OpcodeRow.commands, OpcodeRow.takesFlag] using hflags
    simp only [decodeRow] at h
    split at h
    · cases h
    · next hrsv =>
      obtain rfl := Except.ok.inj h
      refine ⟨not_not.1 hrsv, ?_⟩
      rcases BitVec.eq_zero_or_eq_one e with rfl | rfl
      · exact hl.symm
      · exact hb.symm

/-! ### The two directions -/

/-- The row that the word's OP finds selects the command by the word's E. -/
theorem decode_encode (i : Instr) : decode (encode i) = .ok i := by
  obtain ⟨r, hr, hi⟩ := exists_row_of_instr i
  rw [decode, wordOp_encode, wordE_encode, wordRsv_encode, opcode_of_mem_commands hr hi, opcodeMap_find_row hr]
  exact decodeRow_of_mem_commands hr hi

theorem encode_of_decode {w : Word} {i : Instr} (h : decode w = .ok i) : encode i = w := by
  have hop := opcode_of_decode h
  rw [decode] at h
  split at h
  · cases h
  · next r hr =>
    obtain ⟨hrsv, he⟩ := fields_of_decodeRow (List.mem_of_find?_eq_some hr) h
    exact (eq_encode_of_fields hrsv he hop.symm).symm

/-- The word of a command meets R71-R73: R75 lists its opcode, and E is 0 where the opcode takes no flag. -/
theorem instr_wf (i : Instr) : i.wf = true := by
  obtain ⟨r, hr, hi⟩ := exists_row_of_instr i
  have hop := opcode_of_mem_commands hr hi
  have hflag : i.flag = 0 ∨ r.takesFlag = true := by
    by_cases htakes : r.takesFlag = true
    · exact .inr htakes
    · have hmem : i.flag ∈ r.commands.map Instr.flag := List.mem_map_of_mem hi
      rw [flags_of_row hr, if_neg htakes, List.mem_singleton] at hmem
      exact .inl hmem
  simpa [Instr.wf, CommandFields.wf, wordFields, hop, opcodeDefined_row hr, flagAllowed_row hr] using hflag

/-- Settles O1: each command stands in a row of the map, which its opcode finds and in which its flag selects it. -/
theorem decodeOfEncode : Obligations.DecodeOfEncode := fun i => ⟨instr_wf i, decode_encode i⟩

/-- Settles O2: the decoder accepts only RSV = 0 and the flag and opcode of the command it answers, which are the word. -/
theorem encodeOfDecode : Obligations.EncodeOfDecode := fun _ _ => encode_of_decode

/-- Settles O3: each of the eight words is its command's, so it decodes to it. -/
theorem tableWordsDecode : Obligations.TableWordsDecode :=
  ⟨decode_encode .hexenc, decode_encode (.i2b .big), decode_encode (.b2l .little), decode_encode .b58dec,
    decode_encode .b64dec, decode_encode .b32enc, decode_encode .bbrdbytes, decode_encode .bbwrbits⟩

end Sys2Proof
end

section
/-! PROOFS. One access, taken apart: where it led and what it did; the queue, and what host reads and writes leave unchanged
(20_memory.md R51-R58, R62). -/

namespace Sys2Proof.Machine

open Sys2Proof.Claims

/-! ### What an access reached -/

/-- Everything that an offset can reach. -/
theorem target_cases {c : Config} {off n : Nat} {t : Target} (ht : target c off n = some t) :
    (∃ row ∈ regMap, off = row.off ∧ n = row.bytes ∧ t = .reg row.reg) ∨
    (∃ k < c.inCap, off = inBase + k ∧ t = .inByte k) ∨ (∃ k < c.outCap, off = outBase + k ∧ t = .outByte k) ∨
    t = .reserved := by
  unfold target at ht
  split at ht
  · next row hfind =>
    split_ifs at ht with hwhole
    exact .inl ⟨row, List.mem_of_find?_eq_some hfind, hwhole.1, hwhole.2, (Option.some.inj ht).symm⟩
  · split_ifs at ht with hin hone hout hone hshape
    · exact .inr (.inl ⟨off - inBase, by omega, by omega, (Option.some.inj ht).symm⟩)
    · exact .inr (.inr (.inl ⟨off - outBase, by omega, by omega, (Option.some.inj ht).symm⟩))
    · exact .inr (.inr (.inr (Option.some.inj ht).symm))

theorem lt_inCap_of_target {c : Config} {off n k : Nat} (ht : target c off n = some (.inByte k)) : k < c.inCap := by
  rcases target_cases ht with ⟨_, _, _, _, h⟩ | ⟨j, hj, _, h⟩ | ⟨_, _, _, h⟩ | h
  · cases h
  · cases h; exact hj
  · cases h
  · cases h

theorem off_of_target_outByte {c : Config} {off n k : Nat} (ht : target c off n = some (.outByte k)) :
    off = outBase + k ∧ k < c.outCap := by
  rcases target_cases ht with ⟨_, _, _, _, h⟩ | ⟨_, _, _, h⟩ | ⟨j, hj, hoff, h⟩ | h
  · cases h
  · cases h
  · cases h; exact ⟨hoff, hj⟩
  · cases h

theorem off_of_target_cmd {c : Config} {off n : Nat} (ht : target c off n = some (.reg .cmd)) : off = 0 := by
  have hrow : ∀ row ∈ regMap, row.reg = .cmd → row.off = 0 := by decide
  rcases target_cases ht with ⟨row, hr, hoff, _, h⟩ | ⟨_, _, _, h⟩ | ⟨_, _, _, h⟩ | h
  · exact hoff.trans (hrow row hr (Target.reg.inj h).symm)
  · cases h
  · cases h
  · cases h

theorem addr_of_offsetOf {c : Config} {addr off : Nat} (h : offsetOf c addr = some off) :
    addr = c.kecBase + off ∧ off < 0x40000 := by
  unfold offsetOf spaceSize at h
  split_ifs at h with hin
  have hoff := Option.some.inj h
  omega

/-- A read that is performed has a target, and reads it. -/
theorem performRead_next {addr n : Nat} {s t : State} (h : performRead addr n s = .next t) :
    ∃ off g, offsetOf s.cfg addr = some off ∧ target s.cfg off n = some g ∧ t = readTarget g s := by
  unfold performRead at h
  split at h
  · cases h
  · next off hoff =>
    split at h
    · cases h
    · next g hg => exact ⟨off, g, hoff, hg, (Host.Outcome.next.inj h).symm⟩

/-- A write that is performed has a target: CMD, whose command it performs, or another, which it stores to. -/
theorem performWrite_next {addr n : Nat} {v : DWord} {s t : State} (h : performWrite addr n v s = .next t) :
    ∃ off g, offsetOf s.cfg addr = some off ∧ target s.cfg off n = some g ∧
      ((g = .reg .cmd ∧ performCommand (s.setCmd (v.setWidth 32)) = .next t) ∨
        (g ≠ .reg .cmd ∧ t = writeTarget g v s)) := by
  unfold performWrite at h
  split at h
  · cases h
  · next off hoff =>
    split at h
    · cases h
    · next g hg =>
      refine ⟨off, g, hoff, hg, ?_⟩
      split_ifs at h with hc
      · subst hc
        exact .inl ⟨rfl, h⟩
      · exact .inr ⟨hc, (Host.Outcome.next.inj h).symm⟩

/-! ### The queue -/

@[simp] theorem readTarget_bus (g : Target) (s : State) : (readTarget g s).bus = s.bus := by
  rw [readTarget_frame]

@[simp] theorem readTarget_cfg (g : Target) (s : State) : (readTarget g s).cfg = s.cfg := by
  rw [readTarget_frame]

theorem writeTarget_bus {g : Target} (v : DWord) (s : State) (hc : g ≠ .reg .cmd) : (writeTarget g v s).bus = s.bus := by
  rw [writeTarget_frame v s hc]

/-- Performing a command leaves the build and the queue. -/
theorem performCommand_sameOperands {s t : State} (h : performCommand s = .next t) : SameOperands s t := by
  cases hd : decode s.cmd with
  | ok i => exact exec_sameOperands (performCommand_decoded hd ▸ h)
  | error e =>
    rw [performCommand_illegal hd] at h
    obtain rfl := Host.Outcome.next.inj h
    exact sameOperands_refl s

/-- No access puts another in the queue or takes one off. -/
theorem performAccess_bus {a : Access} {s t : State} (h : performAccess a s = .next t) : t.bus = s.bus := by
  cases a with
  | read addr n =>
    obtain ⟨off, g, _, _, rfl⟩ := performRead_next h
    exact readTarget_bus g s
  | write addr n v =>
    obtain ⟨off, g, _, _, ⟨_, hcmd⟩ | ⟨hc, rfl⟩⟩ := performWrite_next h
    · obtain ⟨_, _, _, _, _, _, hbus, _⟩ := performCommand_sameOperands hcmd
      exact hbus
    · exact writeTarget_bus v s hc
  | reset =>
    obtain rfl := Host.Outcome.next.inj h
    rfl

/-- Settles O7: a step takes the oldest access off the queue, and performing it leaves the queue. -/
theorem accessesRunInOrder : Obligations.AccessesRunInOrder := by
  refine ⟨fun s => step_idle, fun s a rest hb => ⟨step_bus hb, fun t ht => ?_⟩⟩
  rw [step_bus hb] at ht
  exact performAccess_bus ht

/-- Settles O5: what a write of CMD performs is the command that the decoder reads from the word. -/
theorem stepRunsDecodedCommand : Obligations.StepRunsDecodedCommand := fun s v rest _ hb hd =>
  (step_write_cmd hb).trans (performCommand_decoded (s := (s.setBus rest).setCmd (v.setWidth 32)) hd)

/-! ### Host reads -/

theorem readTarget_setBus (g : Target) (s : State) (q : List Access) :
    readTarget g (s.setBus q) = (readTarget g s).setBus q := by
  cases g with
  | reg r => cases r <;> rfl
  | outByte k =>
    by_cases hk : k < s.outLen.toNat <;> simp only [readTarget, State.setBus_outLen, hk, if_true, if_false] <;> rfl
  | _ => rfl

/-- A read that is not a draw, done again, leaves the state that the first left. -/
theorem step_readTarget {s : State} {off n : Nat} {g : Target} {rest : List Access}
    (hb : s.bus = .read (s.cfg.kecBase + off) n :: rest) (ho : off < 0x40000) (hg : target s.cfg off n = some g)
    (hbelow : ∀ k, g = .outByte k → k < s.outLen.toNat) :
    step (readTarget g s) = .next ((readTarget g s).setBus rest) := by
  rw [step_read (s := readTarget g s) (by rw [readTarget_bus, readTarget_cfg, hb]) ho (by rw [readTarget_cfg, hg]),
    readTarget_setBus, readTarget_again hbelow]

theorem step_read_again {s t : State} {addr n : Nat} {rest : List Access}
    (hb : s.bus = .read addr n :: .read addr n :: rest) (ht : step s = .next t) (hd : ¬ ReadsBeyondResult s addr) :
    step t = .next (t.setBus rest) := by
  rw [step_bus hb] at ht
  obtain ⟨off, g, hoff, hg, rfl⟩ := performRead_next ht
  obtain ⟨haddr, ho⟩ := addr_of_offsetOf hoff
  refine step_readTarget (by rw [← haddr]; rfl) ho hg ?_
  rintro k rfl
  obtain ⟨hk, hcap⟩ := off_of_target_outByte hg
  simp only [State.setBus_cfg, State.setBus_outLen, outBase] at *
  omega

/-! ### Host writes -/

/-- A write at an address other than that of CMD stores and does nothing else. -/
theorem step_write_next {s t : State} {addr n : Nat} {v : DWord} {rest : List Access} (hb : s.bus = .write addr n v :: rest)
    (ha : addr ≠ s.cfg.kecBase) (ht : step s = .next t) :
    ∃ g, g ≠ .reg .cmd ∧ t = writeTarget g v (s.setBus rest) := by
  rw [step_bus hb] at ht
  obtain ⟨off, g, hoff, hg, ⟨rfl, _⟩ | ⟨hc, rfl⟩⟩ := performWrite_next ht
  · obtain ⟨hbase, _⟩ := addr_of_offsetOf hoff
    exact absurd (by rw [hbase, off_of_target_cmd hg, State.setBus_cfg, Nat.add_zero]) ha
  · exact ⟨g, hc, rfl⟩

/-- Settles O58: a read changes the returned value and the draws alone, and only a write of CMD reaches more than IN, IN_LEN, ARG0
and ARG1. -/
theorem hostReadsHaveNoSideEffects : Obligations.HostReadsHaveNoSideEffects := by
  refine ⟨fun s t addr n rest hb ht => ?_, fun s t addr n rest => step_read_again, fun s t addr n v rest hb ha ht => ?_⟩
  · rw [step_bus hb] at ht
    obtain ⟨_, g, _, _, rfl⟩ := performRead_next ht
    exact readTarget_frame g (s.setBus rest)
  · obtain ⟨g, hc, rfl⟩ := step_write_next hb ha ht
    exact writeTarget_frame v (s.setBus rest) hc

end Sys2Proof.Machine
end

section
/-! PROOFS. The values that host accesses carry: registers, the two windows, and the accesses of LDIN (20_memory.md R51-R53,
30_encoding.md R78). -/

namespace Sys2Proof.Machine

open Sys2Proof.Claims

/-! ### Registers -/

/-- BB_MODE as the register block writes it (10_state.md R36). -/
theorem mode_code_eq (m : WriteMode) :
    (m.code.setWidth 64 : DWord) = match m with | .none => 0 | .byte => 1 | .bit => 2 := by
  cases m <;> rfl

/-- CFG_POLICY as a sum of bits, in each of the 64 builds that differ in P7-P12 (10_state.md R31). -/
theorem policyWord_toNat (c : Config) : (policyWord c).toNat =
    (if c.b64Tail1 = .reject then 1 else 0) + (if c.bbMixPolicy = .independent then 2 else 0)
      + (if c.bbBitMerge = .or then 4 else 0) + (if c.bech32DataCase = .fold then 8 else 0)
      + (if c.hex0xUpper = .accept then 16 else 0) + (if c.intPadLE = .msb then 32 else 0) := by
  unfold policyWord
  cases c.b64Tail1 <;> cases c.bbMixPolicy <;> cases c.bbBitMerge <;> cases c.bech32DataCase <;> cases c.hex0xUpper <;>
    cases c.intPadLE <;> rfl

/-- What a read of a row of the map returns. -/
def rowRead (s : State) (row : RegRow) : Nat × Nat × DWord := (row.off, row.bytes, regValue s row.reg)

/-- The register block is the map with the values of the registers, and the reserved 0x03C between BB_MODE and CFG_IN_CAP. -/
theorem registerBlock_eq (s : State) :
    registerBlock s = (regMap.take 12).map (rowRead s) ++ (0x03C, 4, 0) :: (regMap.drop 12).map (rowRead s) := by
  have hmode := mode_code_eq s.buf.mode
  have hpolicy : ((policyWord s.cfg).setWidth 64 : DWord) = _ := (BitVec.ofNat_toNat ..).symm.trans
    (congrArg (BitVec.ofNat 64) (policyWord_toNat s.cfg))
  simp only [registerBlock, regMap, rowRead, regValue, hmode, hpolicy, List.take_succ_cons, List.take_zero,
    List.drop_succ_cons, List.drop_zero, List.map_cons, List.map_nil, List.cons_append, List.nil_append] <;> rfl

theorem row_of_mem_rowReads {s : State} {rows : List RegRow} {off n : Nat} {v : DWord}
    (h : (off, n, v) ∈ rows.map (rowRead s)) : ∃ row ∈ rows, row.off = off ∧ row.bytes = n ∧ regValue s row.reg = v := by
  obtain ⟨row, hrow, heq⟩ := List.mem_map.1 h
  exact ⟨row, hrow, by simpa only [rowRead, Prod.mk.injEq] using heq⟩

theorem mem_registerBlock {s : State} {off n : Nat} {v : DWord} (h : (off, n, v) ∈ registerBlock s) :
    (∃ row ∈ regMap, row.off = off ∧ row.bytes = n ∧ regValue s row.reg = v) ∨ (off = 0x03C ∧ n = 4 ∧ v = 0) := by
  rw [registerBlock_eq, List.mem_append, List.mem_cons] at h
  rcases h with h | h | h
  · obtain ⟨row, hrow, hread⟩ := row_of_mem_rowReads h
    exact .inl ⟨row, List.mem_of_mem_take hrow, hread⟩
  · exact .inr (by simpa using h)
  · obtain ⟨row, hrow, hread⟩ := row_of_mem_rowReads h
    exact .inl ⟨row, List.mem_of_mem_drop hrow, hread⟩

theorem regValue_setBus (s : State) (q : List Access) (r : Reg) : regValue (s.setBus q) r = regValue s r := by
  cases r <;> rfl

/-- Settles O8: a row of the map is read as its register, and 0x03C as a reserved offset. -/
theorem registerReadsReturnState : Obligations.RegisterReadsReturnState := by
  intro s off n v rest hv hb
  rcases mem_registerBlock hv with ⟨row, hrow, rfl, rfl, rfl⟩ | ⟨rfl, rfl, rfl⟩
  · rw [step_read hb (regMap_off_lt hrow) (target_row _ hrow), readTarget, regValue_setBus]
  · have hres : ReservedOffset s.cfg 0x03C := ⟨by decide, by decide, by omega, by omega⟩
    exact step_read hb (by decide) (target_reserved hres (.inr ⟨rfl, rfl⟩))

theorem step_write_inLen {s : State} {v : DWord} {rest : List Access}
    (hb : s.bus = .write (s.cfg.kecBase + 0x008) 4 v :: rest) : step s = .next ((s.setBus rest).setInLen (v.setWidth 32)) :=
  step_write hb (t := .reg .inLen) (by decide) rfl (by decide)

/-- Settles O9: the three registers that store and are not CMD. -/
theorem registerWritesStore : Obligations.RegisterWritesStore := by
  refine fun s v rest => ⟨step_write_inLen, fun hb => ?_, fun hb => ?_⟩
  · exact step_write hb (t := .reg .arg0) (by decide) rfl (by decide)
  · exact step_write hb (t := .reg .arg1) (by decide) rfl (by decide)

/-! ### Windows -/

theorem step_write_inByte {s : State} {k : Nat} {v : DWord} {rest : List Access} (hl : s.cfg.Legal) (hk : k < s.cfg.inCap)
    (hb : s.bus = .write (s.cfg.kecBase + (0x10000 + k)) 1 v :: rest) :
    step s = .next ((s.setBus rest).setInWin (s.inWin.insert k (v.setWidth 8))) := by
  have ⟨⟨_, hin⟩, _⟩ := hl
  exact step_write hb (by omega) (target_inByte hl hk) nofun

theorem step_read_inByte {s : State} {k : Nat} {rest : List Access} (hl : s.cfg.Legal) (hk : k < s.cfg.inCap)
    (hb : s.bus = .read (s.cfg.kecBase + (0x10000 + k)) 1 :: rest) :
    step s = .next ((s.setBus rest).returnRead ((s.inAt k).setWidth 64)) := by
  have ⟨⟨_, hin⟩, _⟩ := hl
  exact step_read hb (by omega) (target_inByte hl hk)

/-- Settles O11: the write lists the byte at its index in IN, and the read looks it up. -/
theorem inWindowReadAfterWrite : Obligations.InWindowReadAfterWrite := by
  refine fun s k v rest hl hk => ⟨fun hb => ?_, fun hb => ?_⟩
  · exact ⟨_, step_write_inByte hl hk hb, Memory.lookup_insert_same _ _ _, fun j hj => Memory.lookup_insert_ne _ _ hj⟩
  · exact ⟨s.inAt k, step_read_inByte hl hk hb, fun c hc => State.inAt_of_some hc⟩

/-- A read of an OUT byte below OUT_LEN returns it, and from OUT_LEN on draws a byte. -/
theorem step_read_outByte {s : State} {k : Nat} {rest : List Access} (hl : s.cfg.Legal) (hk : k < s.cfg.outCap)
    (hb : s.bus = .read (s.cfg.kecBase + (0x20000 + k)) 1 :: rest) :
    step s = .next (if k < s.outLen.toNat then (s.setBus rest).returnRead ((s.outAt k).setWidth 64)
      else (s.setBus rest).returnDraw) := by
  have ⟨_, ⟨_, hout⟩, _⟩ := hl
  exact step_read hb (by omega) (target_outByte hl hk)

/-- Settles O12: a write to OUT is ignored; a read looks the byte up below OUT_LEN and draws one from there on. -/
theorem outWindowReads : Obligations.OutWindowReads := by
  refine fun s k v rest hl hk => ⟨fun hb => ?_, fun hb => ⟨fun hlen => ?_, fun hlen => ?_⟩⟩
  · have ⟨_, ⟨_, hout⟩, _⟩ := hl
    exact step_write hb (by omega) (target_outByte hl hk) nofun
  · refine ⟨s.outAt k, ?_, fun c hc => State.outAt_of_some hc⟩
    rw [step_read_outByte hl hk hb, if_pos hlen]
  · refine ⟨Config.freeByte s.draws, ?_⟩
    rw [step_read_outByte hl hk hb, if_neg (Nat.not_lt.2 hlen)]
    rfl

/-! ### LDIN -/

/-- The byte writes of LDIN from index `k` on, one a step, write the bytes to IN from `k` on. -/
theorem run_asmBytes (b : List Byte) : ∀ (k : Nat) (s : State) (rest : List Access), s.cfg.Legal →
    k + b.length ≤ s.cfg.inCap → s.bus = asmBytes s.cfg k b ++ rest →
    Sys2Proof.core.run b.length s = .next ((s.setBus rest).setInWin (s.inWin.insertRun k b)) := by
  induction b with
  | nil =>
    intro k s rest _ _ hb
    obtain rfl : s.bus = rest := hb
    rfl
  | cons x b ih =>
    intro k s rest hl hk hb
    rw [List.length_cons] at hk
    have hx : ((x.setWidth 64 : DWord).setWidth 8 : Byte) = x := by simp
    have hstep := step_write_inByte hl (k := k) (by omega) hb
    rw [hx] at hstep
    exact (run_next hstep).trans (ih (k + 1) ((s.setBus (asmBytes s.cfg (k + 1) b ++ rest)).setInWin (s.inWin.insert k x))
      rest hl (by simp only [State.setInWin_cfg, State.setBus_cfg]; omega) rfl)

/-- Settles O14: the byte writes load IN, and the last access stores the length in IN_LEN. -/
theorem ldinLoadsInput : Obligations.LdinLoadsInput := by
  intro s b rest hl hlen hb
  have ⟨⟨_, hcap⟩, _⟩ := hl
  rw [asmLdin, List.append_assoc] at hb
  have hbytes := run_asmBytes b 0 s _ hl (by omega) hb
  have hlast := step_write_inLen (rest := rest) (v := BitVec.ofNat 64 b.length)
    (s := (s.setBus (memWrite s.cfg 0x008 4 (BitVec.ofNat 64 b.length) :: rest)).setInWin (s.inWin.insertRun 0 b)) rfl
  refine ⟨_, (run_add hbytes).trans ((run_next hlast).trans (run_zero _)), ⟨?_, hlen, fun k hk => ?_⟩, rfl, fun k hk => ?_,
    rfl⟩
  · simp only [State.setInLen_inLen, BitVec.toNat_setWidth, BitVec.toNat_ofNat]
    omega
  · exact (Memory.lookup_insertRun b s.inWin 0 k).trans (by rw [if_pos (by omega), Nat.sub_zero])
  · exact (Memory.lookup_insertRun b s.inWin 0 k).trans (if_neg (by omega))

end Sys2Proof.Machine
end

section
/-! PROOFS. Reset, and the invariant of the machine: what each kind of update must meet to keep it, and why every effect of a
command, every access and every step does (10_state.md R29, R33-R37, 70_reset_and_hazards.md R250). -/

namespace Sys2Proof.Machine

open Sys2Proof.Claims

/-! ### Reset -/

theorem statusLegal_zero : StatusLegal 0 := by decide

theorem storeIs_empty : StoreIs Buffer.empty [] := ⟨rfl, fun k hk => absurd hk (Nat.not_lt_zero k)⟩

/-- Settles O15: after either reset only the bus side and the epoch can differ from `State.resetOf`. -/
theorem resetValues : Obligations.ResetValues := by
  refine ⟨fun c s hs => ?_, fun s rest hb => step_bus hb⟩
  have hreset : ∃ q r d e, s = { State.resetOf c with bus := q, readData := r, draws := d, epoch := e } := by
    rcases hs with rfl | ⟨u, rfl, rfl⟩
    · exact ⟨_, _, _, _, rfl⟩
    · exact ⟨_, _, _, _, rfl⟩
  obtain ⟨q, r, d, e, rfl⟩ := hreset
  exact ⟨rfl, fun _ => rfl, fun _ => rfl, rfl, rfl, rfl, rfl, rfl, rfl, rfl, rfl, storeIs_empty, rfl, rfl, rfl,
    Buffer.inv_empty c.bbMaxCap⟩

theorem inv_resetOf {c : Config} (hl : c.Legal) : (State.resetOf c).Inv :=
  ⟨hl, rfl, rfl, Nat.zero_le _, Buffer.inv_empty c.bbMaxCap, statusLegal_zero⟩

/-- Settles O16: reset meets the invariant in every legal build, and the standard build is legal. -/
theorem invariantAtReset : Obligations.InvariantAtReset := inv_resetOf (by decide)

/-! ### STATUS -/

theorem statusLegal_statusOf {cls : BitVec 3} {cause : Byte} {err : BitVec 1} (op : Byte) (hp : (cls, cause) ∈ statusPairs)
    (he : err = 0 ↔ cls = 0) (hc : cls = 0 ↔ cause = 0) : StatusLegal (statusOf op cause cls err 0) := by
  obtain ⟨_, hcause, hcls, herr, hbusy⟩ := statusOf_fields op cause cls err 0
  obtain ⟨hlow, hhigh⟩ := statusOf_reserved op cause cls err 0
  rw [StatusLegal, hcause, hcls, herr, hbusy]
  exact ⟨rfl, hlow, hhigh, hp, he, hc⟩

theorem statusLegal_okStatus (op : Byte) : StatusLegal (okStatus op) :=
  statusLegal_statusOf op (by decide) (by decide) (by decide)

theorem statusLegal_failStatus (op : Byte) (c : Cause) : StatusLegal (failStatus op c) := by
  have hcls := errClass_code_ne_zero c.errClass
  have hcode : c.code ≠ 0 := by cases c <;> decide
  exact statusLegal_statusOf op (cause_mem_statusPairs c) (iff_of_false (by decide) hcls) (iff_of_false hcls hcode)

/-! ### Updates that keep the invariant -/

section
variable {s : State} (h : s.Inv)
include h

theorem inv_setStatus {w : Word} (hw : StatusLegal w) : (s.setStatus w).Inv := by
  obtain ⟨hl, hin, hout, hlen, hbuf, _⟩ := h
  exact ⟨hl, hin, hout, hlen, hbuf, hw⟩

theorem inv_setOut {m : Memory} {n : Word} (hm : m.windowWf s.cfg.outCap = true) (hn : n.toNat ≤ s.cfg.outCap) :
    (s.setOut m n).Inv := by
  obtain ⟨hl, hin, _, _, hbuf, hst⟩ := h
  exact ⟨hl, hin, hm, hn, hbuf, hst⟩

theorem inv_setBuf {b : Buffer} (hb : b.Inv s.cfg.bbMaxCap) : (s.setBuf b).Inv := by
  obtain ⟨hl, hin, hout, hlen, _, hst⟩ := h
  exact ⟨hl, hin, hout, hlen, hb, hst⟩

theorem inv_setInWin {m : Memory} (hm : m.windowWf s.cfg.inCap = true) : (s.setInWin m).Inv := by
  obtain ⟨hl, _, hout, hlen, hbuf, hst⟩ := h
  exact ⟨hl, hm, hout, hlen, hbuf, hst⟩

/-- An emission that fits keeps OUT canonical and OUT_LEN within OUT_CAP. -/
theorem inv_emit {b : List Byte} (hb : b.length ≤ s.cfg.outCap) :
    (s.setOut (s.outWin.insertRun 0 b) (BitVec.ofNat 32 b.length)).Inv := by
  have ⟨_, _, hout, _⟩ := h
  refine inv_setOut h (Memory.windowWf_insertRun b hout (by omega)) ?_
  rw [BitVec.toNat_ofNat]
  exact (Nat.mod_le _ _).trans hb

/-- The byte cursor may stand anywhere up to BB_CAP (R37). -/
theorem inv_setPos {p : Nat} (hp : p ≤ s.buf.cap.toNat) : (s.setBuf { s.buf with pos := BitVec.ofNat 32 p }).Inv := by
  obtain ⟨_, hcap, hbit, hstore⟩ := h.buf_inv
  refine inv_setBuf h ⟨?_, hcap, hbit, hstore⟩
  rw [BitVec.toNat_ofNat]
  exact (Nat.mod_le _ _).trans hp

end

/-- A new buffer over canonical bytes has its cursors at 0. -/
theorem inv_newBuffer {m : Nat} {store : Memory} {cap : Word} (hcap : cap.toNat ≤ m)
    (hstore : store.storeWf cap.toNat = true) : ({ Buffer.empty with store := store, cap := cap } : Buffer).Inv m :=
  ⟨Nat.zero_le _, hcap, Nat.zero_le _, hstore⟩

/-! ### Commands -/

/-- What a command commits meets the invariant: windows and STORE stay canonical, the cursors and the capacity within bounds. -/
theorem effect_inv {i : Instr} {s u : State} (h : s.Inv) (he : Effect s i u) : u.Inv := by
  have hbuf := h.buf_inv
  have hmax := h.bbMaxCap_le
  cases he with
  | emits b _ hb => exact inv_emit h hb
  | setsRes v _ => exact h
  | reads n v _ hn => exact (inv_setPos h hn :)
  | b32dec b n hb => exact inv_emit h hb
  | bbnew hn =>
    refine inv_setBuf h (inv_newBuffer ?_ rfl)
    rw [BitVec.toNat_ofNat]
    exact (Nat.mod_le _ _).trans hn
  | bbcopy b hb hn => exact inv_setBuf h (inv_newBuffer hn (Memory.storeWf_storePutRun b rfl (by omega)))
  | bbreset => exact inv_setBuf h (Buffer.inv_empty _)
  | bbsetpos hn => exact inv_setPos h hn
  | bbrdstr n hn hb =>
    have hout := inv_emit h (b := s.buf.store.storeSlice s.buf.pos.toNat n) (by rwa [Memory.storeSlice_length])
    rw [Memory.storeSlice_length] at hout
    exact inv_setPos hout hn
  | bbrdbytes hb hn =>
    have ⟨_, _, hout, hlen, _⟩ := h
    refine inv_setOut (inv_setPos h hn) (Memory.windowWf_insertRun _ hout (by rwa [Memory.storeSlice_length])) ?_
    split
    · rw [BitVec.toNat_ofNat]
      exact (Nat.mod_le _ _).trans (Nat.max_le.2 ⟨hlen, hb⟩)
    · exact hlen
  | writes l _ _ hf => exact inv_setBuf h (Buffer.inv_written l hmax hbuf ((fits_iff hbuf).1 hf))
  | bbwrstr l _ hf hf2 =>
    have htext := (fits_iff hbuf).1 hf
    obtain ⟨hput, hpos⟩ := inv_textPut h htext
    have hend := (fits_iff (s := s.setBuf (textPut s l)) hput).1 hf2
    rw [State.setBuf_buf, hpos] at hend
    exact inv_setBuf h (Buffer.inv_writtenString l hmax hbuf hend)
  | bbwrbits _ _ _ _ ho => exact inv_setBuf h (Buffer.inv_writtenBits _ _ _ hmax hbuf ho)

theorem exec_inv {i : Instr} {s t : State} (h : s.Inv) (hx : exec i s = .next t) : t.Inv := by
  rcases exec_next hx with ⟨u, hu, rfl⟩ | ⟨c, rfl⟩
  · exact inv_setStatus (effect_inv h hu) (statusLegal_okStatus _)
  · exact inv_setStatus h (statusLegal_failStatus _ c)

theorem performCommand_inv {s t : State} (h : s.Inv) (hp : performCommand s = .next t) : t.Inv := by
  cases hd : decode s.cmd with
  | ok i => exact exec_inv h (performCommand_decoded hd ▸ hp)
  | error e =>
    rw [performCommand_illegal hd] at hp
    obtain rfl := Host.Outcome.next.inj hp
    exact inv_setStatus h (statusLegal_failStatus _ _)

/-! ### Accesses and steps -/

theorem readTarget_inv {s : State} (h : s.Inv) (g : Target) : (readTarget g s).Inv := by
  rw [readTarget_frame]
  exact h

/-- Of the writes that perform no command, only that of an IN byte changes what the invariant speaks of. -/
theorem writeTarget_inv {s : State} {g : Target} {off n : Nat} (h : s.Inv) (hg : target s.cfg off n = some g) (v : DWord) :
    (writeTarget g v s).Inv := by
  cases g with
  | reg r => cases r <;> exact h
  | inByte k =>
    have ⟨_, hin, _⟩ := h
    exact inv_setInWin h (Memory.windowWf_insert _ hin (lt_inCap_of_target hg))
  | outByte k => exact h
  | reserved => exact h

theorem performAccess_inv {a : Access} {s t : State} (h : s.Inv) (ha : performAccess a s = .next t) : t.Inv := by
  cases a with
  | read addr n =>
    obtain ⟨_, g, _, _, rfl⟩ := performRead_next ha
    exact readTarget_inv h g
  | write addr n v =>
    obtain ⟨_, g, _, hg, ⟨_, hcmd⟩ | ⟨_, rfl⟩⟩ := performWrite_next ha
    · exact performCommand_inv (s := s.setCmd (v.setWidth 32)) h hcmd
    · exact writeTarget_inv h hg v
  | reset =>
    obtain rfl := Host.Outcome.next.inj ha
    exact inv_resetOf h.legal

/-- Settles O17: a step does nothing, or performs one access on a state that differs in its queue alone. -/
theorem stepKeepsInvariant : Obligations.StepKeepsInvariant := by
  intro s t h ht
  cases hb : s.bus with
  | nil =>
    rw [step_idle hb] at ht
    exact Host.Outcome.next.inj ht ▸ h
  | cons a rest =>
    rw [step_bus hb] at ht
    exact performAccess_inv (s := s.setBus rest) h ht

end Sys2Proof.Machine
end

section
/-! PROOFS. What every command leaves alone, by the effect that it commits: the operands, STATUS after success, OUT, and the parts
of the Byte Buffer (10_state.md R23-R25, R33-R36, 60_exceptions.md R223, 70_reset_and_hazards.md R260). -/

namespace Sys2Proof.Machine

open Sys2Proof.Claims

/-- Settles O20: no effect touches an operand, and a write of an IN byte reaches IN alone. -/
theorem operandsPersist : Obligations.OperandsPersist := by
  refine ⟨fun i s t => exec_sameOperands, fun s t k v rest hl hk hb ht => ?_⟩
  have ⟨⟨_, hin⟩, _⟩ := hl
  rw [step_write hb (by omega) (target_inByte hl hk) nofun] at ht
  obtain rfl := Host.Outcome.next.inj ht
  rfl

/-- Settles O22: ERR is 0 only after a commit, which sets STATUS to the success word. -/
theorem successStatus : Obligations.SuccessStatus := by
  intro i s t hx he
  obtain ⟨u, _, rfl⟩ := exec_of_statusErr_zero hx he
  exact okStatus_eq i.opcode

/-! ### OUT -/

theorem writesOut_of_emitsOnly {i : Instr} : emitsOnly i = true → WritesOut i = true := by
  cases i <;> simp [emitsOnly, WritesOut]

theorem effect_out {i : Instr} {s u : State} (h : Effect s i u) (hi : WritesOut i = false) :
    u.outWin = s.outWin ∧ u.outLen = s.outLen := by
  cases h with
  | emits b he => exact absurd (writesOut_of_emitsOnly he) (by simp [hi])
  | b32dec | bbrdstr | bbrdbytes => cases hi
  | _ => exact ⟨rfl, rfl⟩

/-- Settles O25: the effects that touch OUT or OUT_LEN are those of the commands that emit. -/
theorem outWrittenOnlyByEmitters : Obligations.OutWrittenOnlyByEmitters := by
  intro i s t hi hx
  rcases exec_next hx with ⟨u, hu, rfl⟩ | ⟨c, rfl⟩
  · rw [commitCommand_outWin, commitCommand_outLen]
    exact effect_out hu hi
  · exact ⟨rfl, rfl⟩

/-! ### The Byte Buffer -/

/-- What R33-R36 and R195 (d) allow command `i` to change from buffer `b` to `c`. -/
def BufferStep (i : Instr) (b c : Buffer) : Prop :=
  b.cap.toNat ≤ c.cap.toNat ∧ (i ≠ .bbwrbits → c.bitpos = b.bitpos) ∧
    (i ≠ .bbwrbits → IsByteWrite i = false → c.store = b.store ∧ c.cap = b.cap ∧ c.mode = b.mode) ∧
    (IsByteWrite i = false → MovesCursor i = false → c.pos = b.pos) ∧ (b.mode ≠ .none → c.mode = b.mode)

theorem bufferStep_refl (i : Instr) (b : Buffer) : BufferStep i b b :=
  ⟨le_rfl, fun _ => rfl, fun _ _ => ⟨rfl, rfl, rfl⟩, fun _ _ => rfl, fun _ => rfl⟩

theorem bufferStep_setPos {i : Instr} (hi : MovesCursor i = true) (b : Buffer) (p : Word) :
    BufferStep i b { b with pos := p } :=
  ⟨le_rfl, fun _ => rfl, fun _ _ => ⟨rfl, rfl, rfl⟩, fun _ h => absurd h (by simp [hi]), fun _ => rfl⟩

/-- A byte write may change all but the bit cursor, lets the capacity grow, and sets the mode only where there was none. -/
theorem bufferStep_byteWrite {i : Instr} {b c : Buffer} (hi : IsByteWrite i = true) (hcap : b.cap.toNat ≤ c.cap.toNat)
    (hbit : c.bitpos = b.bitpos) (hmode : b.mode ≠ .none → c.mode = b.mode) : BufferStep i b c :=
  ⟨hcap, fun _ => hbit, fun _ h => absurd h (by simp [hi]), fun h => absurd h (by simp [hi]), hmode⟩

theorem movesCursor_of_readWidth {i : Instr} {n : Nat} : readWidth i = some n → MovesCursor i = true := by
  cases i <;> simp [readWidth, MovesCursor]

theorem isByteWrite_of_writesOnce {i : Instr} : writesOnce i = true → IsByteWrite i = true := by
  cases i <;> simp [writesOnce, IsByteWrite]

/-- Growth never lowers the capacity. -/
theorem Buffer.cap_le_grown {b : Buffer} {m : Nat} (n : Nat) (hm : m ≤ 2 ^ 28) (hc : b.cap.toNat ≤ m) :
    b.cap.toNat ≤ (b.grown m n).cap.toNat := by
  rw [Buffer.grown_cap_toNat hm hc]
  exact le_grownCap hc

theorem effect_bufferStep {i : Instr} {s u : State} (h : s.Inv) (hu : Effect s i u) (hi : MakesBuffer i = false) :
    BufferStep i s.buf u.buf := by
  have hmax := h.bbMaxCap_le
  have hcap := h.cap_le
  cases hu with
  | emits | setsRes | b32dec => exact bufferStep_refl _ s.buf
  | reads n v hr => exact bufferStep_setPos (movesCursor_of_readWidth hr) s.buf _
  | bbnew | bbcopy | bbreset => cases hi
  | bbsetpos | bbrdstr | bbrdbytes => exact bufferStep_setPos rfl s.buf _
  | writes l hw =>
    exact bufferStep_byteWrite (isByteWrite_of_writesOnce hw) (Buffer.cap_le_grown _ hmax hcap) rfl fun hn => if_neg hn
  | bbwrstr l _ hf =>
    have htext := (fits_iff h.buf_inv).1 hf
    obtain ⟨⟨_, hceil, _⟩, _⟩ := inv_textPut h htext
    refine bufferStep_byteWrite rfl ?_ rfl fun hn => if_neg hn
    exact (Buffer.cap_le_grown (b := s.buf) _ hmax hcap).trans (Buffer.cap_le_grown (b := textPut s l) _ hmax hceil)
  | bbwrbits =>
    exact ⟨Buffer.cap_le_grown _ hmax hcap, fun hne => absurd rfl hne, fun hne => absurd rfl hne, fun _ _ => rfl,
      fun hn => if_neg hn⟩

/-- Settles O26: each effect changes the buffer within what its command may change. -/
theorem bufferFrame : Obligations.BufferFrame := by
  intro i s t h hx hi
  rcases exec_next hx with ⟨u, hu, rfl⟩ | ⟨c, rfl⟩
  · rw [commitCommand_buf]
    exact effect_bufferStep h hu hi
  · exact bufferStep_refl i s.buf

end Sys2Proof.Machine
end

section
/-! PROOFS. Every command ends: no pseudocode stops but by an error or at an IN byte that the host has not written, and on an
input that is ready it meets no such byte (93_implementation_defined.md U1, 70_reset_and_hazards.md R261). -/

namespace Sys2Proof.Machine

open Sys2Proof.Claims

/-! ### Pseudocode that reads written bytes only -/

/-- The pseudocode does not stop at an unwritten byte. -/
def ReadsWritten {α : Type} (r : Except Stop α) : Prop := r ≠ .error .unwritten

namespace ReadsWritten

theorem bind {α β : Type} {x : Except Stop α} {f : α → Except Stop β} (hx : ReadsWritten x)
    (hf : ∀ a, x = .ok a → ReadsWritten (f a)) : ReadsWritten (x >>= f) := by
  cases x with
  | ok a => exact hf a rfl
  | error e => exact fun h => hx (congrArg Except.error (Except.error.inj h))

theorem ok {α : Type} (a : α) : ReadsWritten (.ok a) := nofun

theorem raiseIf (bad : Prop) [Decidable bad] (c : Cause) : ReadsWritten (Machine.raiseIf bad c) := by
  unfold Machine.raiseIf
  split <;> exact nofun

theorem orRaise {α : Type} (o : Option α) (c : Cause) : ReadsWritten (Machine.orRaise o c) := by
  cases o <;> exact nofun

theorem emit (b : List Byte) (s : State) : ReadsWritten (Machine.emit b s) := bind (raiseIf _ _) fun _ _ => ok _

theorem ensureCapacity (need : Nat) (s : State) : ReadsWritten (Machine.ensureCapacity need s) := by
  unfold Machine.ensureCapacity
  dsimp only
  split
  · exact bind (raiseIf _ _) fun _ _ => ok _
  · exact ok _

theorem readN (n : Nat) (s : State) : ReadsWritten (Machine.readN n s) := bind (raiseIf _ _) fun _ _ => ok _

theorem readToRes (n : Nat) (f : List Byte → DWord) (s : State) : ReadsWritten (Machine.readToRes n f s) :=
  bind (readN n s) fun _ _ => ok _

theorem writeN (b : List Byte) (s : State) : ReadsWritten (Machine.writeN b s) :=
  bind (ensureCapacity _ s) fun _ _ => ok _

theorem byteWrite (b : List Byte) (s : State) : ReadsWritten (Machine.byteWrite b s) :=
  bind (raiseIf _ _) fun _ _ => bind (writeN b s) fun _ _ => ok _

theorem scanCells (check : Byte → Option Cause) {l : List (Option Byte)} (h : ∀ o ∈ l, o.isSome = true) :
    ReadsWritten (Machine.scanCells check l) := by
  induction l with
  | nil => exact ok _
  | cons o l ih =>
    have ⟨ho, hl⟩ := List.forall_mem_cons.1 h
    obtain ⟨b, rfl⟩ := Option.isSome_iff_exists.1 ho
    unfold Machine.scanCells
    cases check b with
    | some c => exact nofun
    | none =>
      have hrest := ih hl
      cases hscan : Machine.scanCells check l with
      | ok bs => exact nofun
      | error e => exact fun heq => hrest (hscan.trans (congrArg Except.error (Except.error.inj heq)))

/-- `NeedIn` and what follows it, which may take IN_LEN as within IN_CAP. -/
theorem needIn_bind {α : Type} {s : State} {f : Unit → Except Stop α} (hf : ∀ u, Machine.needIn s = .ok u → ReadsWritten (f u)) :
    ReadsWritten (Machine.needIn s >>= f) := bind (raiseIf _ _) hf

end ReadsWritten

/-! ### Input that is ready -/

theorem mem_inCells {s : State} {lo n : Nat} {o : Option Byte} :
    o ∈ inCells s lo n ↔ ∃ k < n, s.inWin.lookup (lo + k) = o := by simp [inCells]

section
variable {s : State} (h : s.InputReady)
include h

/-- Past `NeedIn` the host has written INSEQ. -/
theorem written_of_needIn {u : Unit} (hn : needIn s = .ok u) : ∀ k < s.inLen.toNat, (s.inWin.lookup k).isSome = true :=
  h.resolve_left (Nat.not_lt.2 (needIn_eq_ok.1 hn))

theorem readsWritten_scanCells {u : Unit} (hn : needIn s = .ok u) (check : Byte → Option Cause) {lo n : Nat}
    (hle : lo + n ≤ s.inLen.toNat) : ReadsWritten (scanCells check (inCells s lo n)) := by
  refine .scanCells check fun o ho => ?_
  obtain ⟨k, hk, rfl⟩ := mem_inCells.1 ho
  exact written_of_needIn h hn _ (by omega)

theorem readsWritten_readInByte {u : Unit} (hn : needIn s = .ok u) {k : Nat} (hk : k < s.inLen.toNat) :
    ReadsWritten (readInByte s k) := by
  obtain ⟨b, hb⟩ := Option.isSome_iff_exists.1 (written_of_needIn h hn k hk)
  rw [readInByte, hb]
  exact nofun

theorem readsWritten_inseq {α : Type} {f : List Byte → Except Stop α} (hf : ∀ b, ReadsWritten (f b)) :
    ReadsWritten (readInseq s >>= f) :=
  .bind (.needIn_bind fun _ hn => readsWritten_scanCells h hn _ (by omega)) fun b _ => hf b

/-- No command reads outside INSEQ, and each reads it after `NeedIn`. -/
theorem bodyOf_readsWritten (i : Instr) : ReadsWritten (bodyOf i s) := by
  cases i with
  | hexenc | b58enc | b64enc | b64uenc | to5 => exact readsWritten_inseq h fun _ => .emit _ s
  | hexdec => exact readsWritten_inseq h fun _ => .bind (.raiseIf _ _) fun _ _ => .bind (.orRaise _ _) fun _ _ => .emit _ s
  | i2b o | l2b o => exact .emit _ s
  | b2i o | b2l o =>
    exact .needIn_bind fun _ hn => .bind (.raiseIf _ _) fun _ _ =>
      .bind (readsWritten_scanCells h hn _ (by omega)) fun _ _ => .ok _
  | padp =>
    exact .needIn_bind fun _ hn => .bind (.raiseIf _ _) fun _ _ =>
      .bind (readsWritten_scanCells h hn _ (by omega)) fun _ _ => .emit _ s
  | unpadp =>
    refine .needIn_bind fun _ hn => .bind (.raiseIf _ _) fun _ hne => ?_
    have hne := raiseIf_eq_ok.1 hne
    refine .bind (readsWritten_readInByte h hn (by omega)) fun x _ => .bind (.raiseIf _ _) fun _ hx => ?_
    have hx := raiseIf_eq_ok.1 hx
    exact .bind (readsWritten_scanCells h hn _ (by omega)) fun _ _ =>
      .bind (readsWritten_scanCells h hn _ (by omega)) fun _ _ => .emit _ s
  | ascii => exact .needIn_bind fun _ hn => .bind (readsWritten_scanCells h hn _ (by omega)) fun _ _ => .emit _ s
  | b58dec =>
    refine .needIn_bind fun _ hn => .bind (.scanCells _ fun o ho => ?_) fun _ _ =>
      .bind (.orRaise _ _) fun _ _ => .emit _ s
    obtain ⟨k, hk, rfl⟩ := mem_inCells.1 (List.mem_of_mem_drop ho)
    exact written_of_needIn h hn _ (by omega)
  | b64dec => exact readsWritten_inseq h fun _ => .bind (.orRaise _ _) fun _ _ => .bind (.raiseIf _ _) fun _ _ => .emit _ s
  | b32enc =>
    refine .needIn_bind fun _ hn => .bind (.raiseIf _ _) fun _ hlen => ?_
    have hlen := raiseIf_eq_ok.1 hlen
    exact .bind (.raiseIf _ _) fun _ _ => .bind (readsWritten_scanCells h hn _ (by omega)) fun _ _ =>
      .bind (readsWritten_scanCells h hn _ (by omega)) fun _ _ => .emit _ s
  | b32dec =>
    exact readsWritten_inseq h fun _ => .bind (.orRaise _ _) fun _ _ => .bind (.raiseIf _ _) fun _ _ =>
      .bind (.raiseIf _ _) fun _ _ => .bind (.raiseIf _ _) fun _ _ => .bind (.orRaise _ _) fun _ _ =>
      .bind (.raiseIf _ _) fun _ _ => .bind (.emit _ s) fun _ _ => .ok _
  | from5 =>
    exact .needIn_bind fun _ hn => .bind (readsWritten_scanCells h hn _ (by omega)) fun _ _ =>
      .bind (.raiseIf _ _) fun _ _ => .emit _ s
  | bbnew | bbsetpos => exact .bind (.raiseIf _ _) fun _ _ => .ok _
  | bbcopy =>
    exact .needIn_bind fun _ hn => .bind (.raiseIf _ _) fun _ _ =>
      .bind (readsWritten_scanCells h hn _ (by omega)) fun _ _ => .ok _
  | bbreset | bbgetpos => exact .ok _
  | bbtoout => exact .emit _ s
  | bbrd8 | bbrd16 | bbrdu16 | bbrd32 | bbrd64 =>
    rw [bodyOf]
    exact .readToRes _ _ s
  | bbrdstr => exact .bind (.orRaise _ _) fun _ _ => .bind (.emit _ s) fun _ _ => .ok _
  | bbrdbytes => exact .bind (.raiseIf _ _) fun _ _ => .bind (.readN _ s) fun _ _ => .ok _
  | bbwr8 | bbwr16 | bbwr32 | bbwr64 => exact .byteWrite _ s
  | bbwrstr =>
    exact .bind (.raiseIf _ _) fun _ _ => .needIn_bind fun _ hn => .bind (.ensureCapacity _ s) fun _ _ =>
      .bind (readsWritten_scanCells h hn _ (by omega)) fun _ _ => .bind (.writeN _ _) fun _ _ => .ok _
  | bbwrbytes =>
    refine .bind (.raiseIf _ _) fun _ _ => .needIn_bind fun _ hn => .bind (.raiseIf _ _) fun _ hsrc => ?_
    have hsrc := raiseIf_eq_ok.1 hsrc
    exact .bind (.ensureCapacity _ s) fun _ _ => .bind (readsWritten_scanCells h hn _ (by omega)) fun _ _ => .ok _
  | bbwrbits =>
    exact .bind (.raiseIf _ _) fun _ _ => .bind (.raiseIf _ _) fun _ _ => .bind (.ensureCapacity _ s) fun _ _ =>
      .bind (.raiseIf _ _) fun _ _ => .ok _

end

/-- A command answers a next state, or its pseudocode stopped at an unwritten byte. -/
theorem exec_next_of_readsWritten {i : Instr} {s : State} (h : ReadsWritten (bodyOf i s)) : ∃ t, exec i s = .next t := by
  rw [exec_eq]
  match hb : bodyOf i s with
  | .ok t => exact ⟨_, rfl⟩
  | .error (.cause c) => exact ⟨_, rfl⟩
  | .error .unwritten => exact absurd hb h

theorem fault_of_body {i : Instr} {s : State} (h : bodyOf i s = .error .unwritten) :
    exec i s = .fault (.unwrittenInput i) := by rw [exec_eq, h, runCommand_unwritten]

/-- Settles O18: `runCommand` answers a next state but where the pseudocode stopped at an unwritten byte, which no command does on
an input that is ready. -/
theorem commandsAlwaysEnd : Obligations.CommandsAlwaysEnd := by
  refine fun i s => ⟨?_, fun h => exec_next_of_readsWritten (bodyOf_readsWritten h i)⟩
  by_cases hb : bodyOf i s = .error .unwritten
  · exact .inr (fault_of_body hb)
  · exact .inl (exec_next_of_readsWritten hb)

end Sys2Proof.Machine
end

section
/-! PROOFS. Where a command reads an IN byte that the host has not written, and so faults: once the checks before the read have
passed (93_implementation_defined.md U1; log entry 6). -/

namespace Sys2Proof.Machine

open Sys2Proof.Claims

/-! ### Reads and scans of an unwritten byte -/

theorem scanCells_read_unwritten {l : List (Option Byte)} (h : none ∈ l) :
    scanCells (fun _ => none) l = .error .unwritten := by
  induction l with
  | nil => simp at h
  | cons o l ih =>
    cases o with
    | none => rfl
    | some b => simp only [scanCells, ih (by simpa using h)]

theorem scanCells_passes {check : Byte → Option Cause} {l : List (Option Byte)}
    (h : ∀ o ∈ l, ∃ b, o = some b ∧ check b = none) : ∃ bs, scanCells check l = .ok bs := by
  induction l with
  | nil => exact ⟨[], rfl⟩
  | cons o l ih =>
    obtain ⟨⟨b, rfl, hb⟩, hl⟩ := List.forall_mem_cons.1 h
    obtain ⟨bs, hbs⟩ := ih hl
    exact ⟨b :: bs, by simp only [scanCells, hb, hbs]⟩

theorem refuse_eq_none {bad : Byte → Bool} {c : Cause} {b : Byte} (h : bad b = false) : refuse bad c b = none :=
  if_neg (by simp [h])

/-- A scan of checked bytes passes. -/
theorem scanIn_passes {s : State} {lo n : Nat} {bad : Byte → Bool} (c : Cause)
    (h : ∀ j, lo ≤ j → j < lo + n → ∃ b, s.inWin.lookup j = some b ∧ bad b = false) :
    ∃ bs, scanIn s lo n bad c = .ok bs := by
  refine scanCells_passes fun o ho => ?_
  obtain ⟨j, hj, rfl⟩ := mem_inCells.1 ho
  obtain ⟨b, hb, hbad⟩ := h (lo + j) (by omega) (by omega)
  exact ⟨b, hb, refuse_eq_none hbad⟩

/-- A run ends before an element that differs. -/
theorem leadingCount_le_of_ne {α : Type} [DecidableEq α] {x y : α} {l : List α} {k : Nat} (h : l[k]? = some y) (hy : y ≠ x) :
    leadingCount x l ≤ k := by
  induction l generalizing k with
  | nil => exact Nat.zero_le k
  | cons z l ih =>
    unfold leadingCount
    split
    · next hz =>
      cases k with
      | zero => exact absurd ((Option.some.inj h).symm.trans hz) hy
      | succ k => exact Nat.succ_le_succ (ih (by simpa using h))
    · exact Nat.zero_le k

section
variable {s : State} {k : Nat} (hnone : s.inWin.lookup k = none)
include hnone

theorem readIn_unwritten {lo n : Nat} (hlo : lo ≤ k) (hk : k < lo + n) : readIn s lo n = .error .unwritten := by
  refine scanCells_read_unwritten (mem_inCells.2 ⟨k - lo, by omega, ?_⟩)
  rw [Nat.add_sub_cancel' hlo, hnone]

/-- A scan faults at the first unwritten byte, where every byte before it passes the check. -/
theorem scanIn_unwritten {lo n : Nat} {bad : Byte → Bool} (c : Cause) (hlo : lo ≤ k) (hk : k < lo + n)
    (hp : ∀ j, lo ≤ j → j < k → ∃ b, s.inWin.lookup j = some b ∧ bad b = false) :
    scanIn s lo n bad c = .error .unwritten := by
  refine scanCells_unwritten _ _ (k - lo) ?_ fun j hj => ?_
  · rw [inCells_getElem? (by omega), Nat.add_sub_cancel' hlo, hnone]
  · obtain ⟨b, hb, hbad⟩ := hp (lo + j) (by omega) (by omega)
    exact ⟨b, by rw [inCells_getElem? (by omega), hb], refuse_eq_none hbad⟩

/-! ### The commands -/

variable (hin : s.inLen.toNat ≤ s.cfg.inCap)
include hin

theorem bodyOf_unpadp_last_unwritten (hlast : k + 1 = s.inLen.toNat) : bodyOf .unpadp s = .error .unwritten := by
  have hread : readInByte s (s.inLen.toNat - 1) = .error .unwritten := by
    rw [← hlast, Nat.add_sub_cancel, readInByte, hnone]
  rw [bodyOf, unpadpBody, needIn_ok hin, ok_bind]
  dsimp only
  rw [raiseIf_false _ (by omega), ok_bind, hread, error_bind]

theorem bodyOf_bbwrbytes_unwritten (hm : ¬ ModeConflict .byte s) (hsrc : s.arg0.toNat + s.arg1.toNat ≤ s.inLen.toNat)
    (hf : s.buf.pos.toNat + s.arg1.toNat ≤ s.cfg.bbMaxCap) (hlo : s.arg0.toNat ≤ k) (hhi : k < s.arg0.toNat + s.arg1.toNat) :
    bodyOf .bbwrbytes s = .error .unwritten := by
  rw [bodyOf, bbwrbytesBody, checkMode_ok hm, ok_bind, needIn_ok hin, ok_bind]
  dsimp only
  rw [raiseIf_false _ (by omega), ok_bind, ensureCapacity_grown (.inl hf), ok_bind, readIn_unwritten hnone hlo hhi, error_bind]

variable (hk : k < s.inLen.toNat)
include hk

theorem readInseq_unwritten : readInseq s = .error .unwritten := by
  rw [readInseq, needIn_ok hin, ok_bind, readIn_unwritten hnone (by omega) (by omega)]

theorem readIntBody_unwritten {width : Nat} (value : List Byte → DWord) (h : s.inLen.toNat ≤ width) :
    readIntBody width value s = .error .unwritten := by
  rw [readIntBody, needIn_ok hin, ok_bind, raiseIf_false _ (by omega), ok_bind,
    readIn_unwritten hnone (by omega) (by omega), error_bind]

theorem bodyOf_padp_unwritten (h1 : 1 ≤ s.arg0.toNat) (h255 : s.arg0.toNat ≤ 255) :
    bodyOf .padp s = .error .unwritten := by
  rw [bodyOf, padpBody, needIn_ok hin, ok_bind]
  dsimp only
  rw [raiseIf_false _ (by omega), ok_bind, readIn_unwritten hnone (by omega) (by omega), error_bind]

theorem bodyOf_bbcopy_unwritten (h : s.inLen.toNat ≤ s.cfg.bbMaxCap) : bodyOf .bbcopy s = .error .unwritten := by
  rw [bodyOf, bbcopyBody, needIn_ok hin, ok_bind, raiseIf_false _ (by omega), ok_bind,
    readIn_unwritten hnone (by omega) (by omega), error_bind]

theorem bodyOf_ascii_unwritten (hp : ∀ j < k, ∃ b : Byte, s.inWin.lookup j = some b ∧ b.toNat ≤ 127) :
    bodyOf .ascii s = .error .unwritten := by
  have hpass : ∀ j, 0 ≤ j → j < k → ∃ b : Byte, s.inWin.lookup j = some b ∧ decide (b > 127) = false := fun j _ hj => by
    obtain ⟨b, hb, hle⟩ := hp j hj
    exact ⟨b, hb, decide_eq_false fun hgt => Nat.not_lt.2 hle (BitVec.lt_def.1 hgt)⟩
  rw [bodyOf, asciiBody, needIn_ok hin, ok_bind, scanIn_unwritten hnone .notAscii (by omega) (by omega) hpass, error_bind]

theorem bodyOf_from5_unwritten (hp : ∀ j < k, ∃ b : Byte, s.inWin.lookup j = some b ∧ b.toNat ≤ 31) :
    bodyOf .from5 s = .error .unwritten := by
  have hpass : ∀ j, 0 ≤ j → j < k → ∃ b : Byte, s.inWin.lookup j = some b ∧ decide (b > 31) = false := fun j _ hj => by
    obtain ⟨b, hb, hle⟩ := hp j hj
    exact ⟨b, hb, decide_gt_31_eq_false hle⟩
  rw [bodyOf, from5Body, needIn_ok hin, ok_bind, scanIn_unwritten hnone .dataValue (by omega) (by omega) hpass, error_bind]

/-- The run of `'1'` ends before the unwritten byte, and every character between is in the alphabet. -/
theorem bodyOf_b58dec_unwritten (hp : ∀ j < k, ∃ b : Byte, s.inWin.lookup j = some b ∧ b ∈ s.cfg.b58Alphabet) :
    bodyOf .b58dec s = .error .unwritten := by
  have hcell : ∀ j < s.inLen.toNat, (inCells s 0 s.inLen.toNat)[j]? = some (s.inWin.lookup j) := fun j hj => by
    rw [inCells_getElem? hj, Nat.zero_add]
  have hrun := leadingCount_le_of_ne (x := some (0x31 : Byte)) ((hcell k hk).trans (congrArg some hnone)) nofun
  have hscan : scanCells (refuse (fun x => (b58idx s.cfg x).isNone) .badChar)
      ((inCells s 0 s.inLen.toNat).drop (leadingCount (some 0x31) (inCells s 0 s.inLen.toNat))) = .error .unwritten := by
    refine scanCells_unwritten _ _ (k - leadingCount (some 0x31) (inCells s 0 s.inLen.toNat)) ?_ fun j hj => ?_
    · rw [List.getElem?_drop, Nat.add_sub_cancel' hrun, hcell k hk, hnone]
    · obtain ⟨b, hb, hmem⟩ := hp (leadingCount (some 0x31) (inCells s 0 s.inLen.toNat) + j) (by omega)
      refine ⟨b, by rw [List.getElem?_drop, hcell _ (by omega), hb], refuse_eq_none ?_⟩
      exact Bool.eq_false_iff.2 fun h => b58idx_isNone_iff.1 h hmem
  rw [bodyOf, b58decBody, needIn_ok hin, ok_bind]
  dsimp only
  rw [hscan, error_bind]

/-- The unwritten byte is one of the padding, and the padding before it matches; or it is before the padding, which matches. -/
theorem bodyOf_unpadp_unwritten {x : Byte} (hx : s.inWin.lookup (s.inLen.toNat - 1) = some x) (h1 : 1 ≤ x.toNat)
    (hlen : x.toNat ≤ s.inLen.toNat) (hp : ∀ j, s.inLen.toNat - x.toNat ≤ j → j < s.inLen.toNat →
      (j < k ∨ k < s.inLen.toNat - x.toNat) → s.inWin.lookup j = some x) :
    bodyOf .unpadp s = .error .unwritten := by
  have hread : readInByte s (s.inLen.toNat - 1) = .ok x := by rw [readInByte, hx]
  rw [bodyOf, unpadpBody, needIn_ok hin, ok_bind]
  dsimp only
  rw [raiseIf_false _ (by omega), ok_bind, hread, ok_bind, raiseIf_false _ (by omega), ok_bind]
  by_cases hpad : s.inLen.toNat - x.toNat ≤ k
  · rw [scanIn_unwritten (n := x.toNat) (bad := fun y => y != x) hnone .badPadding hpad (by omega) fun j hlo hj =>
      ⟨x, hp j hlo (by omega) (.inl hj), bne_self_eq_false x⟩, error_bind]
  · obtain ⟨bs, hbs⟩ := scanIn_passes (s := s) (lo := s.inLen.toNat - x.toNat) (n := x.toNat) (bad := fun y => y != x)
      .badPadding fun j hlo hj => ⟨x, hp j hlo (by omega) (.inr (by omega)), bne_self_eq_false x⟩
    rw [hbs, ok_bind, readIn_unwritten hnone (by omega) (by omega), error_bind]

/-- The unwritten byte is one of the prefix, or the prefix is whole and it is one of the data. -/
theorem bodyOf_b32enc_unwritten (h1 : 1 ≤ s.arg0.toNat) (h83 : s.arg0.toNat ≤ 83) (hlen : s.arg0.toNat ≤ s.inLen.toNat)
    (hp : ∀ j < k, ∃ b : Byte, s.inWin.lookup j = some b ∧ (j < s.arg0.toNat → PrefixByte b) ∧
      (s.arg0.toNat ≤ j → b.toNat ≤ 31)) : bodyOf .b32enc s = .error .unwritten := by
  have hprefix : ∀ j < k, j < s.arg0.toNat → ∃ b, s.inWin.lookup j = some b ∧ hrpCharBad b = false := fun j hj hlt => by
    obtain ⟨b, hb, hpre, _⟩ := hp j hj
    exact ⟨b, hb, hrpCharBad_eq_false_iff.2 (hpre hlt)⟩
  have hdata : ∀ j, s.arg0.toNat ≤ j → j < k → ∃ b, s.inWin.lookup j = some b ∧ decide (b > 31) = false :=
    fun j hlo hj => by
      obtain ⟨b, hb, _, hle⟩ := hp j hj
      exact ⟨b, hb, decide_gt_31_eq_false (hle hlo)⟩
  rw [bodyOf, b32encBody, needIn_ok hin, ok_bind]
  dsimp only
  rw [raiseIf_false _ (by omega), ok_bind, raiseIf_false _ (by omega), ok_bind]
  by_cases hpre : k < s.arg0.toNat
  · rw [scanIn_unwritten hnone .hrpChar (by omega) (by omega) fun j _ hj => hprefix j hj (by omega), error_bind]
  · obtain ⟨bs, hbs⟩ := scanIn_passes (s := s) (lo := 0) (n := s.arg0.toNat) (bad := hrpCharBad) .hrpChar
      fun j _ hj => hprefix j (by omega) (by omega)
    rw [hbs, ok_bind, scanIn_unwritten hnone .dataValue (by omega) (by omega) hdata, error_bind]

theorem bodyOf_bbwrstr_unwritten (hm : ¬ ModeConflict .byte s) (hf : s.buf.pos.toNat + s.inLen.toNat ≤ s.cfg.bbMaxCap) :
    bodyOf .bbwrstr s = .error .unwritten := by
  rw [bodyOf, bbwrstrBody, checkMode_ok hm, ok_bind, needIn_ok hin, ok_bind, ensureCapacity_grown (.inl hf), ok_bind,
    readIn_unwritten hnone (by omega) (by omega), error_bind]

end

/-- The commands whose pseudocode begins by reading INSEQ whole. -/
theorem bodyOf_readsInseq {i : Instr} (hi : i ∈ [Instr.hexenc, .hexdec, .b58enc, .b64enc, .b64uenc, .b64dec, .b32dec, .to5])
    (s : State) : ∃ f, bodyOf i s = readInseq s >>= f := by
  simp only [List.mem_cons, List.not_mem_nil, or_false] at hi
  rcases hi with rfl | rfl | rfl | rfl | rfl | rfl | rfl | rfl <;> exact ⟨_, rfl⟩

/-- Settles O19: each command reaches the read of the unwritten byte, since the checks before it pass. -/
theorem unwrittenInputFaults : Obligations.UnwrittenInputFaults := by
  intro s k hin hk hnone
  refine ⟨fun i hi => fault_of_body ?_, fun o h => fault_of_body ?_, fun o h => fault_of_body ?_,
    fun h1 h255 => fault_of_body ?_, fun h => fault_of_body ?_, fun hp => fault_of_body ?_, fun hp => fault_of_body ?_,
    fun hp => fault_of_body ?_, fun hlast => fault_of_body ?_, fun x hx h1 hlen hp => fault_of_body ?_,
    fun h1 h83 hlen hp => fault_of_body ?_, fun hm hf => fault_of_body ?_, fun hm hsrc hf hlo hhi => fault_of_body ?_⟩
  · obtain ⟨f, hf⟩ := bodyOf_readsInseq hi s
    rw [hf, readInseq_unwritten hnone hin hk, error_bind]
  · exact (bodyOf_b2i o s).trans (readIntBody_unwritten hnone hin hk _ h)
  · exact (bodyOf_b2l o s).trans (readIntBody_unwritten hnone hin hk _ h)
  · exact bodyOf_padp_unwritten hnone hin hk h1 h255
  · exact bodyOf_bbcopy_unwritten hnone hin hk h
  · exact bodyOf_ascii_unwritten hnone hin hk hp
  · exact bodyOf_from5_unwritten hnone hin hk hp
  · exact bodyOf_b58dec_unwritten hnone hin hk hp
  · exact bodyOf_unpadp_last_unwritten hnone hin hlast
  · exact bodyOf_unpadp_unwritten hnone hin hk hx h1 hlen hp
  · exact bodyOf_b32enc_unwritten hnone hin hk h1 h83 hlen hp
  · exact bodyOf_bbwrstr_unwritten hnone hin hk hm hf
  · exact bodyOf_bbwrbytes_unwritten hnone hin hm hsrc hf hlo hhi

end Sys2Proof.Machine
end

section
/-! PROOFS. The checksum calculator computes the residue of the rule, and a prefix is expanded as the rule says
(44_bech32.md R150-R152; log entry 9). -/

namespace Sys2Proof.Machine

open Sys2Proof.Claims

/-! ### The residue -/

theorem getD_map_toNat {n : Nat} (l : List (BitVec n)) (i : Nat) : (l.map BitVec.toNat).getD i 0 = (l.getD i 0).toNat :=
  List.getD_map l 0#n BitVec.toNat

/-- The generators that the top bits select, added on bit vectors and on naturals. -/
theorem foldl_generators_toNat (gen : List (BitVec 30)) (top : BitVec 30) (l : List Nat) (a : BitVec 30) :
    (l.foldl (fun a i => if top.getLsbD i then a ^^^ gen.getD i 0 else a) a).toNat
      = l.foldl (fun a i => if top.toNat.testBit i then a ^^^ (gen.map BitVec.toNat).getD i 0 else a) a.toNat := by
  induction l generalizing a with
  | nil => rfl
  | cons i l ih =>
    rw [List.foldl_cons, List.foldl_cons, ih, getD_map_toNat, BitVec.testBit_toNat]
    split
    · rw [BitVec.toNat_xor]
    · rfl

/-- The bits that stay below 2^30 after the shift are those of the mask. -/
theorem toNat_low_shiftLeft (c : BitVec 30) : ((c &&& 0x1FFFFFF) <<< 5).toNat = (c.toNat &&& 0x1FFFFFF) <<< 5 := by
  have hlow : (c &&& 0x1FFFFFF).toNat = c.toNat &&& 0x1FFFFFF := BitVec.toNat_and ..
  have hlt : c.toNat &&& 0x1FFFFFF < 2 ^ 25 := Nat.lt_succ_of_le Nat.and_le_right
  rw [BitVec.toNat_shiftLeft, hlow, Nat.shiftLeft_eq, Nat.mod_eq_of_lt (by omega)]

theorem polymodStep_toNat (gen : List (BitVec 30)) (c : BitVec 30) (v : Byte) :
    (polymodStep gen c v).toNat = residueStep (gen.map BitVec.toNat) c.toNat v.toNat := by
  have hv : (v.setWidth 30).toNat = v.toNat := by
    have := v.isLt
    rw [BitVec.toNat_setWidth, Nat.mod_eq_of_lt (by omega)]
  rw [polymodStep, xorGenerators, foldl_generators_toNat, BitVec.toNat_xor, toNat_low_shiftLeft, hv, BitVec.toNat_ushiftRight,
    residueStep]

/-- The calculator's accumulator is the residue, whatever the values. -/
theorem polymod_toNat (c : Config) (vals : List Byte) : (polymod c vals).toNat = residue c (vals.map BitVec.toNat) := by
  unfold polymod residue
  generalize c.bech32Init = a
  induction vals generalizing a with
  | nil => rfl
  | cons v vals ih => rw [List.foldl_cons, List.map_cons, List.foldl_cons, ih, polymodStep_toNat]

/-! ### The prefix -/

/-- The high part of a prefix byte (R151). -/
theorem ushiftRight_five (x : Byte) : x >>> (5 : Nat) = BitVec.ofNat 8 (x.toNat / 32) := by
  apply BitVec.eq_of_toNat_eq
  have := x.isLt
  rw [BitVec.toNat_ushiftRight, Nat.shiftRight_eq_div_pow, BitVec.toNat_ofNat, Nat.mod_eq_of_lt (by omega)]

/-- The low part of a prefix byte (R151). -/
theorem and_31 (x : Byte) : x &&& 31 = BitVec.ofNat 8 (x.toNat % 32) := by
  apply BitVec.eq_of_toNat_eq
  have hmask : (x &&& 31).toNat = x.toNat % 2 ^ 5 := (BitVec.toNat_and ..).trans (Nat.and_two_pow_sub_one_eq_mod _ 5)
  rw [hmask, BitVec.toNat_ofNat]
  omega

/-- A prefix as its high parts, 0 and its low parts. -/
theorem hrpExpand_eq (h : List Byte) : hrpExpand h =
    h.map (fun x => BitVec.ofNat 8 (x.toNat / 32)) ++ 0 :: h.map (fun x => BitVec.ofNat 8 (x.toNat % 32)) := by
  simp only [hrpExpand, ushiftRight_five, and_31, List.append_assoc, List.cons_append, List.nil_append]

theorem map_toNat_hrpExpand (h : List Byte) : (hrpExpand (lower h)).map BitVec.toNat = expandedPrefix h := by
  have hparts : ∀ x : Byte, x.toNat / 32 % 256 = x.toNat / 32 ∧ x.toNat % 32 % 256 = x.toNat % 32 := fun x => by
    have := x.isLt
    omega
  simp [hrpExpand_eq, expandedPrefix, Function.comp_def, hparts]

/-- Settles O42: each step of the calculator is a step of the residue, and each part of the prefix stands at its index. -/
theorem checksumCalculator : Obligations.ChecksumCalculator := by
  refine ⟨fun c vals _ => polymod_toNat c vals, fun h => ?_⟩
  rw [hrpExpand_eq]
  refine ⟨by simp; omega, fun k x hk => ⟨?_, ?_⟩, ?_⟩
  · rw [List.getElem?_append_left (by simpa using (List.getElem?_eq_some_iff.1 hk).1), List.getElem?_map, hk, Option.map_some]
  · rw [List.getElem?_append_right (by simp; omega), List.length_map, Nat.add_assoc, Nat.add_sub_cancel_left, Nat.add_comm,
      List.getElem?_cons_succ, List.getElem?_map, hk, Option.map_some]
  · rw [List.getElem?_append_right (by simp), List.length_map, Nat.sub_self, List.getElem?_cons_zero]

/-! ### The checksum -/

/-- The groups of the checksum, as the numbers they are (R152). -/
theorem map_toNat_createChecksum (c : Config) (h d : List Byte) :
    (createChecksum c h d).map BitVec.toNat = checksumValues c h (d.map BitVec.toNat) := by
  have hres : residue c (expandedPrefix h ++ d.map BitVec.toNat ++ List.replicate 6 0) ^^^ 1
      = (polymod c (hrpExpand (lower h) ++ d ++ List.replicate 6 0) ^^^ 1).toNat := by
    rw [BitVec.toNat_xor, polymod_toNat, List.map_append, List.map_append, map_toNat_hrpExpand, List.map_replicate]
    rfl
  have hgroup : ∀ (m : BitVec 30) (k : Nat), ((m.extractLsb' k 5).setWidth 8).toNat = m.toNat / 2 ^ k % 32 := fun m k => by
    rw [BitVec.toNat_setWidth, BitVec.extractLsb'_toNat, Nat.shiftRight_eq_div_pow]
    omega
  simp only [createChecksum, checksumValues, hres, List.map_cons, List.map_nil, hgroup, Nat.pow_zero, Nat.div_one]

/-- The checksum of values verifies exactly where their residue is 1. -/
theorem verifyChecksum_eq_true_iff {c : Config} {h v : List Byte} :
    verifyChecksum c h v = true ↔ residue c (expandedPrefix h ++ v.map BitVec.toNat) = 1 := by
  rw [verifyChecksum, beq_iff_eq, ← BitVec.toNat_inj, polymod_toNat, List.map_append, map_toNat_hrpExpand]
  rfl

end Sys2Proof.Machine
end

section
/-! PROOFS. B32ENC and B32DEC on every input: the checks in the pseudocode's order, and the result where all of them pass
(44_bech32.md R152-R154; log entry 9). -/

namespace Sys2Proof.Machine

open Sys2Proof.Claims

/-! ### The alphabet -/

/-- `CHARSET` lists the symbols by value. -/
theorem charset_eq : charset = (List.range 32).map b32Char := by decide

theorem b32idx_b32Char {v : Nat} (h : v < 32) : b32idx (b32Char v) = some v := by
  revert v
  decide

theorem b32idx_eq_none {c : Byte} (h : ∀ v < 32, c ≠ b32Char v) : b32idx c = none := by
  refine Option.eq_none_iff_forall_ne_some.2 fun v hv => ?_
  obtain ⟨hlt, hc, _⟩ := List.idxOf?_eq_some_iff.1 hv
  simp only [charset_eq, List.length_map, List.length_range, List.getElem_map, List.getElem_range] at hlt hc
  exact h v hlt hc.symm

theorem b32TextOf_eq (c : Config) (h d : List Byte) : b32TextOf c h (d.map BitVec.toNat) = b32Text c h d := by
  rw [b32TextOf, ← map_toNat_createChecksum, b32Text, b32Symbols, List.map_map, List.map_map, List.map_append,
    List.append_assoc, List.append_assoc]
  rfl

/-! ### B32ENC -/

theorem hrpCharBad_eq_true_iff {x : Byte} : hrpCharBad x = true ↔ ¬ PrefixByte x := by
  rw [← hrpCharBad_eq_false_iff, Bool.not_eq_false]

theorem bodyOf_b32enc_inLength {s : State} (h : s.cfg.inCap < s.inLen.toNat ∨ s.inLen.toNat < s.arg0.toNat) :
    bodyOf .b32enc s = .error (.cause .inLength) := by
  rw [bodyOf, b32encBody]
  by_cases hin : s.cfg.inCap < s.inLen.toNat
  · exact needIn_bind_error hin
  · rw [needIn_ok (Nat.not_lt.1 hin), ok_bind]
    dsimp only
    rw [raiseIf_true _ (h.resolve_left hin), error_bind]

theorem bodyOf_b32enc_hrpLength {s : State} (hin : s.inLen.toNat ≤ s.cfg.inCap) (hle : s.arg0.toNat ≤ s.inLen.toNat)
    (h : s.arg0.toNat = 0 ∨ 83 < s.arg0.toNat) : bodyOf .b32enc s = .error (.cause .hrpLength) := by
  rw [bodyOf, b32encBody, needIn_ok hin, ok_bind]
  dsimp only
  rw [raiseIf_false _ (by omega), ok_bind, raiseIf_true _ (by omega), error_bind]

section
variable {s : State} {h d : List Byte} (hin : InseqIs s (h ++ d)) (harg : s.arg0.toNat = h.length) (h1 : 1 ≤ h.length)
  (h83 : h.length ≤ 83)
include hin harg h1 h83

/-- B32ENC from the scan of the prefix on. -/
theorem bodyOf_b32enc_scan : bodyOf .b32enc s = (do
    let p ← scanCells (refuse hrpCharBad .hrpChar) (h.map some)
    let v ← scanCells (refuse (fun x => x > 31) .dataValue) (d.map some)
    emit (lower p ++ [0x31] ++ v.map b32Symbol ++ (createChecksum s.cfg p v).map b32Symbol) s) := by
  have hlen : s.inLen.toNat = h.length + d.length := hin.1.trans List.length_append
  have hpre : inCells s 0 h.length = h.map some := by
    rw [inCells_slice hin _ _ (by simp), List.drop_zero, List.take_left]
  have hdata : inCells s h.length d.length = d.map some := by
    rw [inCells_slice hin _ _ (by simp), List.drop_left, List.take_length]
  rw [bodyOf, b32encBody, needIn_of_inseqIs hin, ok_bind]
  dsimp only
  rw [harg, hlen, raiseIf_false _ (by omega), ok_bind, raiseIf_false _ (by omega), ok_bind, Nat.add_sub_cancel_left,
    scanIn, hpre, scanIn, hdata]

theorem bodyOf_b32enc_hrpChar (hbad : ∃ x ∈ h, ¬ PrefixByte x) : bodyOf .b32enc s = .error (.cause .hrpChar) := by
  obtain ⟨x, hx, hnot⟩ := hbad
  rw [bodyOf_b32enc_scan hin harg h1 h83, scanCells_refuse_error ⟨x, hx, hrpCharBad_eq_true_iff.2 hnot⟩,
    error_bind]

theorem bodyOf_b32enc_dataValue (hh : ∀ x ∈ h, PrefixByte x) (hbad : ∃ x ∈ d, 31 < x.toNat) :
    bodyOf .b32enc s = .error (.cause .dataValue) := by
  obtain ⟨x, hx, hgt⟩ := hbad
  have hxbad : decide (x > 31) = true := decide_eq_true (BitVec.lt_def.2 hgt)
  rw [bodyOf_b32enc_scan hin harg h1 h83, scanCells_refuse_ok fun x hx => hrpCharBad_eq_false_iff.2 (hh x hx), ok_bind,
    scanCells_refuse_error ⟨x, hx, hxbad⟩, error_bind]

end

/-- Settles O43: four checks in order, and the checksum's values are those of the rule. -/
theorem b32encWritesBech32 : Obligations.B32encWritesBech32 := by
  refine ⟨by decide, fun s hl => ⟨fun h => ?_, fun hin hle h => ?_, fun h d hin harg h1 h83 => ⟨fun hbad => ?_, fun hh =>
    ⟨fun hbad => ?_, fun hd => ?_⟩⟩⟩⟩
  · exact fails_of_body (c := .inLength) (bodyOf_b32enc_inLength h)
  · exact fails_of_body (c := .hrpLength) (bodyOf_b32enc_hrpLength hin hle h)
  · exact fails_of_body (c := .hrpChar) (bodyOf_b32enc_hrpChar hin harg h1 h83 hbad)
  · exact fails_of_body (c := .dataValue) (bodyOf_b32enc_dataValue hin harg h1 h83 hh hbad)
  · rw [b32TextOf_eq]
    exact yields_of_body hl (bodyOf_b32enc hin harg h1 h83 hh hd)

/-! ### B32DEC -/

theorem bodyOf_b32dec_noSeparator {s : State} {t : List Byte} (hin : InseqIs s t) (h : 0x31 ∉ t) :
    bodyOf .b32dec s = .error (.cause .noSeparator) := by
  rw [bodyOf, b32decBody, readInseq_of_inseqIs hin, ok_bind, lastIndexOf_eq_none h, orRaise_none, error_bind]

/-- The data characters as B32DEC looks them up: in lower case where P10 folds. -/
def foldData (c : Config) (dp : List Byte) : List Byte := if c.bech32DataCase = .fold then lower dp else dp

/-- B32DEC from the symbols' values on. -/
def b32decValues (s : State) (h : List Byte) (idx : List Nat) : Except Stop State := do
  raiseIf (verifyChecksum s.cfg h (idx.map (BitVec.ofNat 8)) = false) .checksum
  let t ← emit (lower h ++ (idx.map (BitVec.ofNat 8)).take ((idx.map (BitVec.ofNat 8)).length - 6)) s
  pure (t.setOutSplit (BitVec.ofNat 32 h.length))

section
variable {s : State} {h dp : List Byte} (hin : InseqIs s (h ++ 0x31 :: dp)) (hdp : 0x31 ∉ dp)
include hin hdp

/-- B32DEC on a text with a separator, split at the last one. -/
theorem bodyOf_b32dec_split : bodyOf .b32dec s = (do
    raiseIf (¬ (1 ≤ h.length ∧ h.length ≤ 83)) .hrpLength
    raiseIf (h.any hrpCharBad = true) .hrpChar
    raiseIf (dp.length < 6) .dataTooShort
    let idx ← orRaise (indicesOf b32idx (foldData s.cfg dp)) .badChar
    b32decValues s h idx) := by
  have hdrop : (h ++ 0x31 :: dp).drop (h.length + 1) = dp := by
    rw [← List.drop_drop, List.drop_left]
    rfl
  rw [bodyOf, b32decBody, readInseq_of_inseqIs hin, ok_bind, lastIndexOf_append_cons hdp, orRaise_some, ok_bind,
    List.take_left, hdrop]
  rfl

theorem bodyOf_b32dec_hrpLength (hlen : h.length = 0 ∨ 83 < h.length) : bodyOf .b32dec s = .error (.cause .hrpLength) := by
  rw [bodyOf_b32dec_split hin hdp, raiseIf_true _ (by omega), error_bind]

variable (h1 : 1 ≤ h.length) (h83 : h.length ≤ 83)
include h1 h83

theorem bodyOf_b32dec_hrpChar (hbad : ∃ x ∈ h, ¬ PrefixByte x) : bodyOf .b32dec s = .error (.cause .hrpChar) := by
  obtain ⟨x, hx, hnot⟩ := hbad
  have hany : h.any hrpCharBad = true := List.any_eq_true.2 ⟨x, hx, hrpCharBad_eq_true_iff.2 hnot⟩
  rw [bodyOf_b32dec_split hin hdp, raiseIf_false _ (by omega), ok_bind, raiseIf_true _ hany, error_bind]

variable (hh : ∀ x ∈ h, PrefixByte x)
include hh

/-- B32DEC past the checks of the prefix. -/
theorem bodyOf_b32dec_data : bodyOf .b32dec s = (do
    raiseIf (dp.length < 6) .dataTooShort
    let idx ← orRaise (indicesOf b32idx (foldData s.cfg dp)) .badChar
    b32decValues s h idx) := by
  have hany : ¬ h.any hrpCharBad = true := by simpa using fun x hx => hrpCharBad_eq_false_iff.2 (hh x hx)
  rw [bodyOf_b32dec_split hin hdp, raiseIf_false _ (by omega), ok_bind, raiseIf_false _ hany, ok_bind]

theorem bodyOf_b32dec_dataTooShort (h6 : dp.length < 6) : bodyOf .b32dec s = .error (.cause .dataTooShort) := by
  rw [bodyOf_b32dec_data hin hdp h1 h83 hh, raiseIf_true _ h6, error_bind]

variable (h6 : 6 ≤ dp.length)
include h6

theorem bodyOf_b32dec_badChar (hbad : ∃ c ∈ foldData s.cfg dp, ∀ v < 32, c ≠ b32Char v) :
    bodyOf .b32dec s = .error (.cause .badChar) := by
  obtain ⟨c, hc, hv⟩ := hbad
  rw [bodyOf_b32dec_data hin hdp h1 h83 hh, raiseIf_false _ (by omega), ok_bind, indicesOf_none ⟨c, hc, b32idx_eq_none hv⟩,
    orRaise_none, error_bind]

theorem bodyOf_b32dec_symbols {v : List Nat} (hv : ∀ x ∈ v, x < 32) (he : foldData s.cfg dp = v.map b32Char) :
    bodyOf .b32dec s = b32decValues s h v := by
  have hidx : indicesOf b32idx (v.map b32Char) = some v :=
    indicesOf_some (List.forall₂_map_left_iff.2 (List.forall₂_same.2 fun x hx => b32idx_b32Char (hv x hx)))
  rw [bodyOf_b32dec_data hin hdp h1 h83 hh, raiseIf_false _ (by omega), ok_bind, he, hidx, orRaise_some, ok_bind]

end

/-- The values below 32 are kept by the byte they stand in. -/
theorem map_toNat_map_ofNat {v : List Nat} (hv : ∀ x ∈ v, x < 32) : (v.map (BitVec.ofNat 8)).map BitVec.toNat = v := by
  rw [List.map_map]
  refine (List.map_congr_left fun x hx => ?_).trans (List.map_id v)
  have := hv x hx
  exact Nat.mod_eq_of_lt (by omega)

theorem b32decValues_checksum {s : State} {h : List Byte} {v : List Nat} (hv : ∀ x ∈ v, x < 32)
    (hne : residue s.cfg (expandedPrefix h ++ v) ≠ 1) : b32decValues s h v = .error (.cause .checksum) := by
  have hfalse : verifyChecksum s.cfg h (v.map (BitVec.ofNat 8)) = false := by
    rw [Bool.eq_false_iff, ne_eq, verifyChecksum_eq_true_iff, map_toNat_map_ofNat hv]
    exact hne
  rw [b32decValues, raiseIf_true _ hfalse, error_bind]

theorem b32decValues_verified {s : State} {h : List Byte} {v : List Nat} (hv : ∀ x ∈ v, x < 32)
    (hres : residue s.cfg (expandedPrefix h ++ v) = 1) : b32decValues s h v =
      emit (lower h ++ (v.take (v.length - 6)).map (BitVec.ofNat 8)) s >>= fun t =>
        pure (t.setOutSplit (BitVec.ofNat 32 h.length)) := by
  have htrue : verifyChecksum s.cfg h (v.map (BitVec.ofNat 8)) = true := by
    rwa [verifyChecksum_eq_true_iff, map_toNat_map_ofNat hv]
  rw [b32decValues, htrue, raiseIf_false _ (by decide), ok_bind, List.length_map, List.map_take]

/-- Settles O44: the checks in order, the symbols' values looked up, and the prefix and data emitted where the residue is 1. -/
theorem b32decReadsBech32 : Obligations.B32decReadsBech32 := by
  refine ⟨by decide, fun s hl => ⟨fun h => fails_of_body (c := .inLength) (readInseq_bind_error h),
    fun t hin h => fails_of_body (c := .noSeparator) (bodyOf_b32dec_noSeparator hin h), fun h dp hin hdp => ⟨fun hlen => ?_,
    fun h1 h83 => ⟨fun hbad => ?_, fun hh => ⟨fun hshort => ?_, fun h6 e he => ?_⟩⟩⟩⟩⟩
  · exact fails_of_body (c := .hrpLength) (bodyOf_b32dec_hrpLength hin hdp hlen)
  · exact fails_of_body (c := .hrpChar) (bodyOf_b32dec_hrpChar hin hdp h1 h83 hbad)
  · exact fails_of_body (c := .dataTooShort) (bodyOf_b32dec_dataTooShort hin hdp h1 h83 hh hshort)
  · obtain rfl : e = foldData s.cfg dp := he
    refine ⟨fun hbad => fails_of_body (c := .badChar) (bodyOf_b32dec_badChar hin hdp h1 h83 hh h6 hbad), fun v hv hvals => ?_⟩
    have hbody := bodyOf_b32dec_symbols hin hdp h1 h83 hh h6 hv hvals
    refine ⟨fun hne => fails_of_body (c := .checksum) (hbody.trans (b32decValues_checksum hv hne)), fun hres out hout => ?_⟩
    rw [b32decValues_verified hv hres, ← hout] at hbody
    refine ⟨fun hlong => fails_of_body (c := .outOverflow) ?_, fun hfit => ?_⟩
    · rw [hbody, emit_overflow hlong, error_bind]
    · exact ⟨BitVec.ofNat 32 h.length, Nat.mod_eq_of_lt (by omega), completes_emit_outSplit hl hbody hfit⟩

end Sys2Proof.Machine
end
